-- ==== Sys2Proof/Syntax.lean ====
section
/-!
DEFINITION. The nine commands of ARCD-CORE, one constructor per row of `spec/opcode_table.json`.
Spec: `30_encoding.md` rules R73 to R75. An operand is a natural number, as rule R73 reads it; that
it fits its 64-bit packet field is the check of `WellFormed.lean`. An operand that a command ignores
(rule R74) is not part of the command (DEDUCED, safe, log entry 13).
-/

namespace Sys2Proof

inductive Instr where
  /-- NOP, rule R160. -/
  | nop
  /-- RDREG n, rule R161. -/
  | rdreg (n : Nat)
  /-- ENC.START, rule R110. -/
  | encStart
  /-- ENC.PUT pl, pu, pt, rule R113. -/
  | encPut (pl pu pt : Nat)
  /-- ENC.FINISH, rule R118. -/
  | encFinish
  /-- DEC.START, rule R130. -/
  | decStart
  /-- DEC.SCALE total, rule R134. -/
  | decScale (total : Nat)
  /-- DEC.NARROW pl, pu, pt, rule R135. -/
  | decNarrow (pl pu pt : Nat)
  /-- FSCALE v, range, total, rule R152. -/
  | fscale (v range total : Nat)
deriving DecidableEq, Repr

end Sys2Proof
end

