-- ==== Sys2Proof/WellFormed.lean ====
section
/-!
DEFINITION. Which commands can be put into a packet.
Spec: `30_encoding.md` rule R80, "An operand must fit in 64 bits, or the assembler rejects the line".
Nothing else is checked here: an operand too large for its meaning is a legal packet that the
command's own rule answers (rule R73).
-/

namespace Sys2Proof

/-- An operand fits its 64-bit field of the packet. -/
def fitsOperand (v : Nat) : Bool := decide (v < 2 ^ 64)

/-- Every operand the command has fits in 64 bits (rule R80). -/
def Instr.wellFormed : Instr → Bool
  | .nop => true
  | .rdreg n => fitsOperand n
  | .encStart => true
  | .encPut pl pu pt => fitsOperand pl && fitsOperand pu && fitsOperand pt
  | .encFinish => true
  | .decStart => true
  | .decScale total => fitsOperand total
  | .decNarrow pl pu pt => fitsOperand pl && fitsOperand pu && fitsOperand pt
  | .fscale v range total => fitsOperand v && fitsOperand range && fitsOperand total

end Sys2Proof
end

