-- ==== Sys2Proof/Word.lean ====
section
/-!
DEFINITION. The bit vectors that cross ARCD-CORE's command port.
Spec: `30_encoding.md` rules R70, R73 and R79; every other value of the rules is a natural number
(`00_scope.md` rule R13), so no other bit vector occurs in the model.
-/

namespace Sys2Proof

/-- A 64-bit operand A, B or C of a packet, and the VALUE field of a response (rules R70 and R79). -/
abbrev Word := BitVec 64

/-- A command packet: one 256-bit value, whatever bus carried it (rules R70 and R71; DEDUCED, log
entry 14). -/
abbrev Packet := BitVec 256

end Sys2Proof
end

