-- ==== Sys2Proof/Decode.lean ====
section
/-!
DEFINITION. The command packet: its fields, the decoder (total on all 2^256 packets, rejecting by
name) and the encoder.
Spec: `30_encoding.md` rules R70 to R77 and R80.
-/

namespace Sys2Proof

/-- The packet made of four 64-bit words that arrive in the order W0, W1, W2, W3 (rule R71). -/
def packetOfWords (w0 w1 w2 w3 : Word) : Packet := w3 ++ w2 ++ w1 ++ w0

/-- OP, bits [7:0] (rule R70). -/
def packetOp (p : Packet) : Nat := (p.extractLsb' 0 8).toNat

/-- RSV, bits [63:8] (rule R70). -/
def packetRsv (p : Packet) : Nat := (p.extractLsb' 8 56).toNat

/-- Operand A, bits [127:64], read whole (rules R70 and R73). -/
def packetA (p : Packet) : Nat := (p.extractLsb' 64 64).toNat

/-- Operand B, bits [191:128], read whole (rules R70 and R73). -/
def packetB (p : Packet) : Nat := (p.extractLsb' 128 64).toNat

/-- Operand C, bits [255:192], read whole (rules R70 and R73). -/
def packetC (p : Packet) : Nat := (p.extractLsb' 192 64).toNat

/-- Why a packet is illegal. Both reasons get the response EILLEGAL (rule R77). -/
inductive DecodeError where
  /-- RSV is not 0. -/
  | reservedField (rsv : Nat)
  /-- OP is one of the 247 values that rule R75 does not list. -/
  | reservedOpcode (op : Nat)
deriving DecidableEq, Repr

/-- The look-up of all 8 bits of OP at once (rules R72, R75 and R76). -/
def commandOf (op a b c : Nat) : Except DecodeError Instr :=
  match op with
  | 0x00 => .ok .nop
  | 0x01 => .ok (.rdreg a)
  | 0x10 => .ok .encStart
  | 0x11 => .ok (.encPut a b c)
  | 0x12 => .ok .encFinish
  | 0x20 => .ok .decStart
  | 0x21 => .ok (.decScale a)
  | 0x22 => .ok (.decNarrow a b c)
  | 0x30 => .ok (.fscale a b c)
  | other => .error (.reservedOpcode other)

/-- Decode(P) of rule R76: RSV is checked before OP is looked at. -/
def decode (p : Packet) : Except DecodeError Instr :=
  if packetRsv p ≠ 0 then .error (.reservedField (packetRsv p))
  else commandOf (packetOp p) (packetA p) (packetB p) (packetC p)

/-- The OP value of a command (rule R75). -/
def Instr.opcode : Instr → Nat
  | .nop => 0x00
  | .rdreg _ => 0x01
  | .encStart => 0x10
  | .encPut _ _ _ => 0x11
  | .encFinish => 0x12
  | .decStart => 0x20
  | .decScale _ => 0x21
  | .decNarrow _ _ _ => 0x22
  | .fscale _ _ _ => 0x30

/-- The operands A, B, C the assembler writes; one the command ignores is encoded as 0
(rules R74 and R80). -/
def Instr.operands : Instr → Nat × Nat × Nat
  | .nop => (0, 0, 0)
  | .rdreg n => (n, 0, 0)
  | .encStart => (0, 0, 0)
  | .encPut pl pu pt => (pl, pu, pt)
  | .encFinish => (0, 0, 0)
  | .decStart => (0, 0, 0)
  | .decScale total => (total, 0, 0)
  | .decNarrow pl pu pt => (pl, pu, pt)
  | .fscale v range total => (v, range, total)

/-- P = [C, B, A, RSV, OP] with RSV = 0 (rule R70). -/
def packetOfFields (op a b c : Nat) : Packet :=
  BitVec.ofNat 64 c ++ BitVec.ofNat 64 b ++ BitVec.ofNat 64 a ++ 0#56 ++ BitVec.ofNat 8 op

/-- The packet of a command (rules R70, R75 and R80). -/
def encode (i : Instr) : Packet :=
  packetOfFields i.opcode i.operands.1 i.operands.2.1 i.operands.2.2

/-- The command read from a row of `spec/opcode_table.json`: the table numbers the bits of the
256-bit packet, and bits above `nbits` are 0. -/
def decodeTableWord (nbits w : Nat) : Option Instr :=
  match decode (BitVec.ofNat 256 (w % 2 ^ nbits)) with
  | .ok i => some i
  | .error _ => none

end Sys2Proof
end

