-- ==== Sys2Proof/Config.lean ====
section
/-!
DEFINITION. The four elaboration-time parameters of ARCD-CORE and the constants derived from them.
Spec: `00_scope.md` rules R8, R9, R10 and R12.
The type holds legal parameter sets only: an illegal one is no instance of ARCD-CORE
(`60_exceptions.md` rule R179), and `Config.elaborate` refuses it.
-/

namespace Sys2Proof

/-- A legal parameter set (rule R8). The proof fields are rule R10's precondition of the
configuration type, so that no command can meet an ArithmeticPrecisionViolation. -/
structure Config where
  rangeBits : Nat
  freqBits : Nat
  bufBits : Nat
  pendingBits : Nat
  freq_pos : 1 ≤ freqBits
  freq_le_range : freqBits + 2 ≤ rangeBits
  range_le : rangeBits ≤ 62
  buf_pos : 1 ≤ bufBits
  buf_le : bufBits ≤ 64
  pending_pos : 1 ≤ pendingBits
  pending_le : pendingBits ≤ 64
deriving DecidableEq, Repr

/-- Rule R8's legal ranges together with rule R10's precision constraint. -/
abbrev Config.Legal (rangeBits freqBits bufBits pendingBits : Nat) : Prop :=
  (1 ≤ freqBits ∧ freqBits + 2 ≤ rangeBits ∧ rangeBits ≤ 62) ∧
  (1 ≤ bufBits ∧ bufBits ≤ 64) ∧ (1 ≤ pendingBits ∧ pendingBits ≤ 64)

/-- Elaboration of a block: an illegal parameter set is refused (rules R10 and R179). -/
def Config.elaborate (rangeBits freqBits bufBits pendingBits : Nat) : Option Config :=
  if h : Config.Legal rangeBits freqBits bufBits pendingBits then
    some ⟨rangeBits, freqBits, bufBits, pendingBits,
      h.1.1, h.1.2.1, h.1.2.2, h.2.1.1, h.2.1.2, h.2.2.1, h.2.2.2⟩
  else none

/-- RANGE_MAX (rule R9). -/
def Config.rangeMax (c : Config) : Nat := 2 ^ c.rangeBits

/-- HALF (rule R9). -/
def Config.half (c : Config) : Nat := c.rangeMax / 2

/-- QUARTER (rule R9). -/
def Config.quarter (c : Config) : Nat := c.rangeMax / 4

/-- THREE_QUARTERS (rule R9). -/
def Config.threeQuarters (c : Config) : Nat := 3 * c.quarter

/-- FREQ_MAX (rule R9). -/
def Config.freqMax (c : Config) : Nat := 2 ^ c.freqBits - 1

/-- PENDING_MAX (rule R9). -/
def Config.pendingMax (c : Config) : Nat := 2 ^ c.pendingBits - 1

/-- The reference parameter set ARCD-REF (rule R12). -/
def Config.arcdRef : Config :=
  ⟨16, 14, 8, 32, by decide, by decide, by decide, by decide, by decide, by decide, by decide⟩

/-- The parameter set SMALL of `95_test_vectors.md` section 0. -/
def Config.small : Config :=
  ⟨6, 4, 4, 2, by decide, by decide, by decide, by decide, by decide, by decide, by decide⟩

end Sys2Proof
end

