-- ==== Sys2Proof/Machine/State.lean ====
section
/-!
DEFINITION. Every piece of state the spec gives ARCD-CORE, as plain data, and its value at reset.
Spec: `10_state.md` rules R20 to R44, `60_exceptions.md` rules R170 to R182, `70_reset_and_hazards.md`
rules R190 to R193 and R204.
A register is a natural number (`00_scope.md` rule R13 and `10_state.md` rule R39); that each fits its
width, in every reachable state, is part of `State.Inv` in `Safety.lean`.
-/

namespace Sys2Proof.Machine

/-- The values of a `phase` register (rule R22). ENC never holds `scaled`: see `State.Inv`. -/
inductive Phase where
  | idle
  | active
  | scaled
  | fault
deriving DecidableEq, Repr

/-- The three stream faults (rules R23 and R174). A `cause` register holds one of them, or none. -/
inductive StreamFault where
  | emodel
  | esource
  | epending
deriving DecidableEq, Repr

/-- The nine response codes (rule R171). -/
inductive Code where
  | ok
  | eillegal
  | eseq
  | efaulted
  | emodel
  | esource
  | epending
  | edomain
  | ebadreg
deriving DecidableEq, Repr

/-- The two units that hold state (rule R21). -/
inductive UnitName where
  | enc
  | dec
deriving DecidableEq, Repr

/-- One unit of bits on the Sink's or the Source's port: a word `BUF_BITS` wide and its count of
valid bits (rules R56 and R58). -/
structure BitUnit where
  word : Nat
  count : Nat
deriving DecidableEq, Repr

/-- ENC's registers (rules R22 to R26). -/
structure Enc where
  phase : Phase
  cause : Option StreamFault
  lower : Nat
  upper : Nat
  range : Nat
  pending : Nat
  buf : Nat
  fill : Nat
deriving DecidableEq, Repr

/-- DEC's registers (rules R22, R23 and R27 to R31). -/
structure Dec where
  phase : Phase
  cause : Option StreamFault
  lower : Nat
  upper : Nat
  range : Nat
  window : Nat
  exhausted : Bool
  buf : Nat
  left : Nat
  total : Nat
  scaled : Nat
deriving DecidableEq, Repr

/-- The Bit Sink's port. -/
structure Sink where
  /-- The record of accepted units, oldest first (rule R44). -/
  units : List BitUnit
  /-- How many further units the Sink will accept: all of them (`none`), or so many and then never
  one again (rule R57; DESIGN CHOICE, safe, log entry 5). -/
  room : Option Nat
deriving DecidableEq, Repr

/-- What the Bit Source does at one SourceFill (rules R57 and R58). -/
inductive SourceReply where
  /-- It replies `(word, count)`. -/
  | reply (word count : Nat)
  /-- It never completes the transaction (DESIGN CHOICE, safe, log entry 5). -/
  | never
deriving DecidableEq, Repr

/-- The Bit Source's port. -/
structure Source where
  /-- The replies to come, next first; after the last one every reply is `(0, 0)`, exhaustion (the
  convention of `42_decoder.md`'s preamble and `95_test_vectors.md` section 0; DEDUCED, safe, log
  entry 4). -/
  replies : List SourceReply
  /-- The number of SourceFill calls made (rule R204). -/
  fills : Nat
deriving DecidableEq, Repr

/-- The 72-bit response (rule R79). -/
structure Response where
  code : Code
  value : Word
deriving DecidableEq, Repr

/-- One entry of the run's record of stream faults (rule R182). -/
structure FaultRecord where
  unit : UnitName
  fault : StreamFault
deriving DecidableEq, Repr

/-- What the host does next: it issues a packet, or resets the block between two commands
(rules R63 and R190). -/
inductive HostEvent where
  | command (p : Packet)
  | reset
deriving DecidableEq, Repr

/-- The block, its two ports and the host's side of a run. -/
structure State where
  /-- The elaborated parameters, read by the four configuration registers (rule R37; DESIGN CHOICE,
  log entry 1). -/
  cfg : Config
  /-- ENC's registers. -/
  enc : Enc
  /-- DEC's registers. -/
  dec : Dec
  /-- The Bit Sink's port (rule R56). -/
  sink : Sink
  /-- The Bit Source's port (rule R58). -/
  source : Source
  /-- What the host is about to do, next first (rules R20 and R44; DESIGN CHOICE, log entry 3). -/
  inbox : List HostEvent
  /-- The responses sent, oldest first (rules R170 and R204). -/
  responses : List Response
  /-- Every stream fault of the run, oldest first; nothing clears it (rule R182). -/
  faults : List FaultRecord
deriving DecidableEq, Repr

/-- Where no step exists. A response with an error code is not one of these: it is a next state. -/
inductive Fault where
  /-- Raised by ENC.PUT and ENC.FINISH at a SinkAccept that the Sink never completes: "In the model
  that is a state with no step, not an answer" (rule R57). Safe: nothing is claimed of what follows. -/
  | sinkNeverAccepts
  /-- Raised by DEC.START and DEC.NARROW at a SourceFill that the Source never completes (rules R57
  and R58). Safe, likewise. -/
  | sourceNeverReplies
  /-- Raised by ENC.PUT and DEC.NARROW when the renormalization loop has not stopped after
  `RANGE_BITS` iterations. Rule R105 shows that no state with a legal interval gets here; it is the
  degenerate interval that the source calls "a fatal bug" (DESIGN CHOICE, safe, log entry 8). -/
  | loopDoesNotEnd
deriving DecidableEq, Repr

/-- Commands without a meaning. -/
inductive Refusal where
  /-- Raised by `exec` alone, for a command whose meaning is not written. No arm does so now. Safe. -/
  | notModelled (mnemonic : String)
deriving DecidableEq, Repr

/-- ENC's registers after reset (rule R36). -/
def Enc.reset : Enc :=
  { phase := .idle, cause := none, lower := 0, upper := 0, range := 0, pending := 0, buf := 0, fill := 0 }

/-- DEC's registers after reset (rule R36). -/
def Dec.reset : Dec :=
  { phase := .idle, cause := none, lower := 0, upper := 0, range := 0, window := 0,
    exhausted := false, buf := 0, left := 0, total := 0, scaled := 0 }

/-- The start of a run of the block elaborated with `c`: after reset, nothing issued, nothing
transferred (rules R36, R192 and R204). That the Sink accepts and the Source is exhausted is a DESIGN
CHOICE (unsafe, log entry 10). -/
def State.resetOf (c : Config) : State :=
  { cfg := c, enc := Enc.reset, dec := Dec.reset,
    sink := { units := [], room := none }, source := { replies := [], fills := 0 },
    inbox := [], responses := [], faults := [] }

/-- The machine right after reset, at the reference parameter set ARCD-REF (rules R12 and R36; the set
is a DESIGN CHOICE, unsafe for claims about this one state, log entry 1). -/
def State.reset : State := State.resetOf Config.arcdRef

end Sys2Proof.Machine
end

