-- ==== Sys2Proof/Machine/Flags.lean ====
section
/-!
DEFINITION. The flags (`10_state.md` rule R35): phase and cause encodings, the two status words, the
response word, and the phase check that begins a command.
Spec: `10_state.md` rules R22, R23 and R41, `30_encoding.md` rule R79, `60_exceptions.md` rules R171
and R173.
-/

namespace Sys2Proof.Machine

/-- The value of a 2-bit phase register (rule R22). -/
def Phase.toNat : Phase → Nat
  | .idle => 0
  | .active => 1
  | .scaled => 2
  | .fault => 3

/-- The value of a response code (rule R171). -/
def Code.toNat : Code → Nat
  | .ok => 0
  | .eillegal => 1
  | .eseq => 2
  | .efaulted => 3
  | .emodel => 4
  | .esource => 5
  | .epending => 6
  | .edomain => 7
  | .ebadreg => 8

/-- The value of a 4-bit cause register: the fault's response code, or 0 (rule R23). -/
def causeToNat : Option StreamFault → Nat
  | none => 0
  | some .emodel => 4
  | some .esource => 5
  | some .epending => 6

/-- ENC_STATUS (rule R41). -/
def encStatus (e : Enc) : Nat := e.phase.toNat + 16 * causeToNat e.cause

/-- DEC_STATUS (rule R41). -/
def decStatus (d : Dec) : Nat := d.phase.toNat + 16 * causeToNat d.cause + 256 * d.exhausted.toNat

/-- The 72 bits of a response, VALUE above CODE (rule R79). -/
def Response.bits (r : Response) : BitVec 72 := r.value ++ BitVec.ofNat 8 r.code.toNat

/-- The phase check of ENC.PUT, ENC.FINISH and DEC.SCALE: the error it answers, if any (rule R173).
ENC in SCALED, which no run reaches, counts as open (DESIGN CHOICE, log entry 16). -/
def openStreamCheck (p : Phase) : Option Code :=
  match p with
  | .fault => some .efaulted
  | .idle => some .eseq
  | .active => none
  | .scaled => none

/-- The phase check of DEC.NARROW: the error it answers, if any (rules R135 and R173). -/
def scaledStepCheck (p : Phase) : Option Code :=
  match p with
  | .fault => some .efaulted
  | .idle => some .eseq
  | .active => some .eseq
  | .scaled => none

end Sys2Proof.Machine
end

