-- ==== Sys2Proof/Machine/Operands.lean ====
section
/-!
DEFINITION. What each operand form means: a register number, a probability interval, a total, the
domain of the frequency-scale mapper.
Spec: `30_encoding.md` rule R74, `00_scope.md` rule R16, `10_state.md` rules R39 to R41, `42_decoder.md`
rules R134 and R135, `43_fscale.md` rules R151 and R152.
-/

namespace Sys2Proof.Machine

/-- `csr(n)`: the register numbered `n`, or none where the number is unassigned. Numbers are not
masked to 8 bits (rules R40 and R161). -/
def csr (s : State) (n : Nat) : Option Nat :=
  match n with
  | 0x00 => some s.cfg.rangeBits
  | 0x01 => some s.cfg.freqBits
  | 0x02 => some s.cfg.bufBits
  | 0x03 => some s.cfg.pendingBits
  | 0x10 => some (encStatus s.enc)
  | 0x11 => some s.enc.lower
  | 0x12 => some s.enc.upper
  | 0x13 => some s.enc.range
  | 0x14 => some s.enc.pending
  | 0x15 => some s.enc.buf
  | 0x16 => some s.enc.fill
  | 0x20 => some (decStatus s.dec)
  | 0x21 => some s.dec.lower
  | 0x22 => some s.dec.upper
  | 0x23 => some s.dec.range
  | 0x24 => some s.dec.window
  | 0x25 => some s.dec.buf
  | 0x26 => some s.dec.left
  | 0x27 => some s.dec.total
  | 0x28 => some s.dec.scaled
  | _ => none

/-- `ProbOK(pl, pu, pt)` (rule R16). -/
abbrev ProbOk (c : Config) (pl pu pt : Nat) : Prop := pl < pu ∧ pu ≤ pt ∧ pt ≤ c.freqMax

/-- The check of DEC.SCALE's operand (rule R134). -/
abbrev TotalOk (c : Config) (total : Nat) : Prop := 1 ≤ total ∧ total ≤ c.freqMax

/-- The check of DEC.NARROW's operands against the latches of the last DEC.SCALE (rule R135). -/
abbrev NarrowOk (c : Config) (d : Dec) (pl pu pt : Nat) : Prop :=
  ProbOk c pl pu pt ∧ pt = d.total ∧ pl ≤ d.scaled ∧ d.scaled < pu

/-- The domain of the FSCALE command (rule R152). -/
abbrev FscaleDomain (c : Config) (v range total : Nat) : Prop :=
  (1 ≤ range ∧ range ≤ c.rangeMax) ∧ (1 ≤ total ∧ total ≤ c.freqMax) ∧ total ≤ range ∧ v < range

end Sys2Proof.Machine
end

