-- ==== Sys2Proof/Machine/Ops.lean ====
section
/-!
DEFINITION. The shared operations: the response that ends every command, the stream fault (this
hardware's one exception) and the two ways out of it, the reset event, the port transactions, and the
sequencing of a unit's primitives.
Spec: `60_exceptions.md` rules R170 to R182, `20_memory.md` rules R56 to R59, `70_reset_and_hazards.md`
rules R190 and R198.
-/

namespace Sys2Proof.Machine

/-- `respond(code, value)` (rules R79 and R170; the 64-bit VALUE is DEDUCED, log entry 11). -/
def State.respond (s : State) (code : Code) (value : Nat) : State :=
  { s with responses := s.responses ++ [{ code := code, value := BitVec.ofNat 64 value }] }

/-- A command that ends with `respond(code, value)` and nothing else. -/
def State.answer (s : State) (code : Code) (value : Nat) : Host.Outcome State Fault Refusal :=
  .next (s.respond code value)

/-- The response code of a stream fault (rules R171 and R174). -/
def StreamFault.toCode : StreamFault → Code
  | .emodel => .emodel
  | .esource => .esource
  | .epending => .epending

/-- `raise Fault(code)` in a rule of ENC (rule R174), with the run's record of it (rule R182). -/
def State.raiseEnc (s : State) (f : StreamFault) : State :=
  State.respond
    { s with
      enc := { s.enc with phase := .fault, cause := some f }
      faults := s.faults ++ [{ unit := .enc, fault := f }] }
    f.toCode 0

/-- `raise Fault(code)` in a rule of DEC (rule R174), with the run's record of it (rule R182). -/
def State.raiseDec (s : State) (f : StreamFault) : State :=
  State.respond
    { s with
      dec := { s.dec with phase := .fault, cause := some f }
      faults := s.faults ++ [{ unit := .dec, fault := f }] }
    f.toCode 0

/-- The reset event: both units' registers take their reset values; the parameters, the ports and the
records of the run stay (rules R36, R37 and R190; what stays is DEDUCED, log entry 6). -/
def State.afterReset (s : State) : State :=
  { s with enc := Enc.reset, dec := Dec.reset }

/-- The effect of an illegal packet: the response EILLEGAL and nothing else (rules R76 and R172). -/
def State.illegalPacket (s : State) : State := s.respond .eillegal 0

/-- ENC's registers as ENC.START leaves them; it is one of the two ways out of FAULT (rules R110, R182
and R198). -/
def Enc.opened (c : Config) : Enc :=
  { phase := .active, cause := none, lower := 0, upper := c.rangeMax, range := c.rangeMax,
    pending := 0, buf := 0, fill := 0 }

/-- DEC's registers as DEC.START leaves them before it fills the window: everything cleared but the
phase, which changes only at the end (rules R130, R182 and R198). -/
def Dec.cleared (c : Config) (d : Dec) : Dec :=
  { phase := d.phase, cause := none, lower := 0, upper := c.rangeMax, range := c.rangeMax, window := 0,
    exhausted := false, buf := 0, left := 0, total := 0, scaled := 0 }

/-- How a primitive of a unit ends: it goes on with a result and the unit's state `σ`, it raises a
stream fault with the unit as it stands there (rule R174: "Nothing is rolled back"), or there is no
step. -/
inductive Run (σ α : Type) where
  | done (a : α) (u : σ)
  | raised (f : StreamFault) (u : σ)
  | stuck (f : Fault)
deriving DecidableEq, Repr

/-- One primitive after another; a fault or a missing step ends the command. -/
def Run.andThen {σ α β : Type} (r : Run σ α) (k : α → σ → Run σ β) : Run σ β :=
  match r with
  | .done a u => k a u
  | .raised f u => .raised f u
  | .stuck f => .stuck f

/-- ENC and the Bit Sink, the part of the state that ENC's primitives reach. -/
structure EncPath where
  reg : Enc
  sink : Sink
deriving DecidableEq, Repr

/-- DEC and the Bit Source, the part of the state that DEC's primitives reach. -/
structure DecPath where
  reg : Dec
  source : Source
deriving DecidableEq, Repr

/-- The part of the state that ENC's primitives reach. -/
def State.encPath (s : State) : EncPath := { reg := s.enc, sink := s.sink }

/-- The part of the state that DEC's primitives reach. -/
def State.decPath (s : State) : DecPath := { reg := s.dec, source := s.source }

/-- The state with ENC's part replaced. -/
def State.withEncPath (s : State) (e : EncPath) : State := { s with enc := e.reg, sink := e.sink }

/-- The state with DEC's part replaced. -/
def State.withDecPath (s : State) (d : DecPath) : State := { s with dec := d.reg, source := d.source }

/-- The end of a command of ENC whose primitives ended as `r` says: OK, a stream fault, or no step. -/
def State.endEnc (s : State) (r : Run EncPath Unit) : Host.Outcome State Fault Refusal :=
  match r with
  | .done _ e => (s.withEncPath e).answer .ok 0
  | .raised f e => .next ((s.withEncPath e).raiseEnc f)
  | .stuck f => .fault f

/-- The end of a command of DEC whose primitives ended as `r` says: OK, a stream fault, or no step. -/
def State.endDec (s : State) (r : Run DecPath Unit) : Host.Outcome State Fault Refusal :=
  match r with
  | .done _ d => (s.withDecPath d).answer .ok 0
  | .raised f d => .next ((s.withDecPath d).raiseDec f)
  | .stuck f => .fault f

/-- `SinkAccept(word, n)`: the Sink's record grows by one entry, or the Sink never accepts (rules R44,
R56 and R57). -/
def sinkAccept (u : BitUnit) (k : Sink) : Option Sink :=
  match k.room with
  | none => some { k with units := k.units ++ [u] }
  | some 0 => none
  | some (n + 1) => some { units := k.units ++ [u], room := some n }

/-- `SourceFill()`: the next reply, consumed, or the Source never replies (rules R57 to R59). -/
def sourceFill (q : Source) : Option (BitUnit × Source) :=
  match q.replies with
  | [] => some ({ word := 0, count := 0 }, { replies := [], fills := q.fills + 1 })
  | .reply w n :: rest => some ({ word := w, count := n }, { replies := rest, fills := q.fills + 1 })
  | .never :: _ => none

/-- The whole buffer goes to the Sink and is cleared (the last three lines of rules R111 and R119). -/
def handOver (n : Nat) (e : EncPath) : Run EncPath Unit :=
  match sinkAccept { word := e.reg.buf, count := n } e.sink with
  | none => .stuck .sinkNeverAccepts
  | some k => .done () { reg := { e.reg with buf := 0, fill := 0 }, sink := k }

end Sys2Proof.Machine
end

