-- ==== Sys2Proof/Machine/FreqScale.lean ====
section
/-!
DEFINITION. The frequency-scale mapper FSC and its command FSCALE.
Spec: `43_fscale.md` rules R150 to R152; the forward variant of rule R156 is not computed anywhere.
-/

namespace Sys2Proof.Machine

/-- `FScale(v, range, total)` (rule R150). -/
def freqScale (v range total : Nat) : Nat := ((v + 1) * total - 1) / range

/-- FSCALE v, range, total (rule R152). It reads the parameters only and changes neither unit. -/
def execFscale (v range total : Nat) (s : State) : Host.Outcome State Fault Refusal :=
  if FscaleDomain s.cfg v range total then s.answer .ok (freqScale v range total)
  else s.answer .edomain 0

end Sys2Proof.Machine
end

