-- ==== Sys2Proof/Machine/Interval.lean ====
section
/-!
DEFINITION. The interval primitives that ENC and DEC share: narrowing, the choice of a
renormalization case, and the case's map of a bound.
Spec: `40_interval.md` rules R100 to R103.
-/

namespace Sys2Proof.Machine

/-- The three renormalization cases (rule R102). -/
inductive RenormCase where
  | e1
  | e2
  | e3
deriving DecidableEq, Repr

/-- `Narrow(lower, range, pl, pu, pt)`, the pair `(nl, nu)`. Both bounds read the old `lower`
(rule R100). -/
def narrow (lower range pl pu pt : Nat) : Nat × Nat :=
  (lower + range * pl / pt, lower + range * pu / pt)

/-- `Classify(lower, upper)`, in the order of priority of rule R102; `none` is STOP. -/
def classify (c : Config) (lower upper : Nat) : Option RenormCase :=
  if upper ≤ c.half then some .e1
  else if c.half ≤ lower then some .e2
  else if c.quarter ≤ lower ∧ upper ≤ c.threeQuarters then some .e3
  else none

/-- The offset a case takes off before it doubles (rules R103 and R136). -/
def caseOffset (c : Config) : RenormCase → Nat
  | .e1 => 0
  | .e2 => c.half
  | .e3 => c.quarter

/-- `Transform`'s map of one bound (rule R103). Where the difference does not exist, which no run
meets, it is 0 (DESIGN CHOICE, log entry 9). -/
def transformBound (c : Config) (k : RenormCase) (bound : Nat) : Nat := 2 * (bound - caseOffset c k)

end Sys2Proof.Machine
end

