-- ==== Sys2Proof/Machine/Decoder.lean ====
section
/-!
DEFINITION. The decoder unit: its primitives and the commands DEC.START, DEC.SCALE and DEC.NARROW.
Spec: `42_decoder.md` rules R130 to R136 and `40_interval.md` rule R107.
-/

namespace Sys2Proof.Machine

/-- A word masked to its top `n` bits (rule R132). -/
def topBits (c : Config) (word n : Nat) : Nat := word - word % 2 ^ (c.bufBits - n)

/-- The last four lines of rule R131: the next unread bit of the buffer, from the top. -/
def takeBufferedBit (c : Config) (d : DecPath) : Run DecPath Bool :=
  .done (d.reg.buf.testBit (c.bufBits - 1))
    { d with reg := { d.reg with
        buf := (d.reg.buf * 2) % 2 ^ c.bufBits
        left := d.reg.left - 1 } }

/-- `NextBit()` (rules R131 to R133); the filler bit is 1. For a word wider than the port see log
entry 15. -/
def nextBit (c : Config) (d : DecPath) : Run DecPath Bool :=
  if d.reg.exhausted = true then .done true d
  else if d.reg.left = 0 then
    match sourceFill d.source with
    | none => .stuck .sourceNeverReplies
    | some (u, q) =>
      if c.bufBits < u.count then .raised .esource { d with source := q }
      else if u.count = 0 then .done true { reg := { d.reg with exhausted := true }, source := q }
      else takeBufferedBit c
        { reg := { d.reg with buf := topBits c u.word u.count, left := u.count }, source := q }
  else takeBufferedBit c d

/-- `DEC.window <- 2 * (DEC.window - off) + NextBit()` (rules R130 and R136). -/
def shiftWindow (c : Config) (off : Nat) (d : DecPath) : Run DecPath Unit :=
  (nextBit c d).andThen fun b d' =>
    .done () { d' with reg := { d'.reg with window := 2 * (d'.reg.window - off) + b.toNat } }

/-- `repeat n times: DEC.window <- 2 * DEC.window + NextBit()` (rule R130). -/
def fillWindow (c : Config) : Nat → DecPath → Run DecPath Unit
  | 0, d => .done () d
  | n + 1, d => (shiftWindow c 0 d).andThen fun _ d' => fillWindow c n d'

/-- The interval moved through a renormalization case (rule R103). -/
def DecPath.transform (c : Config) (k : RenormCase) (d : DecPath) : DecPath :=
  { d with reg := { d.reg with
      lower := transformBound c k d.reg.lower
      upper := transformBound c k d.reg.upper } }

/-- `DecStep(c)`: the bounds first, then the bit (rule R136). -/
def decStep (c : Config) (k : RenormCase) (d : DecPath) : Run DecPath Unit :=
  shiftWindow c (caseOffset c k) (d.transform c k)

/-- The loop of rule R135. `fuel` counts calls of `Classify`; rule R105 shows that `RANGE_BITS + 1` of
them always reach STOP from a legal interval (DESIGN CHOICE, safe, log entry 8). -/
def decRenorm (c : Config) : Nat → DecPath → Run DecPath Unit
  | 0, _ => .stuck .loopDoesNotEnd
  | fuel + 1, d =>
    match classify c d.reg.lower d.reg.upper with
    | none => .done () d
    | some k => (decStep c k d).andThen fun _ d' => decRenorm c fuel d'

/-- `(DEC.lower, DEC.upper) <- Narrow(...)` (rules R100 and R135). -/
def DecPath.narrow (pl pu pt : Nat) (d : DecPath) : DecPath :=
  { d with reg := { d.reg with
      lower := (Sys2Proof.Machine.narrow d.reg.lower d.reg.range pl pu pt).1
      upper := (Sys2Proof.Machine.narrow d.reg.lower d.reg.range pl pu pt).2 } }

/-- `DEC.range <- DEC.upper - DEC.lower`, once, after the loop (rule R107). -/
def DecPath.updateRange (d : DecPath) : DecPath :=
  { d with reg := { d.reg with range := d.reg.upper - d.reg.lower } }

/-- `DEC.phase <- p`. -/
def DecPath.setPhase (p : Phase) (d : DecPath) : DecPath := { d with reg := { d.reg with phase := p } }

/-- DEC.START: everything cleared, the window filled, and the phase changed only at the end
(rule R130). -/
def decOpenStream (c : Config) (d : DecPath) : Run DecPath Unit :=
  (fillWindow c c.rangeBits { d with reg := Dec.cleared c d.reg }).andThen fun _ d' =>
    .done () (d'.setPhase .active)

/-- DEC.NARROW after its checks (rule R135). -/
def decNarrowSymbol (c : Config) (pl pu pt : Nat) (d : DecPath) : Run DecPath Unit :=
  (decRenorm c (c.rangeBits + 1) (d.narrow pl pu pt)).andThen fun _ d' =>
    .done () (d'.updateRange.setPhase .active)

/-- The value DEC.SCALE latches and returns (rule R134). -/
def scaledValue (d : Dec) (total : Nat) : Nat := freqScale (d.window - d.lower) d.range total

/-- DEC's registers after a DEC.SCALE that runs (rule R134). -/
def Dec.latch (d : Dec) (total : Nat) : Dec :=
  { d with total := total, scaled := scaledValue d total, phase := .scaled }

/-- DEC.START (rule R130): accepted in every phase. -/
def execDecStart (s : State) : Host.Outcome State Fault Refusal :=
  s.endDec (decOpenStream s.cfg s.decPath)

/-- DEC.SCALE total (rule R134). -/
def execDecScale (total : Nat) (s : State) : Host.Outcome State Fault Refusal :=
  match openStreamCheck s.dec.phase with
  | some code => s.answer code 0
  | none =>
    if TotalOk s.cfg total then
      State.answer { s with dec := s.dec.latch total } .ok (scaledValue s.dec total)
    else .next (s.raiseDec .emodel)

/-- DEC.NARROW pl, pu, pt (rule R135). -/
def execDecNarrow (pl pu pt : Nat) (s : State) : Host.Outcome State Fault Refusal :=
  match scaledStepCheck s.dec.phase with
  | some code => s.answer code 0
  | none =>
    if NarrowOk s.cfg s.dec pl pu pt then s.endDec (decNarrowSymbol s.cfg pl pu pt s.decPath)
    else .next (s.raiseDec .emodel)

end Sys2Proof.Machine
end

