-- ==== Sys2Proof/Machine/Encoder.lean ====
section
/-!
DEFINITION. The encoder unit: its primitives and the commands ENC.START, ENC.PUT and ENC.FINISH.
Spec: `41_encoder.md` rules R110 to R121 and `40_interval.md` rule R107.
-/

namespace Sys2Proof.Machine

/-- `PutBit(b)` (rules R52 and R111; for states that no run reaches see log entries 9 and 18). -/
def putBit (c : Config) (b : Bool) (e : EncPath) : Run EncPath Unit :=
  let placed : EncPath :=
    { e with reg := { e.reg with
        buf := e.reg.buf + b.toNat * 2 ^ (c.bufBits - 1 - e.reg.fill)
        fill := e.reg.fill + 1 } }
  if placed.reg.fill = c.bufBits then handOver c.bufBits placed else .done () placed

/-- `repeat n times: PutBit(b)` (rule R112). -/
def putCopies (c : Config) (b : Bool) : Nat → EncPath → Run EncPath Unit
  | 0, e => .done () e
  | n + 1, e => (putBit c b e).andThen fun _ e' => putCopies c b n e'

/-- `ENC.pending <- p`. -/
def EncPath.setPending (e : EncPath) (p : Nat) : EncPath := { e with reg := { e.reg with pending := p } }

/-- The interval moved through a renormalization case (rule R103). -/
def EncPath.transform (c : Config) (k : RenormCase) (e : EncPath) : EncPath :=
  { e with reg := { e.reg with
      lower := transformBound c k e.reg.lower
      upper := transformBound c k e.reg.upper } }

/-- `EmitWithPending(b)` (rule R112). -/
def emitWithPending (c : Config) (b : Bool) (e : EncPath) : Run EncPath Unit :=
  (putBit c b e).andThen fun _ e' =>
    (putCopies c (!b) e.reg.pending e').andThen fun _ e'' => .done () (e''.setPending 0)

/-- One more deferred bit, or EPENDING where the counter is full (rules R116 and R118). -/
def deferBit (c : Config) (e : EncPath) : Run EncPath Unit :=
  if e.reg.pending = c.pendingMax then .raised .epending e
  else .done () (e.setPending (e.reg.pending + 1))

/-- `EncE1()` (rule R114). -/
def encE1 (c : Config) (e : EncPath) : Run EncPath Unit :=
  (emitWithPending c false e).andThen fun _ e' => .done () (e'.transform c .e1)

/-- `EncE2()` (rule R115). -/
def encE2 (c : Config) (e : EncPath) : Run EncPath Unit :=
  (emitWithPending c true e).andThen fun _ e' => .done () (e'.transform c .e2)

/-- `EncE3()` (rule R116). -/
def encE3 (c : Config) (e : EncPath) : Run EncPath Unit :=
  (deferBit c e).andThen fun _ e' => .done () (e'.transform c .e3)

/-- One iteration of the loop of rule R113. -/
def encStep (c : Config) (k : RenormCase) (e : EncPath) : Run EncPath Unit :=
  match k with
  | .e1 => encE1 c e
  | .e2 => encE2 c e
  | .e3 => encE3 c e

/-- The loop of rule R113. `fuel` counts calls of `Classify`; rule R105 shows that `RANGE_BITS + 1` of
them always reach STOP from a legal interval (DESIGN CHOICE, safe, log entry 8). -/
def encRenorm (c : Config) : Nat → EncPath → Run EncPath Unit
  | 0, _ => .stuck .loopDoesNotEnd
  | fuel + 1, e =>
    match classify c e.reg.lower e.reg.upper with
    | none => .done () e
    | some k => (encStep c k e).andThen fun _ e' => encRenorm c fuel e'

/-- `(ENC.lower, ENC.upper) <- Narrow(...)` (rules R100 and R113). -/
def EncPath.narrow (pl pu pt : Nat) (e : EncPath) : EncPath :=
  { e with reg := { e.reg with
      lower := (Sys2Proof.Machine.narrow e.reg.lower e.reg.range pl pu pt).1
      upper := (Sys2Proof.Machine.narrow e.reg.lower e.reg.range pl pu pt).2 } }

/-- `ENC.range <- ENC.upper - ENC.lower`, once, after the loop (rule R107). -/
def EncPath.updateRange (e : EncPath) : EncPath :=
  { e with reg := { e.reg with range := e.reg.upper - e.reg.lower } }

/-- ENC.PUT after its checks (rule R113). -/
def encPutSymbol (c : Config) (pl pu pt : Nat) (e : EncPath) : Run EncPath Unit :=
  (encRenorm c (c.rangeBits + 1) (e.narrow pl pu pt)).andThen fun _ e' => .done () e'.updateRange

/-- The bits that pin the final interval, the three cases of rule R118. -/
def encFinalBits (c : Config) (e : EncPath) : Run EncPath Unit :=
  if e.reg.lower = 0 ∧ e.reg.pending = 0 then
    if e.reg.upper ≠ c.rangeMax then emitWithPending c false e else .done () e
  else if e.reg.upper = c.rangeMax ∧ e.reg.pending = 0 then
    if e.reg.lower ≠ 0 then emitWithPending c true e else .done () e
  else if e.reg.lower ≠ 0 ∧ e.reg.upper ≠ c.rangeMax then
    (deferBit c e).andThen fun _ e' => emitWithPending c (decide (c.quarter ≤ e'.reg.lower)) e'
  else emitWithPending c (decide (c.quarter ≤ e.reg.lower)) e

/-- `Flush()` (rule R119; what the Sink may read of the short unit: log entry 17). -/
def encFlush (e : EncPath) : Run EncPath Unit :=
  if 0 < e.reg.fill then handOver e.reg.fill e else .done () e

/-- `ENC.phase <- IDLE`. -/
def EncPath.close (e : EncPath) : EncPath := { e with reg := { e.reg with phase := .idle } }

/-- ENC.FINISH after its checks (rule R118). -/
def encFinishStream (c : Config) (e : EncPath) : Run EncPath Unit :=
  (encFinalBits c e).andThen fun _ e' => (encFlush e').andThen fun _ e'' => .done () e''.close

/-- ENC.START (rule R110): accepted in every phase. -/
def execEncStart (s : State) : Host.Outcome State Fault Refusal :=
  State.answer { s with enc := Enc.opened s.cfg } .ok 0

/-- ENC.PUT pl, pu, pt (rule R113). -/
def execEncPut (pl pu pt : Nat) (s : State) : Host.Outcome State Fault Refusal :=
  match openStreamCheck s.enc.phase with
  | some code => s.answer code 0
  | none =>
    if ProbOk s.cfg pl pu pt then s.endEnc (encPutSymbol s.cfg pl pu pt s.encPath)
    else .next (s.raiseEnc .emodel)

/-- ENC.FINISH (rule R118). -/
def execEncFinish (s : State) : Host.Outcome State Fault Refusal :=
  match openStreamCheck s.enc.phase with
  | some code => s.answer code 0
  | none => s.endEnc (encFinishStream s.cfg s.encPath)

end Sys2Proof.Machine
end

