-- ==== Sys2Proof/Machine/System.lean ====
section
/-!
DEFINITION. The block commands NOP and RDREG.
Spec: `44_system.md` rules R160 and R161.
-/

namespace Sys2Proof.Machine

/-- NOP (rule R160). -/
def execNop (s : State) : Host.Outcome State Fault Refusal := s.answer .ok 0

/-- RDREG n (rule R161). -/
def execRdreg (n : Nat) (s : State) : Host.Outcome State Fault Refusal :=
  match csr s n with
  | none => s.answer .ebadreg 0
  | some value => s.answer .ok value

end Sys2Proof.Machine
end

