-- ==== Sys2Proof/Machine/Dispatch.lean ====
section
/-!
DEFINITION. One arm per command (`30_encoding.md` rule R75).
-/

namespace Sys2Proof.Machine

def exec (i : Instr) (s : State) : Host.Outcome State Fault Refusal :=
  match i with
  | .nop => Sys2Proof.Machine.execNop s
  | .rdreg n => Sys2Proof.Machine.execRdreg n s
  | .encStart => Sys2Proof.Machine.execEncStart s
  | .encPut pl pu pt => Sys2Proof.Machine.execEncPut pl pu pt s
  | .encFinish => Sys2Proof.Machine.execEncFinish s
  | .decStart => Sys2Proof.Machine.execDecStart s
  | .decScale total => Sys2Proof.Machine.execDecScale total s
  | .decNarrow pl pu pt => Sys2Proof.Machine.execDecNarrow pl pu pt s
  | .fscale v range total => Sys2Proof.Machine.execFscale v range total s

end Sys2Proof.Machine
end

