-- ==== Sys2Proof/Machine/Step.lean ====
section
/-!
DEFINITION. One step of the block: the host's next event.
Spec: `10_state.md` rule R20 (there is no fetch; the host supplies each packet), `20_memory.md` rules
R63 and R65, `30_encoding.md` rule R76, `60_exceptions.md` rules R181 and R186, `70_reset_and_hazards.md`
rule R190.
-/

namespace Sys2Proof.Machine

/-- The block takes the host's next event, whole. A packet is decoded and its command run; an illegal
one is answered EILLEGAL; a reset is taken between commands, never inside one (log entry 12); with
nothing issued the block holds its state (rule R186; DESIGN CHOICE, safe, log entry 7). -/
def step (s : State) : Host.Outcome State Fault Refusal :=
  match s.inbox with
  | [] => .next s
  | .reset :: rest => .next (State.afterReset { s with inbox := rest })
  | .command p :: rest =>
    match decode p with
    | .ok i => exec i { s with inbox := rest }
    | .error _ => .next (State.illegalPacket { s with inbox := rest })

/-- The host issues one packet, ahead of whatever else it holds: `w` numbered as
`spec/opcode_table.json` numbers the 256-bit packet, the bits above `nbits` being 0. A program comes
to run in no other way: its packets are issued from outside the machine (log entry 3). -/
def State.withFetchWord (s : State) (nbits w : Nat) : State :=
  { s with inbox := .command (BitVec.ofNat 256 (w % 2 ^ nbits)) :: s.inbox }

end Sys2Proof.Machine
end

