-- ==== Sys2Proof/Machine/Assembly.lean ====
section
/-!
DEFINITION. The assembler: one line of text to a command, or the line is rejected.
Spec: `30_encoding.md` rules R74, R75 and R80, `10_state.md` rule R40. What rule R80 does not say of
spaces, of the case of letters and of empty lines is a DESIGN CHOICE (log entry 19).
-/

namespace Sys2Proof.Machine

/-- A space or a tab. -/
def isBlank (c : Char) : Bool := c == ' ' || c == '\t'

/-- The text without the blanks around it. -/
def trimBlanks (text : List Char) : List Char :=
  ((text.dropWhile isBlank).reverse.dropWhile isBlank).reverse

/-- The line up to its comment: `;` starts a comment that runs to the end of the line (rule R80). -/
def stripComment (line : List Char) : List Char := line.takeWhile (· != ';')

/-- The parts of a text between its commas. -/
def splitAtCommas : List Char → List (List Char)
  | [] => [[]]
  | c :: rest =>
    if c = ',' then [] :: splitAtCommas rest
    else
      match splitAtCommas rest with
      | [] => [[c]]
      | part :: parts => (c :: part) :: parts

/-- A digit's value, if it is a digit in the base: `0` to `9`, then `a` to `f` in either case. -/
def digitValue (base : Nat) (c : Char) : Option Nat :=
  let v :=
    if '0' ≤ c ∧ c ≤ '9' then c.toNat - '0'.toNat
    else if 'a' ≤ c ∧ c ≤ 'f' then c.toNat - 'a'.toNat + 10
    else if 'A' ≤ c ∧ c ≤ 'F' then c.toNat - 'A'.toNat + 10
    else base
  if v < base then some v else none

/-- The digits after those that made `value`. -/
def readDigits (base : Nat) : Nat → List Char → Option Nat
  | value, [] => some value
  | value, c :: rest => (digitValue base c).bind fun d => readDigits base (base * value + d) rest

/-- A number: decimal, or hexadecimal with `0x` (rule R80). -/
def readNumber (text : List Char) : Option Nat :=
  match text with
  | [] => none
  | '0' :: 'x' :: digits => if digits = [] then none else readDigits 16 0 digits
  | digits => readDigits 10 0 digits

/-- The names and numbers of the registers (rule R40). -/
def registerNames : List (List Char × Nat) :=
  [("CFG_RANGE_BITS".toList, 0x00), ("CFG_FREQ_BITS".toList, 0x01), ("CFG_BUF_BITS".toList, 0x02),
    ("CFG_PENDING_BITS".toList, 0x03), ("ENC_STATUS".toList, 0x10), ("ENC_LOWER".toList, 0x11),
    ("ENC_UPPER".toList, 0x12), ("ENC_RANGE".toList, 0x13), ("ENC_PENDING".toList, 0x14),
    ("ENC_BUF".toList, 0x15), ("ENC_FILL".toList, 0x16)] ++
  [("DEC_STATUS".toList, 0x20), ("DEC_LOWER".toList, 0x21), ("DEC_UPPER".toList, 0x22),
    ("DEC_RANGE".toList, 0x23), ("DEC_WINDOW".toList, 0x24), ("DEC_BUF".toList, 0x25),
    ("DEC_LEFT".toList, 0x26), ("DEC_TOTAL".toList, 0x27), ("DEC_SCALED".toList, 0x28)]

/-- RDREG's operand: a register's name, or a number (rule R80). -/
def readRegister (text : List Char) : Option Nat :=
  match registerNames.lookup text with
  | some n => some n
  | none => readNumber text

/-- The parts of the operand field, none where it is empty. -/
def operandTexts (field : List Char) : List (List Char) :=
  if trimBlanks field = [] then [] else (splitAtCommas field).map trimBlanks

/-- The command that a mnemonic and its operands name (rules R74, R75 and R80). -/
def commandOfText (mnemonic : List Char) (operands : List (List Char)) : Option Instr :=
  match operands with
  | [] =>
    if mnemonic = "NOP".toList then some .nop
    else if mnemonic = "ENC.START".toList then some .encStart
    else if mnemonic = "ENC.FINISH".toList then some .encFinish
    else if mnemonic = "DEC.START".toList then some .decStart
    else none
  | [x] =>
    if mnemonic = "RDREG".toList then (readRegister x).map .rdreg
    else if mnemonic = "DEC.SCALE".toList then (readNumber x).map .decScale
    else none
  | [x, y, z] =>
    (readNumber x).bind fun a => (readNumber y).bind fun b => (readNumber z).bind fun c =>
      if mnemonic = "ENC.PUT".toList then some (.encPut a b c)
      else if mnemonic = "DEC.NARROW".toList then some (.decNarrow a b c)
      else if mnemonic = "FSCALE".toList then some (.fscale a b c)
      else none
  | _ => none

/-- One line of assembly; an operand that does not fit in 64 bits rejects it (rule R80). -/
def assembleLine (line : List Char) : Option Instr :=
  let text := trimBlanks (stripComment line)
  let mnemonic := text.takeWhile fun c => !isBlank c
  (commandOfText mnemonic (operandTexts (text.drop mnemonic.length))).filter Instr.wellFormed

/-- A program: its lines in order, without those that hold no command; one rejected line rejects it. -/
def assembleProgram (lines : List (List Char)) : Option (List Instr) :=
  (lines.filter fun line => decide (trimBlanks (stripComment line) ≠ [])).mapM assembleLine

end Sys2Proof.Machine
end

