-- ==== Sys2Proof/Safety.lean ====
section
/-!
DEFINITION. The terms that claims use: the invariants of the spec, the two bit streams, what the
environment must do, and the list-level references of the encoder and the decoder.
Spec: `10_state.md` rules R22, R23, R32 to R34 and R44, `20_memory.md` rules R51 to R64, `41_encoder.md`
rules R112 to R121, `42_decoder.md` rules R130 to R140, `60_exceptions.md` rule R182.
-/

namespace Sys2Proof.Machine

/-! ### Invariants -/

/-- The interval facts of rule R32. -/
abbrev IntervalOk (c : Config) (lower upper range : Nat) : Prop :=
  lower < c.half ∧ c.half < upper ∧ upper ≤ c.rangeMax ∧
  range = upper - lower ∧ c.quarter < range ∧
  (lower < c.quarter ∨ c.threeQuarters < upper)

/-- A buffer of `BUF_BITS` bits whose bits below the top `n` are 0 (rules R32 and R33). -/
abbrev BufferOk (c : Config) (buf n : Nat) : Prop :=
  buf < 2 ^ c.bufBits ∧ buf % 2 ^ (c.bufBits - n) = 0

/-- Every register of ENC fits its width (rules R22 to R26), and `fill` never rests at `BUF_BITS`. -/
abbrev Enc.Widths (c : Config) (e : Enc) : Prop :=
  e.lower ≤ c.rangeMax ∧ e.upper ≤ c.rangeMax ∧ e.range ≤ c.rangeMax ∧
  e.pending ≤ c.pendingMax ∧ e.fill < c.bufBits ∧ BufferOk c e.buf e.fill

/-- What holds of ENC between commands (rules R22, R23, R32 and R34). -/
abbrev Enc.Inv (c : Config) (e : Enc) : Prop :=
  e.Widths c ∧
  e.phase ≠ .scaled ∧ e.cause ≠ some .esource ∧ (e.phase = .fault ↔ e.cause ≠ none) ∧
  (e.phase = .active → IntervalOk c e.lower e.upper e.range) ∧
  (e.phase = .idle → e.pending = 0 ∧ e.fill = 0 ∧ e.buf = 0)

/-- Every register of DEC fits its width (rules R22, R23 and R27 to R31). -/
abbrev Dec.Widths (c : Config) (d : Dec) : Prop :=
  d.lower ≤ c.rangeMax ∧ d.upper ≤ c.rangeMax ∧ d.range ≤ c.rangeMax ∧ d.window < c.rangeMax ∧
  d.left ≤ c.bufBits ∧ BufferOk c d.buf d.left ∧ (d.exhausted = true → d.left = 0) ∧
  d.total ≤ c.freqMax ∧ d.scaled ≤ c.freqMax

/-- A stream is open in DEC. -/
abbrev Dec.Open (d : Dec) : Prop := d.phase = .active ∨ d.phase = .scaled

/-- What holds of DEC between commands (rules R23, R33 and R137). That `scaled` is the value FSC gives
for the present window is what rule R137's proof uses at DEC.NARROW. -/
abbrev Dec.Inv (c : Config) (d : Dec) : Prop :=
  d.Widths c ∧
  d.cause ≠ some .epending ∧ (d.phase = .fault ↔ d.cause ≠ none) ∧
  (d.Open → IntervalOk c d.lower d.upper d.range ∧ d.lower ≤ d.window ∧ d.window < d.upper) ∧
  (d.phase = .scaled → 1 ≤ d.total ∧ d.scaled < d.total ∧ d.scaled = scaledValue d d.total)

/-- A unit in the Sink's record: 1 to `BUF_BITS` valid bits at the top, 0 below (rules R52 and R56). -/
abbrev BitUnit.Sent (c : Config) (u : BitUnit) : Prop :=
  1 ≤ u.count ∧ u.count ≤ c.bufBits ∧ BufferOk c u.word u.count

/-- The Source's word is as wide as its port; its count is any natural (rules R44 and R58). -/
def SourceReply.fitsPort (c : Config) : SourceReply → Bool
  | .reply w _ => decide (w < 2 ^ c.bufBits)
  | .never => true

/-- A response other than OK carries the value 0 (rule R79). -/
abbrev Response.Ok (r : Response) : Prop := r.code ≠ .ok → r.value = 0

/-- A unit raises its own stream faults only (rule R171). -/
def FaultRecord.possible : FaultRecord → Bool
  | ⟨.enc, .esource⟩ => false
  | ⟨.dec, .epending⟩ => false
  | _ => true

/-- The fault that a cause register names is in the run's record (rule R182). -/
def causeRecorded (faults : List FaultRecord) (u : UnitName) : Option StreamFault → Bool
  | none => true
  | some f => decide (⟨u, f⟩ ∈ faults)

/-- What holds of the whole block between commands. -/
structure State.Inv (s : State) : Prop where
  enc : s.enc.Inv s.cfg
  dec : s.dec.Inv s.cfg
  sink : ∀ u ∈ s.sink.units, u.Sent s.cfg
  source : ∀ r ∈ s.source.replies, r.fitsPort s.cfg = true
  responses : ∀ r ∈ s.responses, r.Ok
  faults : ∀ r ∈ s.faults, r.possible = true
  encRecorded : causeRecorded s.faults .enc s.enc.cause = true
  decRecorded : causeRecorded s.faults .dec s.dec.cause = true

/-! ### The environment -/

/-- The Sink accepts every unit (rule R202's premise). -/
abbrev Sink.Accepts (k : Sink) : Prop := k.room = none

/-- The Source completes every transaction (rule R202's premise). -/
abbrev Source.Answers (q : Source) : Prop := SourceReply.never ∉ q.replies

/-- The Source answers this call and keeps its contract in doing so (rule R58). -/
def SourceReply.keepsContract (c : Config) : SourceReply → Bool
  | .reply _ n => decide (n ≤ c.bufBits)
  | .never => false

/-- The Source completes every transaction and keeps its contract (rule R58). -/
abbrev Source.KeepsContract (c : Config) (q : Source) : Prop :=
  ∀ r ∈ q.replies, r.keepsContract c = true

/-- No stream fault has happened in the run (rule R182: a claim reads the record, not the phase). -/
abbrev State.NoFault (s : State) : Prop := s.faults = []

/-! ### Assembly -/

/-- Three operands, separated by commas, in decimal (rule R80 of `30_encoding.md`). -/
def operandListText (a b c : Nat) : List Char :=
  Nat.toDigits 10 a ++ ", ".toList ++ Nat.toDigits 10 b ++ ", ".toList ++ Nat.toDigits 10 c

/-- A command's mnemonic and operands as a line of assembly (rule R80 of `30_encoding.md`). -/
def assemblyText : Instr → List Char
  | .nop => "NOP".toList
  | .rdreg n => "RDREG ".toList ++ Nat.toDigits 10 n
  | .encStart => "ENC.START".toList
  | .encPut pl pu pt => "ENC.PUT ".toList ++ operandListText pl pu pt
  | .encFinish => "ENC.FINISH".toList
  | .decStart => "DEC.START".toList
  | .decScale total => "DEC.SCALE ".toList ++ Nat.toDigits 10 total
  | .decNarrow pl pu pt => "DEC.NARROW ".toList ++ operandListText pl pu pt
  | .fscale v range total => "FSCALE ".toList ++ operandListText v range total

/-! ### Bit streams -/

/-- The top `n` bits of a word, the most significant first (rules R51 and R53). -/
def topBitList (c : Config) (word n : Nat) : List Bool :=
  (List.range n).map fun k => word.testBit (c.bufBits - 1 - k)

/-- The valid bits of a unit in stream order. -/
def BitUnit.bits (c : Config) (u : BitUnit) : List Bool := topBitList c u.word u.count

/-- The output bit stream of a Sink record (rule R51). -/
def outputBits (c : Config) (units : List BitUnit) : List Bool := units.flatMap (BitUnit.bits c)

/-- Every bit ENC has written: those the Sink has, then those still in the buffer (rules R43 and R120). -/
def EncPath.written (c : Config) (e : EncPath) : List Bool :=
  outputBits c e.sink.units ++ topBitList c e.reg.buf e.reg.fill

/-- The input bit stream of the replies to come (rule R53): the valid bits of each unit whose count is 1 to
`BUF_BITS`, in order. It ends where no further unit is returned in the stream: at exhaustion (rule R58),
at a count above `BUF_BITS`, which freezes DEC (rule R176), and at a call that never completes
(rule R57). -/
def inputBits (c : Config) : List SourceReply → List Bool
  | [] => []
  | .never :: _ => []
  | .reply w n :: rest =>
    if 1 ≤ n ∧ n ≤ c.bufBits then topBitList c w n ++ inputBits c rest else []

/-- The bits DEC has still to read before filler begins: those in its buffer, then the Source's
(rules R43 and R131). -/
def DecPath.unread (c : Config) (d : DecPath) : List Bool :=
  if d.reg.exhausted = true then []
  else topBitList c d.reg.buf d.reg.left ++ inputBits c d.source.replies

/-- The number whose bits are given, the most significant first. -/
def bitsValue (bits : List Bool) : Nat := bits.foldl (fun v b => 2 * v + b.toNat) 0

/-- The first `n` bits of an input stream that is followed by filler bits, which are 1 (rule R133). -/
def paddedTake (n : Nat) (bits : List Bool) : List Bool :=
  bits.take n ++ List.replicate (n - bits.length) true

/-! ### References on lists of bits -/

/-- Bit `b` and `p` copies of its complement (rule R112). -/
def resolvedBits (b : Bool) (p : Nat) : List Bool := b :: List.replicate p (!b)

/-- ENC's interval and counter, with the bits written since the command began. -/
structure EncTrace where
  lower : Nat
  upper : Nat
  pending : Nat
  bits : List Bool
deriving DecidableEq, Repr

/-- The loop of rule R113 on a list of bits: what it ends with, or none where a bit could not be
deferred (rule R116). `fuel` bounds the iterations as in `encRenorm`. -/
def refRenorm (c : Config) : Nat → EncTrace → Option EncTrace
  | 0, _ => none
  | fuel + 1, t =>
    if t.upper ≤ c.half then
      refRenorm c fuel ⟨2 * t.lower, 2 * t.upper, 0, t.bits ++ resolvedBits false t.pending⟩
    else if c.half ≤ t.lower then
      refRenorm c fuel
        ⟨2 * (t.lower - c.half), 2 * (t.upper - c.half), 0, t.bits ++ resolvedBits true t.pending⟩
    else if c.quarter ≤ t.lower ∧ t.upper ≤ c.threeQuarters then
      if t.pending = c.pendingMax then none
      else refRenorm c fuel
        ⟨2 * (t.lower - c.quarter), 2 * (t.upper - c.quarter), t.pending + 1, t.bits⟩
    else some t

/-- What ENC.PUT makes of ENC's interval and counter, and the bits it writes (rules R100 and R113). -/
def refPut (c : Config) (e : Enc) (pl pu pt : Nat) : Option EncTrace :=
  refRenorm c (c.rangeBits + 1)
    ⟨e.lower + e.range * pl / pt, e.lower + e.range * pu / pt, e.pending, []⟩

/-- The bits ENC.FINISH writes, the table of rule R121. -/
def refFinalBits (c : Config) (e : Enc) : List Bool :=
  if e.lower = 0 then
    if e.pending = 0 then (if e.upper = c.rangeMax then [] else [false])
    else resolvedBits false e.pending
  else if e.upper = c.rangeMax then
    if e.pending = 0 then [true]
    else resolvedBits (decide (c.quarter ≤ e.lower)) e.pending
  else resolvedBits (decide (c.quarter ≤ e.lower)) (e.pending + 1)

/-- ENC.FINISH needs one more deferred bit than the counter holds (rules R118 and R177). -/
abbrev FinishOverflows (c : Config) (e : Enc) : Prop :=
  e.lower ≠ 0 ∧ e.upper ≠ c.rangeMax ∧ e.pending = c.pendingMax

/-- DEC's interval and window, with the input bits that are left. -/
structure DecTrace where
  lower : Nat
  upper : Nat
  window : Nat
  unread : List Bool
deriving DecidableEq, Repr

/-- The loop of rule R135 on a list of bits, by the table of rule R136; a bit past the end is the
filler bit 1. -/
def refDecode (c : Config) : Nat → DecTrace → Option DecTrace
  | 0, _ => none
  | fuel + 1, t =>
    if t.upper ≤ c.half then
      refDecode c fuel
        ⟨2 * t.lower, 2 * t.upper, 2 * t.window + (t.unread.headD true).toNat, t.unread.tail⟩
    else if c.half ≤ t.lower then
      refDecode c fuel
        ⟨2 * (t.lower - c.half), 2 * (t.upper - c.half),
          2 * (t.window - c.half) + (t.unread.headD true).toNat, t.unread.tail⟩
    else if c.quarter ≤ t.lower ∧ t.upper ≤ c.threeQuarters then
      refDecode c fuel
        ⟨2 * (t.lower - c.quarter), 2 * (t.upper - c.quarter),
          2 * (t.window - c.quarter) + (t.unread.headD true).toNat, t.unread.tail⟩
    else some t

/-- What DEC.NARROW makes of DEC's interval and window, and the input bits it leaves (rules R100 and
R135). -/
def refNarrow (c : Config) (d : DecPath) (pl pu pt : Nat) : Option DecTrace :=
  refDecode c (c.rangeBits + 1)
    ⟨d.reg.lower + d.reg.range * pl / pt, d.reg.lower + d.reg.range * pu / pt, d.reg.window, d.unread c⟩

/-! ### Encoding and decoding a sequence of symbols under a fixed table -/

/-- A probability interval (rule R16). -/
structure Prob where
  pl : Nat
  pu : Nat
  pt : Nat
deriving DecidableEq, Repr

/-- The symbols of a fixed table take the intervals from `start` to `total`, one after the other, each
satisfying the model invariant (rules R16, R61 and R140). -/
def tableFrom (c : Config) (total start : Nat) : List Prob → Bool
  | [] => decide (start = total)
  | p :: rest =>
    decide (p.pl = start ∧ p.pt = total ∧ ProbOk c p.pl p.pu p.pt) && tableFrom c total p.pu rest

/-- The model's `symbolFor(scaled, total)` for a fixed table: the first symbol whose interval contains
the value (rule R62). -/
def symbolFor (table : List Prob) (scaled : Nat) : Option Nat :=
  table.findIdx? fun p => decide (p.pl ≤ scaled ∧ scaled < p.pu)

/-- The state after a command that answers OK; none where it ends in any other way. -/
def runOk (i : Instr) (s : State) : Option State :=
  match exec i s with
  | .next t => if (t.responses.getLast?).map Response.code = some Code.ok then some t else none
  | .fault _ => none
  | .refused _ => none

/-- ENC.PUT for each symbol, every one answered OK. -/
def putSymbols (table : List Prob) : List Nat → State → Option State
  | [], s => some s
  | x :: rest, s =>
    match table[x]? with
    | none => none
    | some p => (runOk (.encPut p.pl p.pu p.pt) s).bind (putSymbols table rest)

/-- ENC.START, one ENC.PUT per symbol and ENC.FINISH, every one answered OK (rule R140). -/
def encodeSymbols (table : List Prob) (symbols : List Nat) (s : State) : Option State :=
  ((runOk .encStart s).bind (putSymbols table symbols)).bind (runOk .encFinish)

/-- `n` decode steps: DEC.SCALE with the table's total, the model's look-up of the response's VALUE,
DEC.NARROW with the symbol's interval. The answer is the symbols found (rules R6, R62 and R140). -/
def getSymbols (table : List Prob) (total : Nat) : Nat → State → Option (List Nat)
  | 0, _ => some []
  | n + 1, s =>
    (runOk (.decScale total) s).bind fun t =>
      ((t.responses.getLast?).bind fun r => symbolFor table r.value.toNat).bind fun x =>
        (table[x]?).bind fun p =>
          (runOk (.decNarrow p.pl p.pu p.pt) t).bind fun u =>
            (getSymbols table total n u).map (x :: ·)

/-- DEC.START and then `n` decode steps (rule R140). -/
def decodeSymbols (table : List Prob) (total n : Nat) (s : State) : Option (List Nat) :=
  (runOk .decStart s).bind (getSymbols table total n)

/-- A sequence of commands, one after the other (rule R65). -/
def runCommands : List Instr → State → Host.Outcome State Fault Refusal
  | [], s => .next s
  | i :: rest, s =>
    match exec i s with
    | .next t => runCommands rest t
    | .fault f => .fault f
    | .refused r => .refused r

/-- The transport duty (rule R64): the Source delivers the encoded bits, cut into units in any way,
then any number of 1 bits, and then reports exhaustion. -/
def TransportDelivers (c : Config) (units : List BitUnit) (q : Source) : Prop :=
  q.KeepsContract c ∧ ∃ k, inputBits c q.replies = outputBits c units ++ List.replicate k true

end Sys2Proof.Machine
end

