-- ==== Sys2Proof/Certificates/Slice0/Obligations.lean ====
section
/-!
DEFINITION. The statements for the provers. Each says which rules of the spec it states. They hold for
every legal parameter set, since a state carries its own. A result is stated by the next state it gives,
so it is also the frame: what is not named there is unchanged.
-/

open Sys2Proof Sys2Proof.Machine

/-! ### Parameters and packets -/

/-- Rule R10: exactly the parameter sets within rule R8's ranges can be elaborated, and with the values
they were given. -/
def Obligations.IllegalParametersAreRefused : Prop :=
  ∀ rb fb bb pb : Nat,
    ((∃ c, Config.elaborate rb fb bb pb = some c) ↔
      1 ≤ fb ∧ fb + 2 ≤ rb ∧ rb ≤ 62 ∧ 1 ≤ bb ∧ bb ≤ 64 ∧ 1 ≤ pb ∧ pb ≤ 64) ∧
    ∀ c, Config.elaborate rb fb bb pb = some c →
      c.rangeBits = rb ∧ c.freqBits = fb ∧ c.bufBits = bb ∧ c.pendingBits = pb

/-- Rule R82: the nine encoding examples, their assembly, packet and command, each from the others. -/
def Obligations.EncodingExamplesDecodeAndEncode : Prop :=
  ∀ x ∈ ([
      ("NOP", 0x0000000000000000000000000000000000000000000000000000000000000000#256, .nop),
      ("RDREG ENC_LOWER",
        0x0000000000000000000000000000000000000000000000110000000000000001#256, .rdreg 0x11),
      ("ENC.START", 0x0000000000000000000000000000000000000000000000000000000000000010#256, .encStart),
      ("ENC.PUT 2, 4, 4",
        0x0000000000000004000000000000000400000000000000020000000000000011#256, .encPut 2 4 4),
      ("ENC.FINISH", 0x0000000000000000000000000000000000000000000000000000000000000012#256, .encFinish),
      ("DEC.START", 0x0000000000000000000000000000000000000000000000000000000000000020#256, .decStart),
      ("DEC.SCALE 64",
        0x0000000000000000000000000000000000000000000000400000000000000021#256, .decScale 64),
      ("DEC.NARROW 8, 64, 64",
        0x0000000000000040000000000000004000000000000000080000000000000022#256, .decNarrow 8 64 64),
      ("FSCALE 100, 40000, 7",
        0x00000000000000070000000000009C4000000000000000640000000000000030#256, .fscale 100 40000 7)
    ] : List (String × Packet × Instr)),
    assembleLine x.1.toList = some x.2.2 ∧ encode x.2.2 = x.2.1 ∧ decode x.2.1 = .ok x.2.2

/-- Rule R80: the line written for a command assembles to it exactly where its operands fit in 64 bits; a
comment changes nothing; a number may be hexadecimal; a register may be named. What is assembled is well
formed. How blanks are read is the model's choice: log entry 19. -/
def Obligations.AssemblyFollowsItsSyntax : Prop :=
  (∀ i : Instr, assembleLine (assemblyText i) = if i.wellFormed = true then some i else none) ∧
  (∀ line comment : List Char, assembleLine (line ++ ';' :: comment) = assembleLine line) ∧
  (∀ n : Nat, readNumber ('0' :: 'x' :: Nat.toDigits 16 n) = some n) ∧
  (∀ (s : State) (name : List Char) (n : Nat), (name, n) ∈ registerNames →
    assembleLine ("RDREG ".toList ++ name) = some (.rdreg n) ∧ csr s n ≠ none) ∧
  (∀ (line : List Char) (i : Instr), assembleLine line = some i → i.wellFormed = true)

/-- Rules R76 and R77: every packet is decoded by its fields, RSV first; a reserved one is answered
EILLEGAL, with no other effect. -/
def Obligations.EveryPacketIsDecodedByItsFields : Prop :=
  ∀ (s : State) (p : Packet) (rest : List HostEvent), s.inbox = .command p :: rest →
    let t : State := { s with inbox := rest }
    let illegal : State := { t with responses := t.responses ++ [⟨.eillegal, 0⟩] }
    let op := p.toNat % 2 ^ 8
    let rsv := p.toNat / 2 ^ 8 % 2 ^ 56
    let a := p.toNat / 2 ^ 64 % 2 ^ 64
    let b := p.toNat / 2 ^ 128 % 2 ^ 64
    let c := p.toNat / 2 ^ 192
    step s =
      if rsv ≠ 0 then .next illegal
      else if op = 0x00 then exec .nop t
      else if op = 0x01 then exec (.rdreg a) t
      else if op = 0x10 then exec .encStart t
      else if op = 0x11 then exec (.encPut a b c) t
      else if op = 0x12 then exec .encFinish t
      else if op = 0x20 then exec .decStart t
      else if op = 0x21 then exec (.decScale a) t
      else if op = 0x22 then exec (.decNarrow a b c) t
      else if op = 0x30 then exec (.fscale a b c) t
      else .next illegal

/-- Rule R74, with the word order of rule R71: each command reads the operands its row lists and ignores
the others whatever their value. -/
def Obligations.CommandsReadTheirOperandsOnly : Prop :=
  ∀ a b c : Word,
    decode (packetOfWords 0x00#64 a b c) = .ok .nop ∧
    decode (packetOfWords 0x01#64 a b c) = .ok (.rdreg a.toNat) ∧
    decode (packetOfWords 0x10#64 a b c) = .ok .encStart ∧
    decode (packetOfWords 0x11#64 a b c) = .ok (.encPut a.toNat b.toNat c.toNat) ∧
    decode (packetOfWords 0x12#64 a b c) = .ok .encFinish ∧
    decode (packetOfWords 0x20#64 a b c) = .ok .decStart ∧
    decode (packetOfWords 0x21#64 a b c) = .ok (.decScale a.toNat) ∧
    decode (packetOfWords 0x22#64 a b c) = .ok (.decNarrow a.toNat b.toNat c.toNat) ∧
    decode (packetOfWords 0x30#64 a b c) = .ok (.fscale a.toNat b.toNat c.toNat)

/-- Rules R70, R73 and R80: decoding the packet of a well-formed command gives the command back, with
every operand at every value 64 bits hold. -/
def Obligations.DecodeEncodeRoundTrip : Prop :=
  ∀ i : Instr, i.wellFormed = true → decode (encode i) = .ok i

/-- Rules R70, R73 and R74: what the decoder accepts is well formed, and its packet differs from the
encoder's in ignored operands only. -/
def Obligations.DecodedCommandsAreWellFormed : Prop :=
  ∀ (p : Packet) (i : Instr), decode p = .ok i →
    i.wellFormed = true ∧ (encode i).toNat % 2 ^ 64 = p.toNat % 2 ^ 64 ∧ decode (encode i) = .ok i

/-! ### The step, reset, and the whole machine -/

/-- A packet that decodes is run, with the packet taken from the host (rules R20 and R76). -/
def Obligations.StepRunsTheDecodedCommand : Prop :=
  ∀ (s : State) (p : Packet) (rest : List HostEvent) (i : Instr),
    s.inbox = .command p :: rest → decode p = .ok i → step s = exec i { s with inbox := rest }

/-- Between commands the block holds its state (rule R186). That waiting is a step of the model, and not
the end of it, is the model's choice: log entry 7. -/
def Obligations.WaitingBlockHoldsItsState : Prop :=
  ∀ s : State, s.inbox = [] → step s = .next s

/-- Rule R36: the reset event leaves every register of both units at the table's value, with no port
transaction and the same parameters (rules R37 and R190). The same values are those of `State.reset`. -/
def Obligations.ResetLeavesTheResetValues : Prop :=
  (∀ (s : State) (rest : List HostEvent), s.inbox = .reset :: rest →
    ∃ t, step s = .next t ∧
      t.enc = ⟨.idle, none, 0, 0, 0, 0, 0, 0⟩ ∧
      t.dec = ⟨.idle, none, 0, 0, 0, 0, false, 0, 0, 0, 0⟩ ∧
      t.cfg = s.cfg ∧ t.sink = s.sink ∧ t.source = s.source ∧ t.inbox = rest) ∧
  State.reset.enc = ⟨.idle, none, 0, 0, 0, 0, 0, 0⟩ ∧
  State.reset.dec = ⟨.idle, none, 0, 0, 0, 0, false, 0, 0, 0, 0⟩

/-- Rule R191: what each command does while both units hold their reset values. -/
def Obligations.AfterResetOnlyStartsOpenAStream : Prop :=
  ∀ s : State, s.enc = ⟨.idle, none, 0, 0, 0, 0, 0, 0⟩ →
    s.dec = ⟨.idle, none, 0, 0, 0, 0, false, 0, 0, 0, 0⟩ →
    (∀ pl pu pt total, ∀ i ∈ [Instr.encPut pl pu pt, .encFinish, .decScale total, .decNarrow pl pu pt],
      exec i s = .next { s with responses := s.responses ++ [⟨.eseq, 0⟩] }) ∧
    (∀ n ∈ [0x10, 0x11, 0x12, 0x13, 0x14, 0x15, 0x16, 0x20, 0x21, 0x22, 0x23, 0x24, 0x25, 0x26, 0x27, 0x28],
      exec (.rdreg n) s = .next { s with responses := s.responses ++ [⟨.ok, 0⟩] }) ∧
    (∃ t, exec .encStart s = .next t ∧ t.enc.phase = .active) ∧
    (s.source.KeepsContract s.cfg → ∃ t, exec .decStart s = .next t ∧ t.dec.phase = .active)

/-- Every step keeps the invariant: the interval and window facts of rules R32 and R33, rule R34's idle
encoder, the widths of rules R22 to R31, the causes of rule R23, the Sink's units of rules R52 and R56,
the responses of rule R79 and the fault record of rule R182. -/
def Obligations.StepKeepsTheInvariant : Prop :=
  ∀ s t : State, s.Inv → step s = .next t → t.Inv

/-- The start of a run meets the invariant, at ARCD-REF and at every other parameter set. -/
def Obligations.ResetMeetsTheInvariant : Prop :=
  State.reset.Inv ∧ ∀ c : Config, (State.resetOf c).Inv

/-- Rules R32 and R33 for a stream opened from any state whatever: a START leaves its unit's invariant. -/
def Obligations.StartsEstablishTheInvariant : Prop :=
  (∀ s t : State, exec .encStart s = .next t → t.enc.Inv t.cfg) ∧
  (∀ s t : State, (∀ r ∈ s.source.replies, r.fitsPort s.cfg = true) →
    exec .decStart s = .next t → t.dec.Inv t.cfg)

/-- Rule R202: where the Sink and the Source complete every transaction, every step ends with a next
state, and the premises hold again there. -/
def Obligations.EveryStepEndsWhenThePortsComplete : Prop :=
  ∀ s : State, s.Inv → s.sink.Accepts → s.source.Answers →
    ∃ t, step s = .next t ∧ t.Inv ∧ t.sink.Accepts ∧ t.source.Answers

/-- Rule R57: a port that never completes a transaction leaves the command without a step, and nothing
else does. A command of ENC with a Sink that accepts `r` more units does what it does with one that
accepts every unit, where that hands over at most `r` of them; otherwise it has no step. A command of DEC
with a Source that replies as `good` says and then never does what it does where the Source is exhausted
after `good`, where that makes at most as many calls as `good` has replies; otherwise it has no step. -/
def Obligations.StalledPortsHaveNoStep : Prop :=
  (∀ (i : Instr) (s : State) (f : Fault), s.Inv → exec i s = .fault f →
    (f = .sinkNeverAccepts ∧ i.opcode / 16 = 1 ∧ s.sink.room ≠ none) ∨
    (f = .sourceNeverReplies ∧ i.opcode / 16 = 2 ∧ SourceReply.never ∈ s.source.replies)) ∧
  (∀ (i : Instr) (s : State) (r : Nat), s.Inv → i.opcode / 16 = 1 → s.sink.room = some r →
    ∃ t, exec i { s with sink := { s.sink with room := none } } = .next t ∧
      exec i s =
        if t.sink.units.length ≤ s.sink.units.length + r then
          .next { t with sink := { t.sink with
            room := some (s.sink.units.length + r - t.sink.units.length) } }
        else .fault .sinkNeverAccepts) ∧
  (∀ (i : Instr) (s : State) (good rest : List SourceReply), s.Inv → i.opcode / 16 = 2 →
    SourceReply.never ∉ good → s.source.replies = good ++ .never :: rest →
    ∃ t, exec i { s with source := { s.source with replies := good } } = .next t ∧
      exec i s =
        if t.source.fills ≤ s.source.fills + good.length then
          .next { t with source := { t.source with replies := t.source.replies ++ .never :: rest } }
        else .fault .sourceNeverReplies) ∧
  (∀ (s : State) (rest : List SourceReply), s.source.replies = .never :: rest →
    exec .decStart s = .fault .sourceNeverReplies) ∧
  (∀ s : State, s.enc.phase = .active → s.enc.lower = 0 → s.enc.upper = s.cfg.rangeMax →
    s.enc.pending = 0 → 0 < s.enc.fill → s.sink.room = some 0 →
    exec .encFinish s = .fault .sinkNeverAccepts)

/-- Rules R56 to R58: exactly where the three primitives that call a port have no step. -/
def Obligations.StalledTransactionsStopTheirPrimitive : Prop :=
  ∀ c : Config,
    (∀ (b : Bool) (e : EncPath), putBit c b e = .stuck .sinkNeverAccepts ↔
      e.reg.fill + 1 = c.bufBits ∧ e.sink.room = some 0) ∧
    (∀ e : EncPath, encFlush e = .stuck .sinkNeverAccepts ↔ 0 < e.reg.fill ∧ e.sink.room = some 0) ∧
    (∀ d : DecPath, nextBit c d = .stuck .sourceNeverReplies ↔
      d.reg.exhausted = false ∧ d.reg.left = 0 ∧ ∃ rest, d.source.replies = .never :: rest)

/-- Rule R37: the four configuration registers read the parameters, which are the same after every step. -/
def Obligations.ParametersNeverChange : Prop :=
  ∀ s : State, csr s 0x00 = some s.cfg.rangeBits ∧ csr s 0x01 = some s.cfg.freqBits ∧
    csr s 0x02 = some s.cfg.bufBits ∧ csr s 0x03 = some s.cfg.pendingBits ∧
    ∀ t, step s = .next t → t.cfg = s.cfg

/-- Rules R79 and R171: one response a command, VALUE above CODE in its 72 bits, VALUE 0 with every error code and
with every command but RDREG, DEC.SCALE and FSCALE. -/
def Obligations.EveryCommandGivesOneResponse : Prop :=
  (∀ (i : Instr) (s t : State), exec i s = .next t → ∃ r, t.responses = s.responses ++ [r] ∧
    (r.code ≠ .ok → r.value = 0) ∧
    (i.opcode ≠ 0x01 → i.opcode ≠ 0x21 → i.opcode ≠ 0x30 → r.value = 0)) ∧
  (∀ r : Response, r.bits.toNat = r.code.toNat + 2 ^ 8 * r.value.toNat) ∧
  ([Code.ok, .eillegal, .eseq, .efaulted, .emodel, .esource, .epending, .edomain, .ebadreg].map
    Code.toNat = [0, 1, 2, 3, 4, 5, 6, 7, 8])

/-- Rule R172: a non-sticky error has no effect but its response, and the next command runs as if it had
not been issued. -/
def Obligations.NonStickyErrorsChangeNothing : Prop :=
  (∀ (i : Instr) (s t : State) (r : Response), exec i s = .next t → t.responses = s.responses ++ [r] →
    r.code ∈ [Code.eillegal, .eseq, .efaulted, .edomain, .ebadreg] →
    t = { s with responses := s.responses ++ [r] } ∧
    ∀ (j : Instr) (u : State) (r' : Response), exec j s = .next u → u.responses = s.responses ++ [r'] →
      exec j t = .next { u with responses := s.responses ++ [r, r'] }) ∧
  (∀ (s : State) (p : Packet) (rest : List HostEvent) (e : DecodeError),
    s.inbox = .command p :: rest → decode p = .error e →
    step s = .next { s with inbox := rest, responses := s.responses ++ [⟨.eillegal, 0⟩] })

/-- Rule R173: the cells of the table that answer ESEQ or EFAULTED, and that no other cell does. -/
def Obligations.PhaseDecidesWhichCommandsRun : Prop :=
  ∀ s : State,
    let answers (i : Instr) (k : Code) : Prop :=
      exec i s = .next { s with responses := s.responses ++ [⟨k, 0⟩] }
    (∀ pl pu pt, s.enc.phase = .idle → answers (.encPut pl pu pt) .eseq) ∧
    (∀ pl pu pt, s.enc.phase = .fault → answers (.encPut pl pu pt) .efaulted) ∧
    (s.enc.phase = .idle → answers .encFinish .eseq) ∧
    (s.enc.phase = .fault → answers .encFinish .efaulted) ∧
    (∀ total, s.dec.phase = .idle → answers (.decScale total) .eseq) ∧
    (∀ total, s.dec.phase = .fault → answers (.decScale total) .efaulted) ∧
    (∀ pl pu pt, s.dec.phase = .idle → answers (.decNarrow pl pu pt) .eseq) ∧
    (∀ pl pu pt, s.dec.phase = .active → answers (.decNarrow pl pu pt) .eseq) ∧
    (∀ pl pu pt, s.dec.phase = .fault → answers (.decNarrow pl pu pt) .efaulted) ∧
    (∀ (i : Instr) (t : State) (r : Response), exec i s = .next t → t.responses = s.responses ++ [r] →
      r.code = .eseq ∨ r.code = .efaulted →
      (i.opcode = 0x11 ∨ i.opcode = 0x12) ∧ (s.enc.phase = .idle ∨ s.enc.phase = .fault) ∨
      i.opcode = 0x21 ∧ (s.dec.phase = .idle ∨ s.dec.phase = .fault) ∨
      i.opcode = 0x22 ∧ s.dec.phase ≠ .scaled)

/-- Rules R174 and R182: a unit in FAULT is frozen, and its port untouched, until its own START, which
clears phase and cause; the other unit's commands and the block's do not matter. -/
def Obligations.FaultIsLeftOnlyByStart : Prop :=
  ∀ (i : Instr) (s t : State), exec i s = .next t →
    (s.enc.phase = .fault → i ≠ .encStart → t.enc = s.enc ∧ t.sink = s.sink) ∧
    (s.dec.phase = .fault → i ≠ .decStart → t.dec = s.dec ∧ t.source = s.source) ∧
    (i = .encStart → t.enc.phase = .active ∧ t.enc.cause = none) ∧
    (i = .decStart → t.responses = s.responses ++ [⟨.ok, 0⟩] →
      t.dec.phase = .active ∧ t.dec.cause = none)

/-- Rules R174 and R182: a stream fault puts its unit in FAULT with its cause, is answered with its code
and is recorded; nothing else is recorded, and no step removes a record. That the reset event keeps the
record is the model's reading: log entry 6. -/
def Obligations.StreamFaultsAreRecordedForever : Prop :=
  (∀ (i : Instr) (s t : State) (r : Response), exec i s = .next t → t.responses = s.responses ++ [r] →
    (r.code ∉ [Code.emodel, .esource, .epending] ∧ t.faults = s.faults) ∨
    (∃ f : StreamFault,
      (f = .emodel ∧ r.code = .emodel ∨ f = .esource ∧ r.code = .esource ∨
        f = .epending ∧ r.code = .epending) ∧
      ((i.opcode / 16 = 1 ∧ t.faults = s.faults ++ [⟨.enc, f⟩] ∧
          t.enc.phase = .fault ∧ t.enc.cause = some f) ∨
        (i.opcode / 16 = 2 ∧ t.faults = s.faults ++ [⟨.dec, f⟩] ∧
          t.dec.phase = .fault ∧ t.dec.cause = some f)))) ∧
  (∀ s t : State, step s = .next t → s.faults <+: t.faults)

/-- Rules R35, R72 and R187: a command reaches its own unit and that unit's port only; NOP, RDREG and
FSCALE change nothing but the responses. -/
def Obligations.CommandsReachOnlyTheirUnit : Prop :=
  ∀ (i : Instr) (s t : State), exec i s = .next t →
    t.cfg = s.cfg ∧ t.inbox = s.inbox ∧
    (i.opcode / 16 ≠ 1 → t.enc = s.enc ∧ t.sink = s.sink) ∧
    (i.opcode / 16 ≠ 2 → t.dec = s.dec ∧ t.source = s.source) ∧
    (i.opcode / 16 ≠ 1 → i.opcode / 16 ≠ 2 → t.faults = s.faults)

/-- What the commands of a unit leave alone in their own unit, however they end (rules R107, R118, R121,
R134, R135 and R174). -/
def Obligations.CommandsKeepTheRegistersTheyDoNotWrite : Prop :=
  ∀ s t : State,
    (exec .encFinish s = .next t →
      t.enc.lower = s.enc.lower ∧ t.enc.upper = s.enc.upper ∧ t.enc.range = s.enc.range) ∧
    (∀ pl pu pt, exec (.encPut pl pu pt) s = .next t →
      t.responses = s.responses ++ [⟨.ok, 0⟩] → t.enc.phase = s.enc.phase ∧ t.enc.cause = s.enc.cause) ∧
    (∀ total, exec (.decScale total) s = .next t → t.source = s.source ∧
      t.dec = { s.dec with
        phase := t.dec.phase, cause := t.dec.cause, total := t.dec.total, scaled := t.dec.scaled }) ∧
    (∀ pl pu pt, exec (.decNarrow pl pu pt) s = .next t →
      t.dec.total = s.dec.total ∧ t.dec.scaled = s.dec.scaled ∧
      (t.responses = s.responses ++ [⟨.ok, 0⟩] → t.dec.phase = .active ∧ t.dec.cause = s.dec.cause))

/-- Rule R203's bounds on port transactions. -/
def Obligations.PortTransactionsAreBounded : Prop :=
  ∀ s t : State, s.Inv →
    (∀ pl pu pt, exec (.encPut pl pu pt) s = .next t →
      t.sink.units.length ≤ s.sink.units.length +
        (s.enc.fill + s.cfg.rangeBits + s.enc.pending) / s.cfg.bufBits) ∧
    (exec .encFinish s = .next t →
      t.sink.units.length ≤ s.sink.units.length +
        ((s.enc.fill + s.enc.pending + 2) / s.cfg.bufBits + 1)) ∧
    (exec .decStart s = .next t →
      s.source.fills + 1 ≤ t.source.fills ∧ t.source.fills ≤ s.source.fills + s.cfg.rangeBits) ∧
    (∀ pl pu pt, exec (.decNarrow pl pu pt) s = .next t →
      s.source.fills ≤ t.source.fills ∧ t.source.fills ≤ s.source.fills + s.cfg.rangeBits) ∧
    (∀ i : Instr, i.opcode ∉ [0x11, 0x12, 0x20, 0x22] → exec i s = .next t →
      t.sink = s.sink ∧ t.source = s.source)

/-! ### NOP, RDREG and FSCALE -/

/-- Rule R160. -/
def Obligations.NopOnlyAnswersOk : Prop :=
  ∀ s : State, exec .nop s = .next { s with responses := s.responses ++ [⟨.ok, 0⟩] }

/-- Rules R39, R40, R41 and R161: the register map, with the status layouts; every value fits 64 bits; an
unassigned number, however large, is EBADREG. -/
def Obligations.RdregReadsTheRegisterMap : Prop :=
  ∀ s : State, s.Inv →
    let phaseValue (p : Phase) : Nat :=
      match p with | .idle => 0 | .active => 1 | .scaled => 2 | .fault => 3
    let causeValue (f : Option StreamFault) : Nat :=
      match f with | none => 0 | some .emodel => 4 | some .esource => 5 | some .epending => 6
    let map : List (Nat × Nat) := [
      (0x00, s.cfg.rangeBits), (0x01, s.cfg.freqBits), (0x02, s.cfg.bufBits), (0x03, s.cfg.pendingBits),
      (0x10, phaseValue s.enc.phase + 16 * causeValue s.enc.cause),
      (0x11, s.enc.lower), (0x12, s.enc.upper), (0x13, s.enc.range), (0x14, s.enc.pending),
      (0x15, s.enc.buf), (0x16, s.enc.fill),
      (0x20, phaseValue s.dec.phase + 16 * causeValue s.dec.cause +
        256 * (if s.dec.exhausted = true then 1 else 0)),
      (0x21, s.dec.lower), (0x22, s.dec.upper), (0x23, s.dec.range), (0x24, s.dec.window),
      (0x25, s.dec.buf), (0x26, s.dec.left), (0x27, s.dec.total), (0x28, s.dec.scaled)]
    (∀ x ∈ map, x.2 < 2 ^ 64 ∧
      exec (.rdreg x.1) s =
        .next { s with responses := s.responses ++ [⟨.ok, BitVec.ofNat 64 x.2⟩] }) ∧
    (∀ n, n ∉ map.map Prod.fst →
      exec (.rdreg n) s = .next { s with responses := s.responses ++ [⟨.ebadreg, 0⟩] })

/-- Rule R152: FSCALE's domain, its value, which fits 64 bits, and EDOMAIN outside. -/
def Obligations.FscaleAnswersTheExactInverse : Prop :=
  ∀ (s : State) (v range total : Nat),
    let inDomain := 1 ≤ range ∧ range ≤ 2 ^ s.cfg.rangeBits ∧ 1 ≤ total ∧
      total ≤ 2 ^ s.cfg.freqBits - 1 ∧ total ≤ range ∧ v < range
    let value := ((v + 1) * total - 1) / range
    (inDomain → value < 2 ^ 64 ∧
      exec (.fscale v range total) s =
        .next { s with responses := s.responses ++ [⟨.ok, BitVec.ofNat 64 value⟩] }) ∧
    (¬ inDomain →
      exec (.fscale v range total) s =
        .next { s with responses := s.responses ++ [⟨.edomain, 0⟩] })

/-- Rule R153 and its two consequences. -/
def Obligations.FscaleInvertsNarrowing : Prop :=
  ∀ v range total : Nat, 1 ≤ total → total ≤ range →
    (∀ x, x ≤ total → (x ≤ freqScale v range total ↔ range * x / total ≤ v)) ∧
    (v < range → IsGreatest { x | range * x / total ≤ v } (freqScale v range total)) ∧
    (∀ lower window pl pu, lower ≤ window → window - lower = v → pl ≤ total → pu ≤ total →
      ((pl ≤ freqScale v range total ∧ freqScale v range total < pu) ↔
        ((narrow lower range pl pu total).1 ≤ window ∧ window < (narrow lower range pl pu total).2)))

/-- Rule R154: the inverse law, exactly. -/
def Obligations.FscaleInverseLaw : Prop :=
  ∀ range total x : Nat, 1 ≤ total → total ≤ range → x ≤ total →
    freqScale (range * x / total) range total = x

/-- Rule R155: FScale's values, and the boundary `total = range`, which FSCALE accepts and DEC.SCALE
never meets. -/
def Obligations.FscaleValueRange : Prop :=
  (∀ v range total : Nat, 1 ≤ total → total ≤ range → v < range →
    freqScale v range total ≤ total - 1 ∧
    (∀ v', v ≤ v' → freqScale v range total ≤ freqScale v' range total) ∧
    freqScale v range range = v ∧ freqScale v range 1 = 0) ∧
  (∀ (s : State) (v range : Nat), v < range → range ≤ s.cfg.freqMax →
    exec (.fscale v range range) s =
      .next { s with responses := s.responses ++ [⟨.ok, BitVec.ofNat 64 v⟩] }) ∧
  (∀ (s : State) (total : Nat), s.Inv → s.dec.Open → TotalOk s.cfg total → total < s.dec.range)

/-- Rule R156: where the forward variant differs, at the first value of a symbol's range. -/
def Obligations.ForwardVariantIsNotFscale : Prop :=
  (narrow 0 65536 1 3 7).1 = 9362 ∧ freqScale 9362 65536 7 = 1 ∧ 9362 * 7 / 65536 = 0 ∧
  freqScale 21845 65536 3 = 1 ∧ 21845 * 3 / 65536 = 0

/-! ### The interval primitives -/

/-- Rule R101. -/
def Obligations.NarrowedIntervalStaysInside : Prop :=
  ∀ (c : Config) (lower upper range pl pu pt : Nat),
    IntervalOk c lower upper range → ProbOk c pl pu pt →
    let nl := (narrow lower range pl pu pt).1
    let nu := (narrow lower range pl pu pt).2
    (lower ≤ nl ∧ nl < nu ∧ nu ≤ upper ∧ 1 ≤ nu - nl) ∧
    (nl = lower ↔ pl = 0) ∧ (nu = upper ↔ pu = pt) ∧
    (pl = 0 → pu = pt → nl = lower ∧ nu = upper)

/-- Rules R102 and R103: the cases in their order, their maps, and the rules' examples. -/
def Obligations.RenormalizationCasesAndMaps : Prop :=
  (∀ (c : Config) (l u : Nat),
    let half := 2 ^ c.rangeBits / 2
    let quarter := 2 ^ c.rangeBits / 4
    (classify c l u = some .e1 ↔ u ≤ half) ∧
    (classify c l u = some .e2 ↔ half < u ∧ half ≤ l) ∧
    (classify c l u = some .e3 ↔ half < u ∧ l < half ∧ quarter ≤ l ∧ u ≤ 3 * quarter) ∧
    (classify c l u = none ↔ half < u ∧ l < half ∧ (l < quarter ∨ 3 * quarter < u)) ∧
    (∀ b, transformBound c .e1 b = 2 * b ∧ transformBound c .e2 b = 2 * (b - half) ∧
      transformBound c .e3 b = 2 * (b - quarter))) ∧
  classify .arcdRef 16384 32768 = some .e1 ∧ classify .arcdRef 32768 49152 = some .e2 ∧
  classify .arcdRef 16384 49152 = some .e3 ∧ classify .arcdRef 16383 49152 = none ∧
  transformBound .arcdRef .e3 20000 = 7232 ∧ transformBound .arcdRef .e3 45000 = 57232

/-- Rule R104, and rule R103's remark that no subtraction goes below zero and every width doubles. -/
def Obligations.RenormalizationNeverOverflows : Prop :=
  (∀ (c : Config) (lower upper range pl pu pt : Nat),
    IntervalOk c lower upper range → ProbOk c pl pu pt →
    range * pu < 2 ^ (c.rangeBits + c.freqBits) ∧ range * pl < 2 ^ (c.rangeBits + c.freqBits) ∧
    (narrow lower range pl pu pt).2 ≤ c.rangeMax) ∧
  (∀ (c : Config) (l u : Nat) (k : RenormCase), l < u → u ≤ c.rangeMax → classify c l u = some k →
    caseOffset c k ≤ l ∧ transformBound c k u ≤ c.rangeMax ∧ c.rangeMax < 2 ^ (c.rangeBits + 1) ∧
    transformBound c k u - transformBound c k l = 2 * (u - l))

/-- Rule R105: neither loop runs out of the `RANGE_BITS` iterations the model gives it. -/
def Obligations.RenormalizationLoopEnds : Prop :=
  ∀ c : Config,
    (∀ e : EncPath, e.reg.lower < e.reg.upper → e.reg.upper ≤ c.rangeMax →
      encRenorm c (c.rangeBits + 1) e ≠ .stuck .loopDoesNotEnd) ∧
    (∀ d : DecPath, d.reg.lower < d.reg.upper → d.reg.upper ≤ c.rangeMax →
      decRenorm c (c.rangeBits + 1) d ≠ .stuck .loopDoesNotEnd)

/-- Rule R106. -/
def Obligations.StopMeansAWideInterval : Prop :=
  ∀ (c : Config) (l u : Nat), classify c l u = none →
    (l < c.half ∧ c.half < u) ∧ (l < c.quarter ∨ c.threeQuarters < u) ∧ c.quarter < u - l ∧
    (u ≤ c.rangeMax → u - l ≤ c.rangeMax)

/-- Rule R109: totals lie below QUARTER and below the range whenever a unit narrows or scales. -/
def Obligations.TotalsStayBelowTheRange : Prop :=
  ∀ c : Config, c.freqMax < 2 ^ c.freqBits ∧ 2 ^ c.freqBits ≤ 2 ^ (c.rangeBits - 2) ∧
    2 ^ (c.rangeBits - 2) = c.quarter ∧
    (∀ lower upper range pl pu pt, IntervalOk c lower upper range → ProbOk c pl pu pt →
      pt < range ∧ (narrow lower range pl pu pt).1 < (narrow lower range pl pu pt).2) ∧
    (∀ lower upper range total, IntervalOk c lower upper range → TotalOk c total → total < range)

/-- Rule R108: the two forms in which "monotonic shrink" holds, and that the range can grow. -/
def Obligations.RangeStaysLegalButCanGrow : Prop :=
  (∀ (c : Config) (lower upper range pl pu pt : Nat),
    IntervalOk c lower upper range → ProbOk c pl pu pt →
    (narrow lower range pl pu pt).2 - (narrow lower range pl pu pt).1 ≤ range) ∧
  (∀ (s t : State) (pl pu pt : Nat), s.Inv → exec (.encPut pl pu pt) s = .next t →
    t.enc.phase = .active → s.cfg.quarter < t.enc.range ∧ t.enc.range ≤ s.cfg.rangeMax) ∧
  (∀ (s t : State) (pl pu pt : Nat), s.Inv → exec (.decNarrow pl pu pt) s = .next t →
    t.dec.phase = .active → s.cfg.quarter < t.dec.range ∧ t.dec.range ≤ s.cfg.rangeMax) ∧
  (∃ s t : State, s.Inv ∧ s.enc.range = 43691 ∧ exec (.encPut 1 2 2) s = .next t ∧
    t.enc.phase = .active ∧ t.enc.range = 43692)

/-! ### The encoder -/

/-- Rule R110: ENC.START from every state; what was buffered or pending is dropped, the Sink untouched. -/
def Obligations.EncStartOpensAStream : Prop :=
  ∀ s : State, exec .encStart s = .next { s with
    enc := ⟨.active, none, 0, 2 ^ s.cfg.rangeBits, 2 ^ s.cfg.rangeBits, 0, 0, 0⟩
    responses := s.responses ++ [⟨.ok, 0⟩] }

/-- Rule R111, for a Sink that accepts. -/
def Obligations.PutBitPlacesTheNextBit : Prop :=
  ∀ (c : Config) (b : Bool) (e : EncPath), e.sink.Accepts →
    let buf := e.reg.buf + (if b = true then 1 else 0) * 2 ^ (c.bufBits - 1 - e.reg.fill)
    putBit c b e = .done ()
      (if e.reg.fill + 1 = c.bufBits then
        { reg := { e.reg with buf := 0, fill := 0 }
          sink := { e.sink with units := e.sink.units ++ [⟨buf, c.bufBits⟩] } }
      else { e with reg := { e.reg with buf := buf, fill := e.reg.fill + 1 } })

/-- Rule R112: the bit, then `pending` complements, then the counter is 0; several full units may go to
the Sink on the way. -/
def Obligations.EmitWithPendingWritesTheComplements : Prop :=
  ∀ (c : Config) (b : Bool) (e : EncPath),
    e.reg.fill < c.bufBits → BufferOk c e.reg.buf e.reg.fill → e.sink.Accepts →
    ∃ e', emitWithPending c b e = .done () e' ∧
      e'.written c = e.written c ++ (b :: List.replicate e.reg.pending (!b)) ∧
      e'.reg = { e.reg with pending := 0, buf := e'.reg.buf, fill := e'.reg.fill }

/-- Rules R113 to R116: ENC.PUT does to the registers, and adds to the bits written, what the encoder on
lists of bits does; where that one cannot defer a bit, the answer is EPENDING. -/
def Obligations.EncPutRefinesTheBitListEncoder : Prop :=
  ∀ (s : State) (pl pu pt : Nat), s.Inv → s.enc.phase = .active → s.sink.Accepts →
    ProbOk s.cfg pl pu pt →
    (∀ r, refPut s.cfg s.enc pl pu pt = some r →
      ∃ (e : Enc) (k : Sink),
        exec (.encPut pl pu pt) s =
          .next { s with enc := e, sink := k, responses := s.responses ++ [⟨.ok, 0⟩] } ∧
        e = { s.enc with
          lower := r.lower, upper := r.upper, range := r.upper - r.lower, pending := r.pending,
          buf := e.buf, fill := e.fill } ∧
        (EncPath.mk e k).written s.cfg = s.encPath.written s.cfg ++ r.bits) ∧
    (refPut s.cfg s.enc pl pu pt = none →
      ∃ t, exec (.encPut pl pu pt) s = .next t ∧ t.responses = s.responses ++ [⟨.epending, 0⟩])

/-- Rules R105 and R113: ENC.PUT answers OK wherever the counter has room for `RANGE_BITS` more bits. -/
def Obligations.EncPutCompletesWithRoomToDefer : Prop :=
  ∀ (s : State) (pl pu pt : Nat), s.Inv → s.enc.phase = .active → s.sink.Accepts →
    ProbOk s.cfg pl pu pt → s.enc.pending + s.cfg.rangeBits ≤ s.cfg.pendingMax →
    ∃ t, exec (.encPut pl pu pt) s = .next t ∧ t.responses = s.responses ++ [⟨.ok, 0⟩] ∧
      t.enc.phase = .active ∧ IntervalOk s.cfg t.enc.lower t.enc.upper t.enc.range ∧
      t.enc.pending ≤ s.enc.pending + s.cfg.rangeBits ∧
      (s.encPath.written s.cfg).length ≤ (t.encPath.written s.cfg).length ∧
      (t.encPath.written s.cfg).length ≤
        (s.encPath.written s.cfg).length + s.cfg.rangeBits + s.enc.pending

/-- The first points of rules R117 and R143: a certain symbol changes no interval and moves no bit. -/
def Obligations.CertainSymbolsMoveNoBit : Prop :=
  (∀ (s : State) (pt : Nat), s.Inv → s.enc.phase = .active → 1 ≤ pt → pt ≤ s.cfg.freqMax →
    exec (.encPut 0 pt pt) s = .next { s with responses := s.responses ++ [⟨.ok, 0⟩] }) ∧
  (∀ s : State, s.Inv → s.dec.phase = .scaled →
    exec (.decNarrow 0 s.dec.total s.dec.total) s = .next { s with
      dec := { s.dec with phase := .active }, responses := s.responses ++ [⟨.ok, 0⟩] })

/-- Rule R175: the three causes of EMODEL, each raised before any change. -/
def Obligations.ModelViolationsArePrecise : Prop :=
  ∀ s : State,
    (∀ pl pu pt, s.enc.phase = .active → ¬ (pl < pu ∧ pu ≤ pt ∧ pt ≤ s.cfg.freqMax) →
      exec (.encPut pl pu pt) s = .next { s with
        enc := { s.enc with phase := .fault, cause := some .emodel }
        faults := s.faults ++ [⟨.enc, .emodel⟩], responses := s.responses ++ [⟨.emodel, 0⟩] }) ∧
    (∀ total, s.dec.Open → (total = 0 ∨ s.cfg.freqMax < total) →
      exec (.decScale total) s = .next { s with
        dec := { s.dec with phase := .fault, cause := some .emodel }
        faults := s.faults ++ [⟨.dec, .emodel⟩], responses := s.responses ++ [⟨.emodel, 0⟩] }) ∧
    (∀ pl pu pt, s.dec.phase = .scaled →
      (¬ (pl < pu ∧ pu ≤ pt ∧ pt ≤ s.cfg.freqMax) ∨ pt ≠ s.dec.total ∨
        ¬ (pl ≤ s.dec.scaled ∧ s.dec.scaled < pu)) →
      exec (.decNarrow pl pu pt) s = .next { s with
        dec := { s.dec with phase := .fault, cause := some .emodel }
        faults := s.faults ++ [⟨.dec, .emodel⟩], responses := s.responses ++ [⟨.emodel, 0⟩] })

/-- Rule R177: the state EPENDING leaves, after ENC.PUT in general, after its first iteration in full,
and after ENC.FINISH in full. That the registers stay frozen so is the spec's decision D30. -/
def Obligations.PendingOverflowLeavesTheFaultingIteration : Prop :=
  (∀ (s t : State) (pl pu pt : Nat), exec (.encPut pl pu pt) s = .next t →
    t.responses = s.responses ++ [⟨.epending, 0⟩] →
    t.enc.phase = .fault ∧ t.enc.cause = some .epending ∧ t.enc.pending = s.cfg.pendingMax ∧
    t.enc.range = s.enc.range ∧ classify s.cfg t.enc.lower t.enc.upper = some .e3 ∧
    s.sink.units <+: t.sink.units) ∧
  (∀ (s : State) (pl pu pt : Nat), s.enc.phase = .active → ProbOk s.cfg pl pu pt →
    s.enc.pending = s.cfg.pendingMax →
    let nl := s.enc.lower + s.enc.range * pl / pt
    let nu := s.enc.lower + s.enc.range * pu / pt
    classify s.cfg nl nu = some .e3 →
    exec (.encPut pl pu pt) s = .next { s with
      enc := { s.enc with lower := nl, upper := nu, phase := .fault, cause := some .epending }
      faults := s.faults ++ [⟨.enc, .epending⟩], responses := s.responses ++ [⟨.epending, 0⟩] }) ∧
  (∀ s : State, s.enc.phase = .active → s.enc.lower ≠ 0 → s.enc.upper ≠ s.cfg.rangeMax →
    s.enc.pending = s.cfg.pendingMax →
    exec .encFinish s = .next { s with
      enc := { s.enc with phase := .fault, cause := some .epending }
      faults := s.faults ++ [⟨.enc, .epending⟩], responses := s.responses ++ [⟨.epending, 0⟩] })

/-- Rules R118 to R121: ENC.FINISH writes the bits of rule R121's table, hands over everything written,
and leaves the encoder idle and empty with its interval kept. -/
def Obligations.EncFinishWritesTheFinalBits : Prop :=
  ∀ s : State, s.Inv → s.enc.phase = .active → s.sink.Accepts → ¬ FinishOverflows s.cfg s.enc →
    ∃ k : Sink,
      exec .encFinish s = .next { s with
        enc := { s.enc with phase := .idle, pending := 0, buf := 0, fill := 0 }
        sink := k, responses := s.responses ++ [⟨.ok, 0⟩] } ∧
      outputBits s.cfg k.units = s.encPath.written s.cfg ++ refFinalBits s.cfg s.enc

/-- Rules R52, R54 and R56: ENC.PUT hands over full units only, ENC.FINISH one short unit at most after
them, its unused bits 0; no other command calls the Sink, and no unit is empty. -/
def Obligations.SinkGetsFullUnitsThenOneShort : Prop :=
  ∀ (i : Instr) (s t : State), s.Inv → exec i s = .next t →
    ∃ full short : List BitUnit, t.sink.units = s.sink.units ++ full ++ short ∧
      (∀ u ∈ full, u.count = s.cfg.bufBits ∧ u.word < 2 ^ s.cfg.bufBits) ∧
      (∀ u ∈ short, 1 ≤ u.count ∧ u.count < s.cfg.bufBits ∧ u.word < 2 ^ s.cfg.bufBits ∧
        u.word % 2 ^ (s.cfg.bufBits - u.count) = 0) ∧
      short.length ≤ 1 ∧ (i.opcode ≠ 0x12 → short = []) ∧
      (i.opcode ≠ 0x11 → i.opcode ≠ 0x12 → full = [])

/-- Rule R122: after any commands, ENC's registers and Sink calls depend on the parameters and the
commands alone: not on DEC, not on the Source. -/
def Obligations.EncoderIsDeterministic : Prop :=
  ∀ (commands : List Instr) (s s' t t' : State),
    s.cfg = s'.cfg → s.enc = s'.enc → s.sink = s'.sink →
    runCommands commands s = .next t → runCommands commands s' = .next t' →
    t.enc = t'.enc ∧ t.sink = t'.sink

/-! ### The decoder -/

/-- Rule R53: the input bit stream is the valid bits of the units with a count from 1 to `BUF_BITS`, in
order, the most significant first. A reply with any other count adds none and ends the stream. Neither the
stream nor NextBit depends on a unit's bits below its valid ones. -/
def Obligations.InputStreamIsTheValidBitsInOrder : Prop :=
  ∀ c : Config,
    (∀ (units : List BitUnit) (rest : List SourceReply),
      (∀ u ∈ units, 1 ≤ u.count ∧ u.count ≤ c.bufBits) →
      inputBits c (units.map (fun u => .reply u.word u.count) ++ rest) =
        (units.flatMap fun u => (List.range u.count).map fun k => u.word.testBit (c.bufBits - 1 - k)) ++
          inputBits c rest) ∧
    (∀ (w n : Nat) (rest : List SourceReply), (n = 0 ∨ c.bufBits < n) →
      inputBits c (.reply w n :: rest) = []) ∧
    (∀ (w w' n : Nat) (rest : List SourceReply) (d : DecPath), n ≤ c.bufBits →
      w / 2 ^ (c.bufBits - n) = w' / 2 ^ (c.bufBits - n) →
      inputBits c (.reply w n :: rest) = inputBits c (.reply w' n :: rest) ∧
      (d.reg.exhausted = false → d.reg.left = 0 →
        nextBit c { d with source := ⟨.reply w n :: rest, d.source.fills⟩ } =
          nextBit c { d with source := ⟨.reply w' n :: rest, d.source.fills⟩ }))

/-- Rules R131 to R133: NextBit, case by case. -/
def Obligations.NextBitFollowsItsRule : Prop :=
  ∀ (c : Config) (d : DecPath),
    (d.reg.exhausted = true → nextBit c d = .done true d) ∧
    (d.reg.exhausted = false → d.reg.left ≠ 0 →
      nextBit c d = .done (d.reg.buf.testBit (c.bufBits - 1))
        { d with reg := { d.reg with
            buf := d.reg.buf * 2 % 2 ^ c.bufBits, left := d.reg.left - 1 } }) ∧
    (∀ w n rest, d.reg.exhausted = false → d.reg.left = 0 → d.source.replies = .reply w n :: rest →
      let q : Source := ⟨rest, d.source.fills + 1⟩
      let masked := w - w % 2 ^ (c.bufBits - n)
      nextBit c d =
        if c.bufBits < n then .raised .esource { d with source := q }
        else if n = 0 then .done true { reg := { d.reg with exhausted := true }, source := q }
        else .done (masked.testBit (c.bufBits - 1))
          { reg := { d.reg with buf := masked * 2 % 2 ^ c.bufBits, left := n - 1 }, source := q })

/-- Rules R130 and R133: DEC.START from every state; the window is the first `RANGE_BITS` bits of the
input stream followed by filler, and the rest of the stream is left to read. -/
def Obligations.DecStartFillsTheWindow : Prop :=
  ∀ s : State, (∀ r ∈ s.source.replies, r.fitsPort s.cfg = true) → s.source.KeepsContract s.cfg →
    ∃ (d : Dec) (q : Source),
      exec .decStart s =
        .next { s with dec := d, source := q, responses := s.responses ++ [⟨.ok, 0⟩] } ∧
      d = { phase := .active, cause := none, lower := 0, upper := 2 ^ s.cfg.rangeBits,
            range := 2 ^ s.cfg.rangeBits,
            window := bitsValue (paddedTake s.cfg.rangeBits (inputBits s.cfg s.source.replies)),
            exhausted := d.exhausted, buf := d.buf, left := d.left, total := 0, scaled := 0 } ∧
      (DecPath.mk d q).unread s.cfg = (inputBits s.cfg s.source.replies).drop s.cfg.rangeBits

/-- Rule R138 with rule R134: DEC.SCALE latches and returns the exact inverse, which is below the total
and fits FREQ_BITS bits, and a table that partitions the total has a symbol for it. -/
def Obligations.DecScaleLatchesTheScaledValue : Prop :=
  ∀ (s : State) (total : Nat), s.Inv → s.dec.Open → 1 ≤ total → total ≤ s.cfg.freqMax →
    let v := ((s.dec.window - s.dec.lower + 1) * total - 1) / s.dec.range
    v < total ∧ v < 2 ^ s.cfg.freqBits ∧
    exec (.decScale total) s = .next { s with
      dec := { s.dec with total := total, scaled := v, phase := .scaled }
      responses := s.responses ++ [⟨.ok, BitVec.ofNat 64 v⟩] } ∧
    ∀ table, tableFrom s.cfg total 0 table = true → ∃ x, symbolFor table v = some x

/-- Rules R135 and R136: DEC.NARROW does to the registers and the input stream what the decoder on lists
of bits does. -/
def Obligations.DecNarrowRefinesTheBitListDecoder : Prop :=
  ∀ (s : State) (pl pu pt : Nat), s.Inv → s.dec.phase = .scaled → s.source.KeepsContract s.cfg →
    NarrowOk s.cfg s.dec pl pu pt →
    ∃ (r : DecTrace) (d : Dec) (q : Source),
      refNarrow s.cfg s.decPath pl pu pt = some r ∧
      exec (.decNarrow pl pu pt) s =
        .next { s with dec := d, source := q, responses := s.responses ++ [⟨.ok, 0⟩] } ∧
      d = { s.dec with
        phase := .active, lower := r.lower, upper := r.upper, range := r.upper - r.lower,
        window := r.window, exhausted := d.exhausted, buf := d.buf, left := d.left } ∧
      (DecPath.mk d q).unread s.cfg = r.unread

/-- Rule R176: the state ESOURCE leaves, after DEC.START in full, after DEC.NARROW in general, and after
its first DecStep in full. That the registers stay frozen so is the spec's decision D30. -/
def Obligations.SourceViolationLeavesTheFaultingStep : Prop :=
  (∀ (s : State) (good rest : List SourceReply) (w n : Nat),
    s.source.replies = good ++ .reply w n :: rest → s.cfg.bufBits < n →
    (∀ g ∈ good, ∃ w' m, g = .reply w' m ∧ w' < 2 ^ s.cfg.bufBits ∧ 1 ≤ m ∧ m ≤ s.cfg.bufBits) →
    (inputBits s.cfg good).length < s.cfg.rangeBits →
    exec .decStart s = .next { s with
      dec := { phase := .fault, cause := some .esource, lower := 0, upper := s.cfg.rangeMax,
               range := s.cfg.rangeMax, window := bitsValue (inputBits s.cfg good), exhausted := false,
               buf := 0, left := 0, total := 0, scaled := 0 }
      source := ⟨rest, s.source.fills + good.length + 1⟩
      faults := s.faults ++ [⟨.dec, .esource⟩], responses := s.responses ++ [⟨.esource, 0⟩] }) ∧
  (∀ (s t : State) (pl pu pt : Nat), s.Inv → exec (.decNarrow pl pu pt) s = .next t →
    t.responses = s.responses ++ [⟨.esource, 0⟩] →
    t.dec.phase = .fault ∧ t.dec.cause = some .esource ∧ t.dec.range = s.dec.range ∧
    t.dec.buf = 0 ∧ t.dec.left = 0 ∧ t.dec.exhausted = false) ∧
  (∀ (s : State) (pl pu pt w n : Nat) (rest : List SourceReply) (k : RenormCase),
    s.dec.phase = .scaled → NarrowOk s.cfg s.dec pl pu pt →
    s.dec.exhausted = false → s.dec.left = 0 →
    s.source.replies = .reply w n :: rest → s.cfg.bufBits < n →
    let nl := s.dec.lower + s.dec.range * pl / pt
    let nu := s.dec.lower + s.dec.range * pu / pt
    classify s.cfg nl nu = some k →
    exec (.decNarrow pl pu pt) s = .next { s with
      dec := { s.dec with
        lower := transformBound s.cfg k nl, upper := transformBound s.cfg k nu
        phase := .fault, cause := some .esource }
      source := ⟨rest, s.source.fills + 1⟩
      faults := s.faults ++ [⟨.dec, .esource⟩], responses := s.responses ++ [⟨.esource, 0⟩] })

/-- Rules R54, R64 and R144: what DEC answers, and every register but its input buffer, depends on the
input bit stream alone: not on its cut into units, and a 1 bit past the end is filler. -/
def Obligations.DecodingIgnoresTheCutIntoUnits : Prop :=
  ∀ (commands : List Instr) (s s' : State),
    s.cfg = s'.cfg → s.responses = s'.responses →
    (∀ r ∈ s.source.replies, r.fitsPort s.cfg = true) → s.source.KeepsContract s.cfg →
    (∀ r ∈ s'.source.replies, r.fitsPort s'.cfg = true) → s'.source.KeepsContract s'.cfg →
    (∀ k, (inputBits s.cfg s.source.replies).getD k true =
      (inputBits s'.cfg s'.source.replies).getD k true) →
    (∀ i ∈ commands, i.opcode = 0x21 ∨ i.opcode = 0x22) →
    ∃ t t', runCommands (.decStart :: commands) s = .next t ∧
      runCommands (.decStart :: commands) s' = .next t' ∧ t.responses = t'.responses ∧
      t'.dec = { t.dec with
        exhausted := t'.dec.exhausted, buf := t'.dec.buf, left := t'.dec.left }

/-! ### Both units -/

/-- Rule R139: the units start with equal intervals, and the same interval `Prob` takes equal intervals
to equal intervals. -/
def Obligations.EncoderAndDecoderStayInLockstep : Prop :=
  (∀ s u t v : State, s.cfg = u.cfg → exec .encStart s = .next t → exec .decStart u = .next v →
    v.responses = u.responses ++ [⟨.ok, 0⟩] →
    t.enc.lower = v.dec.lower ∧ t.enc.upper = v.dec.upper ∧ t.enc.range = v.dec.range) ∧
  (∀ (s u t v : State) (pl pu pt : Nat), s.cfg = u.cfg →
    s.enc.lower = u.dec.lower → s.enc.upper = u.dec.upper → s.enc.range = u.dec.range →
    exec (.encPut pl pu pt) s = .next t → t.responses = s.responses ++ [⟨.ok, 0⟩] →
    exec (.decNarrow pl pu pt) u = .next v → v.responses = u.responses ++ [⟨.ok, 0⟩] →
    t.enc.lower = v.dec.lower ∧ t.enc.upper = v.dec.upper ∧ t.enc.range = v.dec.range)

/-- Rule R140, the property the source requires: what ENC encodes with a fixed table, DEC decodes, for
every parameter set, every table, every sequence of symbols, every cut of the bits into units and any
number of 1 bits after them. -/
def Obligations.DecodingRecoversWhatWasEncoded : Prop :=
  ∀ (s t u : State) (table : List Prob) (total : Nat) (symbols : List Nat),
    tableFrom s.cfg total 0 table = true → s.sink.units = [] →
    encodeSymbols table symbols s = some t →
    u.cfg = s.cfg → (∀ r ∈ u.source.replies, r.fitsPort u.cfg = true) →
    TransportDelivers u.cfg t.sink.units u.source →
    decodeSymbols table total symbols.length u = some symbols
end

