-- ==== Sys2Proof/Laws/Assembly.lean ====
section
/-!
SUPPORT. What the assembler's parts do: comments, digits, the well-formedness of what is assembled.
-/

namespace Sys2Proof.Machine

theorem stripComment_append_comment (line comment : List Char) :
    stripComment (line ++ ';' :: comment) = stripComment line := by
  induction line with
  | nil => rfl
  | cons c rest ih => simp_all [stripComment, List.takeWhile_cons]

theorem readDigits_append (base value : Nat) (xs ys : List Char) :
    readDigits base value (xs ++ ys) =
      (readDigits base value xs).bind fun v => readDigits base v ys := by
  induction xs generalizing value with
  | nil => rfl
  | cons c rest ih => simp [readDigits, ih, Option.bind_assoc]

theorem digitValue_digitChar :
    (∀ d < 10, digitValue 10 (Nat.digitChar d) = some d) ∧
    (∀ d < 16, digitValue 16 (Nat.digitChar d) = some d) := by decide

/-- A digit is no blank, no comma and starts no comment. -/
theorem digitChar_isPlain : ∀ d < 16, isBlank (Nat.digitChar d) = false ∧ Nat.digitChar d ≠ ',' ∧
    Nat.digitChar d ≠ ';' ∧ Nat.digitChar d ≠ 'x' := by decide

theorem assembleLine_eq_some {line : List Char} {i : Instr} (h : assembleLine line = some i) :
    let text := trimBlanks (stripComment line)
    let mnemonic := text.takeWhile fun c => !isBlank c
    commandOfText mnemonic (operandTexts (text.drop mnemonic.length)) = some i ∧
      i.wellFormed = true := by
  simpa [assembleLine, Option.filter_eq_some_iff] using h

end Sys2Proof.Machine
end

