-- ==== Sys2Proof/Laws/Interval.lean ====
section
/-!
SUPPORT. The derived constants in terms of QUARTER, and what each interval primitive does.
Provers cite these; with them every fact about a bound is linear in `c.quarter`.
-/

namespace Sys2Proof

theorem Config.rangeMax_eq_four_quarters (c : Config) : c.rangeMax = 4 * c.quarter := by
  have h := c.freq_le_range
  obtain ⟨k, hk⟩ : ∃ k, c.rangeBits = k + 2 := ⟨c.rangeBits - 2, by omega⟩
  simp only [Config.quarter, Config.rangeMax, hk, pow_add]
  omega

theorem Config.half_eq_two_quarters (c : Config) : c.half = 2 * c.quarter := by
  have := c.rangeMax_eq_four_quarters
  simp only [Config.half]
  omega

theorem Config.threeQuarters_eq (c : Config) : c.threeQuarters = 3 * c.quarter := rfl

theorem Config.quarter_eq_pow (c : Config) : c.quarter = 2 ^ (c.rangeBits - 2) := by
  have h := c.freq_le_range
  obtain ⟨k, hk⟩ : ∃ k, c.rangeBits = k + 2 := ⟨c.rangeBits - 2, by omega⟩
  simp only [Config.quarter, Config.rangeMax, hk, pow_add]
  simp

theorem Config.two_le_quarter (c : Config) : 2 ≤ c.quarter := by
  have h := c.freq_le_range
  have h1 := c.freq_pos
  rw [c.quarter_eq_pow]
  calc 2 = 2 ^ 1 := rfl
    _ ≤ 2 ^ (c.rangeBits - 2) := Nat.pow_le_pow_right (by decide) (by omega)

theorem Config.succ_freqMax (c : Config) : c.freqMax + 1 = 2 ^ c.freqBits := by
  have : 0 < 2 ^ c.freqBits := by positivity
  simp only [Config.freqMax]
  omega

theorem Config.succ_pendingMax (c : Config) : c.pendingMax + 1 = 2 ^ c.pendingBits := by
  have : 0 < 2 ^ c.pendingBits := by positivity
  simp only [Config.pendingMax]
  omega

theorem Config.two_pow_freqBits_le_quarter (c : Config) : 2 ^ c.freqBits ≤ c.quarter := by
  have h := c.freq_le_range
  rw [c.quarter_eq_pow]
  exact Nat.pow_le_pow_right (by decide) (by omega)

theorem Config.two_mul_rangeMax_le (c : Config) : 2 * c.rangeMax ≤ 2 ^ 63 := by
  have h := c.range_le
  calc 2 * c.rangeMax = 2 ^ (c.rangeBits + 1) := by simp only [Config.rangeMax, pow_succ]; ring
    _ ≤ 2 ^ 63 := Nat.pow_le_pow_right (by decide) (by omega)

namespace Machine

@[simp] theorem narrow_fst (l r pl pu pt : Nat) : (narrow l r pl pu pt).1 = l + r * pl / pt := rfl
@[simp] theorem narrow_snd (l r pl pu pt : Nat) : (narrow l r pl pu pt).2 = l + r * pu / pt := rfl
@[simp] theorem caseOffset_e1 (c : Config) : caseOffset c .e1 = 0 := rfl
@[simp] theorem caseOffset_e2 (c : Config) : caseOffset c .e2 = c.half := rfl
@[simp] theorem caseOffset_e3 (c : Config) : caseOffset c .e3 = c.quarter := rfl
@[simp] theorem transformBound_eq (c : Config) (k : RenormCase) (b : Nat) :
    transformBound c k b = 2 * (b - caseOffset c k) := rfl

/-- Everything `classify` can answer, with what the answer says of the bounds. -/
theorem classify_cases (c : Config) (l u : Nat) :
    (classify c l u = some .e1 ∧ u ≤ c.half) ∨
    (classify c l u = some .e2 ∧ c.half < u ∧ c.half ≤ l) ∨
    (classify c l u = some .e3 ∧ c.half < u ∧ l < c.half ∧ c.quarter ≤ l ∧ u ≤ c.threeQuarters) ∨
    (classify c l u = none ∧ c.half < u ∧ l < c.half ∧ (l < c.quarter ∨ c.threeQuarters < u)) := by
  simp only [classify]
  split
  · exact .inl ⟨rfl, ‹_›⟩
  · split
    · exact .inr (.inl ⟨rfl, by omega, ‹_›⟩)
    · split
      · exact .inr (.inr (.inl ⟨rfl, by omega, by omega, by omega, by omega⟩))
      · exact .inr (.inr (.inr ⟨rfl, by omega, by omega, by omega⟩))

/-- A renormalization case is taken on an interval that lies in one window of width HALF, which begins
at the case's offset. -/
theorem window_of_classify {c : Config} {l u : Nat} {k : RenormCase} (_hlu : l < u)
    (hu : u ≤ c.rangeMax) (h : classify c l u = some k) :
    caseOffset c k ≤ l ∧ u ≤ caseOffset c k + c.half := by
  have h4 := c.rangeMax_eq_four_quarters
  have h2 := c.half_eq_two_quarters
  have h3 := c.threeQuarters_eq
  rcases classify_cases c l u with ⟨e, _⟩ | ⟨e, _, _⟩ | ⟨e, _, _, _, _⟩ | ⟨e, _⟩ <;>
    rw [e] at h <;> cases h <;> simp only [caseOffset] <;> omega

/-- One iteration keeps a legal interval legal and doubles its width. -/
theorem transform_of_classify {c : Config} {l u : Nat} {k : RenormCase} (hlu : l < u)
    (hu : u ≤ c.rangeMax) (h : classify c l u = some k) :
    transformBound c k l < transformBound c k u ∧ transformBound c k u ≤ c.rangeMax ∧
    transformBound c k u - transformBound c k l = 2 * (u - l) := by
  have hw := window_of_classify hlu hu h
  have h4 := c.rangeMax_eq_four_quarters
  have h2 := c.half_eq_two_quarters
  simp only [transformBound]
  omega

/-- The value FSC computes is at least `x` exactly when the numerator reaches `x` ranges. -/
theorem le_freqScale_iff_mul_le {v r t x : Nat} (hr : 0 < r) :
    x ≤ freqScale v r t ↔ x * r ≤ (v + 1) * t - 1 := by
  simp only [freqScale]
  exact Nat.le_div_iff_mul_le hr

end Machine

end Sys2Proof
end

