-- ==== Sys2Proof/Laws/State.lean ====
section
/-!
SUPPORT. One lemma per field per update of the state, each true by definition, so that no proof
unfolds a record update.
-/

namespace Sys2Proof.Machine

@[simp] theorem respond_cfg (s : State) (k : Code) (v : Nat) : (s.respond k v).cfg = s.cfg := rfl
@[simp] theorem respond_enc (s : State) (k : Code) (v : Nat) : (s.respond k v).enc = s.enc := rfl
@[simp] theorem respond_dec (s : State) (k : Code) (v : Nat) : (s.respond k v).dec = s.dec := rfl
@[simp] theorem respond_sink (s : State) (k : Code) (v : Nat) : (s.respond k v).sink = s.sink := rfl
@[simp] theorem respond_source (s : State) (k : Code) (v : Nat) : (s.respond k v).source = s.source := rfl
@[simp] theorem respond_inbox (s : State) (k : Code) (v : Nat) : (s.respond k v).inbox = s.inbox := rfl
@[simp] theorem respond_faults (s : State) (k : Code) (v : Nat) : (s.respond k v).faults = s.faults := rfl
@[simp] theorem respond_responses (s : State) (k : Code) (v : Nat) :
    (s.respond k v).responses = s.responses ++ [⟨k, BitVec.ofNat 64 v⟩] := rfl
@[simp] theorem raiseEnc_cfg (s : State) (f : StreamFault) : (s.raiseEnc f).cfg = s.cfg := rfl
@[simp] theorem raiseEnc_dec (s : State) (f : StreamFault) : (s.raiseEnc f).dec = s.dec := rfl
@[simp] theorem raiseEnc_sink (s : State) (f : StreamFault) : (s.raiseEnc f).sink = s.sink := rfl
@[simp] theorem raiseEnc_source (s : State) (f : StreamFault) : (s.raiseEnc f).source = s.source := rfl
@[simp] theorem raiseEnc_inbox (s : State) (f : StreamFault) : (s.raiseEnc f).inbox = s.inbox := rfl
@[simp] theorem raiseEnc_enc (s : State) (f : StreamFault) :
    (s.raiseEnc f).enc = { s.enc with phase := .fault, cause := some f } := rfl
@[simp] theorem raiseEnc_responses (s : State) (f : StreamFault) :
    (s.raiseEnc f).responses = s.responses ++ [⟨f.toCode, 0⟩] := rfl
@[simp] theorem raiseEnc_faults (s : State) (f : StreamFault) :
    (s.raiseEnc f).faults = s.faults ++ [⟨.enc, f⟩] := rfl
@[simp] theorem raiseDec_cfg (s : State) (f : StreamFault) : (s.raiseDec f).cfg = s.cfg := rfl
@[simp] theorem raiseDec_enc (s : State) (f : StreamFault) : (s.raiseDec f).enc = s.enc := rfl
@[simp] theorem raiseDec_sink (s : State) (f : StreamFault) : (s.raiseDec f).sink = s.sink := rfl
@[simp] theorem raiseDec_source (s : State) (f : StreamFault) : (s.raiseDec f).source = s.source := rfl
@[simp] theorem raiseDec_inbox (s : State) (f : StreamFault) : (s.raiseDec f).inbox = s.inbox := rfl
@[simp] theorem raiseDec_dec (s : State) (f : StreamFault) :
    (s.raiseDec f).dec = { s.dec with phase := .fault, cause := some f } := rfl
@[simp] theorem raiseDec_responses (s : State) (f : StreamFault) :
    (s.raiseDec f).responses = s.responses ++ [⟨f.toCode, 0⟩] := rfl
@[simp] theorem raiseDec_faults (s : State) (f : StreamFault) :
    (s.raiseDec f).faults = s.faults ++ [⟨.dec, f⟩] := rfl
@[simp] theorem afterReset_cfg (s : State) : s.afterReset.cfg = s.cfg := rfl
@[simp] theorem afterReset_enc (s : State) : s.afterReset.enc = Enc.reset := rfl
@[simp] theorem afterReset_dec (s : State) : s.afterReset.dec = Dec.reset := rfl
@[simp] theorem afterReset_sink (s : State) : s.afterReset.sink = s.sink := rfl
@[simp] theorem afterReset_source (s : State) : s.afterReset.source = s.source := rfl
@[simp] theorem afterReset_inbox (s : State) : s.afterReset.inbox = s.inbox := rfl
@[simp] theorem afterReset_responses (s : State) : s.afterReset.responses = s.responses := rfl
@[simp] theorem afterReset_faults (s : State) : s.afterReset.faults = s.faults := rfl
@[simp] theorem withEncPath_cfg (s : State) (e : EncPath) : (s.withEncPath e).cfg = s.cfg := rfl
@[simp] theorem withEncPath_enc (s : State) (e : EncPath) : (s.withEncPath e).enc = e.reg := rfl
@[simp] theorem withEncPath_dec (s : State) (e : EncPath) : (s.withEncPath e).dec = s.dec := rfl
@[simp] theorem withEncPath_sink (s : State) (e : EncPath) : (s.withEncPath e).sink = e.sink := rfl
@[simp] theorem withEncPath_source (s : State) (e : EncPath) : (s.withEncPath e).source = s.source := rfl
@[simp] theorem withEncPath_inbox (s : State) (e : EncPath) : (s.withEncPath e).inbox = s.inbox := rfl
@[simp] theorem withEncPath_responses (s : State) (e : EncPath) : (s.withEncPath e).responses = s.responses := rfl
@[simp] theorem withEncPath_faults (s : State) (e : EncPath) : (s.withEncPath e).faults = s.faults := rfl
@[simp] theorem encPath_reg (s : State) : s.encPath.reg = s.enc := rfl
@[simp] theorem encPath_sink (s : State) : s.encPath.sink = s.sink := rfl
@[simp] theorem withDecPath_cfg (s : State) (d : DecPath) : (s.withDecPath d).cfg = s.cfg := rfl
@[simp] theorem withDecPath_enc (s : State) (d : DecPath) : (s.withDecPath d).enc = s.enc := rfl
@[simp] theorem withDecPath_dec (s : State) (d : DecPath) : (s.withDecPath d).dec = d.reg := rfl
@[simp] theorem withDecPath_sink (s : State) (d : DecPath) : (s.withDecPath d).sink = s.sink := rfl
@[simp] theorem withDecPath_source (s : State) (d : DecPath) : (s.withDecPath d).source = d.source := rfl
@[simp] theorem withDecPath_inbox (s : State) (d : DecPath) : (s.withDecPath d).inbox = s.inbox := rfl
@[simp] theorem withDecPath_responses (s : State) (d : DecPath) : (s.withDecPath d).responses = s.responses := rfl
@[simp] theorem withDecPath_faults (s : State) (d : DecPath) : (s.withDecPath d).faults = s.faults := rfl
@[simp] theorem decPath_reg (s : State) : s.decPath.reg = s.dec := rfl
@[simp] theorem decPath_source (s : State) : s.decPath.source = s.source := rfl
@[simp] theorem withFetchWord_cfg (s : State) (n w : Nat) : (s.withFetchWord n w).cfg = s.cfg := rfl
@[simp] theorem withFetchWord_enc (s : State) (n w : Nat) : (s.withFetchWord n w).enc = s.enc := rfl
@[simp] theorem withFetchWord_dec (s : State) (n w : Nat) : (s.withFetchWord n w).dec = s.dec := rfl
@[simp] theorem withFetchWord_sink (s : State) (n w : Nat) : (s.withFetchWord n w).sink = s.sink := rfl
@[simp] theorem withFetchWord_source (s : State) (n w : Nat) : (s.withFetchWord n w).source = s.source := rfl
@[simp] theorem withFetchWord_inbox (s : State) (n w : Nat) :
    (s.withFetchWord n w).inbox = .command (BitVec.ofNat 256 (w % 2 ^ n)) :: s.inbox := rfl
@[simp] theorem withFetchWord_responses (s : State) (n w : Nat) : (s.withFetchWord n w).responses = s.responses := rfl
@[simp] theorem withFetchWord_faults (s : State) (n w : Nat) : (s.withFetchWord n w).faults = s.faults := rfl
@[simp] theorem encPath_transform_phase (e : EncPath) (c : Config) (k : RenormCase) :
    (e.transform c k).reg.phase = e.reg.phase := rfl
@[simp] theorem encPath_transform_cause (e : EncPath) (c : Config) (k : RenormCase) :
    (e.transform c k).reg.cause = e.reg.cause := rfl
@[simp] theorem encPath_transform_lower (e : EncPath) (c : Config) (k : RenormCase) :
    (e.transform c k).reg.lower = transformBound c k e.reg.lower := rfl
@[simp] theorem encPath_transform_upper (e : EncPath) (c : Config) (k : RenormCase) :
    (e.transform c k).reg.upper = transformBound c k e.reg.upper := rfl
@[simp] theorem encPath_transform_range (e : EncPath) (c : Config) (k : RenormCase) :
    (e.transform c k).reg.range = e.reg.range := rfl
@[simp] theorem encPath_transform_pending (e : EncPath) (c : Config) (k : RenormCase) :
    (e.transform c k).reg.pending = e.reg.pending := rfl
@[simp] theorem encPath_transform_buf (e : EncPath) (c : Config) (k : RenormCase) :
    (e.transform c k).reg.buf = e.reg.buf := rfl
@[simp] theorem encPath_transform_fill (e : EncPath) (c : Config) (k : RenormCase) :
    (e.transform c k).reg.fill = e.reg.fill := rfl
@[simp] theorem encPath_transform_sink (e : EncPath) (c : Config) (k : RenormCase) : (e.transform c k).sink = e.sink := rfl
@[simp] theorem encPath_narrow_phase (e : EncPath) (pl pu pt : Nat) :
    (e.narrow pl pu pt).reg.phase = e.reg.phase := rfl
@[simp] theorem encPath_narrow_cause (e : EncPath) (pl pu pt : Nat) :
    (e.narrow pl pu pt).reg.cause = e.reg.cause := rfl
@[simp] theorem encPath_narrow_lower (e : EncPath) (pl pu pt : Nat) :
    (e.narrow pl pu pt).reg.lower = e.reg.lower + e.reg.range * pl / pt := rfl
@[simp] theorem encPath_narrow_upper (e : EncPath) (pl pu pt : Nat) :
    (e.narrow pl pu pt).reg.upper = e.reg.lower + e.reg.range * pu / pt := rfl
@[simp] theorem encPath_narrow_range (e : EncPath) (pl pu pt : Nat) :
    (e.narrow pl pu pt).reg.range = e.reg.range := rfl
@[simp] theorem encPath_narrow_pending (e : EncPath) (pl pu pt : Nat) :
    (e.narrow pl pu pt).reg.pending = e.reg.pending := rfl
@[simp] theorem encPath_narrow_buf (e : EncPath) (pl pu pt : Nat) :
    (e.narrow pl pu pt).reg.buf = e.reg.buf := rfl
@[simp] theorem encPath_narrow_fill (e : EncPath) (pl pu pt : Nat) :
    (e.narrow pl pu pt).reg.fill = e.reg.fill := rfl
@[simp] theorem encPath_narrow_sink (e : EncPath) (pl pu pt : Nat) : (e.narrow pl pu pt).sink = e.sink := rfl
@[simp] theorem encPath_updateRange_phase (e : EncPath) :
    e.updateRange.reg.phase = e.reg.phase := rfl
@[simp] theorem encPath_updateRange_cause (e : EncPath) :
    e.updateRange.reg.cause = e.reg.cause := rfl
@[simp] theorem encPath_updateRange_lower (e : EncPath) :
    e.updateRange.reg.lower = e.reg.lower := rfl
@[simp] theorem encPath_updateRange_upper (e : EncPath) :
    e.updateRange.reg.upper = e.reg.upper := rfl
@[simp] theorem encPath_updateRange_range (e : EncPath) :
    e.updateRange.reg.range = e.reg.upper - e.reg.lower := rfl
@[simp] theorem encPath_updateRange_pending (e : EncPath) :
    e.updateRange.reg.pending = e.reg.pending := rfl
@[simp] theorem encPath_updateRange_buf (e : EncPath) :
    e.updateRange.reg.buf = e.reg.buf := rfl
@[simp] theorem encPath_updateRange_fill (e : EncPath) :
    e.updateRange.reg.fill = e.reg.fill := rfl
@[simp] theorem encPath_updateRange_sink (e : EncPath) : e.updateRange.sink = e.sink := rfl
@[simp] theorem decPath_transform_phase (d : DecPath) (c : Config) (k : RenormCase) :
    (d.transform c k).reg.phase = d.reg.phase := rfl
@[simp] theorem decPath_transform_cause (d : DecPath) (c : Config) (k : RenormCase) :
    (d.transform c k).reg.cause = d.reg.cause := rfl
@[simp] theorem decPath_transform_lower (d : DecPath) (c : Config) (k : RenormCase) :
    (d.transform c k).reg.lower = transformBound c k d.reg.lower := rfl
@[simp] theorem decPath_transform_upper (d : DecPath) (c : Config) (k : RenormCase) :
    (d.transform c k).reg.upper = transformBound c k d.reg.upper := rfl
@[simp] theorem decPath_transform_range (d : DecPath) (c : Config) (k : RenormCase) :
    (d.transform c k).reg.range = d.reg.range := rfl
@[simp] theorem decPath_transform_window (d : DecPath) (c : Config) (k : RenormCase) :
    (d.transform c k).reg.window = d.reg.window := rfl
@[simp] theorem decPath_transform_exhausted (d : DecPath) (c : Config) (k : RenormCase) :
    (d.transform c k).reg.exhausted = d.reg.exhausted := rfl
@[simp] theorem decPath_transform_buf (d : DecPath) (c : Config) (k : RenormCase) :
    (d.transform c k).reg.buf = d.reg.buf := rfl
@[simp] theorem decPath_transform_left (d : DecPath) (c : Config) (k : RenormCase) :
    (d.transform c k).reg.left = d.reg.left := rfl
@[simp] theorem decPath_transform_total (d : DecPath) (c : Config) (k : RenormCase) :
    (d.transform c k).reg.total = d.reg.total := rfl
@[simp] theorem decPath_transform_scaled (d : DecPath) (c : Config) (k : RenormCase) :
    (d.transform c k).reg.scaled = d.reg.scaled := rfl
@[simp] theorem decPath_transform_source (d : DecPath) (c : Config) (k : RenormCase) : (d.transform c k).source = d.source := rfl
@[simp] theorem decPath_narrow_phase (d : DecPath) (pl pu pt : Nat) :
    (d.narrow pl pu pt).reg.phase = d.reg.phase := rfl
@[simp] theorem decPath_narrow_cause (d : DecPath) (pl pu pt : Nat) :
    (d.narrow pl pu pt).reg.cause = d.reg.cause := rfl
@[simp] theorem decPath_narrow_lower (d : DecPath) (pl pu pt : Nat) :
    (d.narrow pl pu pt).reg.lower = d.reg.lower + d.reg.range * pl / pt := rfl
@[simp] theorem decPath_narrow_upper (d : DecPath) (pl pu pt : Nat) :
    (d.narrow pl pu pt).reg.upper = d.reg.lower + d.reg.range * pu / pt := rfl
@[simp] theorem decPath_narrow_range (d : DecPath) (pl pu pt : Nat) :
    (d.narrow pl pu pt).reg.range = d.reg.range := rfl
@[simp] theorem decPath_narrow_window (d : DecPath) (pl pu pt : Nat) :
    (d.narrow pl pu pt).reg.window = d.reg.window := rfl
@[simp] theorem decPath_narrow_exhausted (d : DecPath) (pl pu pt : Nat) :
    (d.narrow pl pu pt).reg.exhausted = d.reg.exhausted := rfl
@[simp] theorem decPath_narrow_buf (d : DecPath) (pl pu pt : Nat) :
    (d.narrow pl pu pt).reg.buf = d.reg.buf := rfl
@[simp] theorem decPath_narrow_left (d : DecPath) (pl pu pt : Nat) :
    (d.narrow pl pu pt).reg.left = d.reg.left := rfl
@[simp] theorem decPath_narrow_total (d : DecPath) (pl pu pt : Nat) :
    (d.narrow pl pu pt).reg.total = d.reg.total := rfl
@[simp] theorem decPath_narrow_scaled (d : DecPath) (pl pu pt : Nat) :
    (d.narrow pl pu pt).reg.scaled = d.reg.scaled := rfl
@[simp] theorem decPath_narrow_source (d : DecPath) (pl pu pt : Nat) : (d.narrow pl pu pt).source = d.source := rfl
@[simp] theorem decPath_updateRange_phase (d : DecPath) :
    d.updateRange.reg.phase = d.reg.phase := rfl
@[simp] theorem decPath_updateRange_cause (d : DecPath) :
    d.updateRange.reg.cause = d.reg.cause := rfl
@[simp] theorem decPath_updateRange_lower (d : DecPath) :
    d.updateRange.reg.lower = d.reg.lower := rfl
@[simp] theorem decPath_updateRange_upper (d : DecPath) :
    d.updateRange.reg.upper = d.reg.upper := rfl
@[simp] theorem decPath_updateRange_range (d : DecPath) :
    d.updateRange.reg.range = d.reg.upper - d.reg.lower := rfl
@[simp] theorem decPath_updateRange_window (d : DecPath) :
    d.updateRange.reg.window = d.reg.window := rfl
@[simp] theorem decPath_updateRange_exhausted (d : DecPath) :
    d.updateRange.reg.exhausted = d.reg.exhausted := rfl
@[simp] theorem decPath_updateRange_buf (d : DecPath) :
    d.updateRange.reg.buf = d.reg.buf := rfl
@[simp] theorem decPath_updateRange_left (d : DecPath) :
    d.updateRange.reg.left = d.reg.left := rfl
@[simp] theorem decPath_updateRange_total (d : DecPath) :
    d.updateRange.reg.total = d.reg.total := rfl
@[simp] theorem decPath_updateRange_scaled (d : DecPath) :
    d.updateRange.reg.scaled = d.reg.scaled := rfl
@[simp] theorem decPath_updateRange_source (d : DecPath) : d.updateRange.source = d.source := rfl
@[simp] theorem encPath_setPending_phase (e : EncPath) (p : Nat) :
    (e.setPending p).reg.phase = e.reg.phase := rfl
@[simp] theorem encPath_setPending_cause (e : EncPath) (p : Nat) :
    (e.setPending p).reg.cause = e.reg.cause := rfl
@[simp] theorem encPath_setPending_lower (e : EncPath) (p : Nat) :
    (e.setPending p).reg.lower = e.reg.lower := rfl
@[simp] theorem encPath_setPending_upper (e : EncPath) (p : Nat) :
    (e.setPending p).reg.upper = e.reg.upper := rfl
@[simp] theorem encPath_setPending_range (e : EncPath) (p : Nat) :
    (e.setPending p).reg.range = e.reg.range := rfl
@[simp] theorem encPath_setPending_pending (e : EncPath) (p : Nat) :
    (e.setPending p).reg.pending = p := rfl
@[simp] theorem encPath_setPending_buf (e : EncPath) (p : Nat) :
    (e.setPending p).reg.buf = e.reg.buf := rfl
@[simp] theorem encPath_setPending_fill (e : EncPath) (p : Nat) :
    (e.setPending p).reg.fill = e.reg.fill := rfl
@[simp] theorem encPath_setPending_sink (e : EncPath) (p : Nat) : (e.setPending p).sink = e.sink := rfl
@[simp] theorem encPath_close_phase (e : EncPath) :
    e.close.reg.phase = .idle := rfl
@[simp] theorem encPath_close_cause (e : EncPath) :
    e.close.reg.cause = e.reg.cause := rfl
@[simp] theorem encPath_close_lower (e : EncPath) :
    e.close.reg.lower = e.reg.lower := rfl
@[simp] theorem encPath_close_upper (e : EncPath) :
    e.close.reg.upper = e.reg.upper := rfl
@[simp] theorem encPath_close_range (e : EncPath) :
    e.close.reg.range = e.reg.range := rfl
@[simp] theorem encPath_close_pending (e : EncPath) :
    e.close.reg.pending = e.reg.pending := rfl
@[simp] theorem encPath_close_buf (e : EncPath) :
    e.close.reg.buf = e.reg.buf := rfl
@[simp] theorem encPath_close_fill (e : EncPath) :
    e.close.reg.fill = e.reg.fill := rfl
@[simp] theorem encPath_close_sink (e : EncPath) : e.close.sink = e.sink := rfl
@[simp] theorem decPath_setPhase_phase (d : DecPath) (p : Phase) :
    (d.setPhase p).reg.phase = p := rfl
@[simp] theorem decPath_setPhase_cause (d : DecPath) (p : Phase) :
    (d.setPhase p).reg.cause = d.reg.cause := rfl
@[simp] theorem decPath_setPhase_lower (d : DecPath) (p : Phase) :
    (d.setPhase p).reg.lower = d.reg.lower := rfl
@[simp] theorem decPath_setPhase_upper (d : DecPath) (p : Phase) :
    (d.setPhase p).reg.upper = d.reg.upper := rfl
@[simp] theorem decPath_setPhase_range (d : DecPath) (p : Phase) :
    (d.setPhase p).reg.range = d.reg.range := rfl
@[simp] theorem decPath_setPhase_window (d : DecPath) (p : Phase) :
    (d.setPhase p).reg.window = d.reg.window := rfl
@[simp] theorem decPath_setPhase_exhausted (d : DecPath) (p : Phase) :
    (d.setPhase p).reg.exhausted = d.reg.exhausted := rfl
@[simp] theorem decPath_setPhase_buf (d : DecPath) (p : Phase) :
    (d.setPhase p).reg.buf = d.reg.buf := rfl
@[simp] theorem decPath_setPhase_left (d : DecPath) (p : Phase) :
    (d.setPhase p).reg.left = d.reg.left := rfl
@[simp] theorem decPath_setPhase_total (d : DecPath) (p : Phase) :
    (d.setPhase p).reg.total = d.reg.total := rfl
@[simp] theorem decPath_setPhase_scaled (d : DecPath) (p : Phase) :
    (d.setPhase p).reg.scaled = d.reg.scaled := rfl
@[simp] theorem decPath_setPhase_source (d : DecPath) (p : Phase) : (d.setPhase p).source = d.source := rfl

end Sys2Proof.Machine
end

