-- ==== Sys2Proof/Laws/Ops.lean ====
section
/-!
SUPPORT. For each shared operation, everything it can do: sequencing, the ports, the two ends of a
command, and the placement of bits in a buffer.
-/

namespace Sys2Proof.Machine

/-! ### Sequencing -/

section
variable {σ α β : Type}

@[simp] theorem andThen_done (a : α) (u : σ) (k : α → σ → Run σ β) : (Run.done a u).andThen k = k a u := rfl
@[simp] theorem andThen_raised (f : StreamFault) (u : σ) (k : α → σ → Run σ β) :
    (Run.raised f u).andThen k = .raised f u := rfl
@[simp] theorem andThen_stuck (f : Fault) (k : α → σ → Run σ β) :
    (Run.stuck f : Run σ α).andThen k = .stuck f := rfl

theorem andThen_eq_done {r : Run σ α} {k : α → σ → Run σ β} {b : β} {w : σ} :
    r.andThen k = .done b w ↔ ∃ a u, r = .done a u ∧ k a u = .done b w := by
  cases r <;> simp

theorem andThen_eq_raised {r : Run σ α} {k : α → σ → Run σ β} {f : StreamFault} {w : σ} :
    r.andThen k = .raised f w ↔ r = .raised f w ∨ ∃ a u, r = .done a u ∧ k a u = .raised f w := by
  cases r <;> simp

theorem andThen_eq_stuck {r : Run σ α} {k : α → σ → Run σ β} {f : Fault} :
    r.andThen k = .stuck f ↔ r = .stuck f ∨ ∃ a u, r = .done a u ∧ k a u = .stuck f := by
  cases r <;> simp

end

/-! ### The ends of a command -/

@[simp] theorem answer_eq (s : State) (k : Code) (v : Nat) : s.answer k v = .next (s.respond k v) := rfl

@[simp] theorem endEnc_done (s : State) (a : Unit) (e : EncPath) :
    s.endEnc (.done a e) = .next ((s.withEncPath e).respond .ok 0) := rfl
@[simp] theorem endEnc_raised (s : State) (f : StreamFault) (e : EncPath) :
    s.endEnc (.raised f e) = .next ((s.withEncPath e).raiseEnc f) := rfl
@[simp] theorem endEnc_stuck (s : State) (f : Fault) : s.endEnc (.stuck f) = .fault f := rfl

@[simp] theorem endDec_done (s : State) (a : Unit) (d : DecPath) :
    s.endDec (.done a d) = .next ((s.withDecPath d).respond .ok 0) := rfl
@[simp] theorem endDec_raised (s : State) (f : StreamFault) (d : DecPath) :
    s.endDec (.raised f d) = .next ((s.withDecPath d).raiseDec f) := rfl
@[simp] theorem endDec_stuck (s : State) (f : Fault) : s.endDec (.stuck f) = .fault f := rfl

/-- The two ways a command of ENC that ran its primitives reaches a next state. -/
theorem endEnc_eq_next {s t : State} {r : Run EncPath Unit} (h : s.endEnc r = .next t) :
    (∃ e, r = .done () e ∧ t = (s.withEncPath e).respond .ok 0) ∨
    (∃ f e, r = .raised f e ∧ t = (s.withEncPath e).raiseEnc f) := by
  cases r with
  | done a e => exact .inl ⟨e, rfl, by simpa using h.symm⟩
  | raised f e => exact .inr ⟨f, e, rfl, by simpa using h.symm⟩
  | stuck f => simp at h

/-- The two ways a command of DEC that ran its primitives reaches a next state. -/
theorem endDec_eq_next {s t : State} {r : Run DecPath Unit} (h : s.endDec r = .next t) :
    (∃ d, r = .done () d ∧ t = (s.withDecPath d).respond .ok 0) ∨
    (∃ f d, r = .raised f d ∧ t = (s.withDecPath d).raiseDec f) := by
  cases r with
  | done a d => exact .inl ⟨d, rfl, by simpa using h.symm⟩
  | raised f d => exact .inr ⟨f, d, rfl, by simpa using h.symm⟩
  | stuck f => simp at h

/-! ### The ports -/

/-- A SinkAccept that completes appends the unit and uses one place of the Sink's room. -/
theorem sinkAccept_eq_some {u : BitUnit} {k k' : Sink} (h : sinkAccept u k = some k') :
    k'.units = k.units ++ [u] ∧ k'.room = k.room.map (· - 1) ∧ k.room ≠ some 0 := by
  rcases k with ⟨us, _ | _ | n⟩ <;> simp_all [sinkAccept] <;> subst h <;> simp

theorem sinkAccept_eq_none {u : BitUnit} {k : Sink} : sinkAccept u k = none ↔ k.room = some 0 := by
  rcases k with ⟨us, _ | _ | n⟩ <;> simp [sinkAccept]

theorem sinkAccept_of_accepts {u : BitUnit} {k : Sink} (h : k.Accepts) :
    sinkAccept u k = some ⟨k.units ++ [u], none⟩ := by
  rcases k with ⟨us, _ | n⟩ <;> simp_all [sinkAccept, Sink.Accepts]

/-- Handing the buffer over clears it and appends one unit, or there is no step. -/
theorem handOver_cases (n : Nat) (e : EncPath) :
    (∃ k, sinkAccept ⟨e.reg.buf, n⟩ e.sink = some k ∧
      handOver n e = .done () ⟨{ e.reg with buf := 0, fill := 0 }, k⟩) ∨
    (e.sink.room = some 0 ∧ handOver n e = .stuck .sinkNeverAccepts) := by
  cases h : sinkAccept ⟨e.reg.buf, n⟩ e.sink with
  | none => exact .inr ⟨sinkAccept_eq_none.1 h, by simp [handOver, h]⟩
  | some k => exact .inl ⟨k, rfl, by simp [handOver, h]⟩

/-- Everything a SourceFill can do. -/
theorem sourceFill_cases (q : Source) :
    (q.replies = [] ∧ sourceFill q = some (⟨0, 0⟩, ⟨[], q.fills + 1⟩)) ∨
    (∃ w n rest, q.replies = .reply w n :: rest ∧
      sourceFill q = some (⟨w, n⟩, ⟨rest, q.fills + 1⟩)) ∨
    (∃ rest, q.replies = .never :: rest ∧ sourceFill q = none) := by
  rcases q with ⟨_ | ⟨_ | _, rest⟩, k⟩ <;> simp [sourceFill]

/-- A SourceFill that finds a reply does not depend on the replies after it. -/
theorem sourceFill_append {q : Source} (tail : List SourceReply) (h : q.replies ≠ []) :
    sourceFill { q with replies := q.replies ++ tail } =
      (sourceFill q).map fun r => (r.1, { r.2 with replies := r.2.replies ++ tail }) := by
  rcases q with ⟨_ | ⟨_ | _, rest⟩, k⟩ <;> simp_all [sourceFill]

/-! ### Bits of a buffer -/

/-- The bit that PutBit places comes after those placed before it. -/
theorem topBitList_placeBit {c : Config} {buf fill : Nat} (b : Bool) (hf : fill < c.bufBits)
    (hb : buf % 2 ^ (c.bufBits - fill) = 0) :
    topBitList c (buf + b.toNat * 2 ^ (c.bufBits - 1 - fill)) (fill + 1) =
      topBitList c buf fill ++ [b] := by
  obtain ⟨m, hm⟩ : ∃ m, c.bufBits = m + 1 + fill := ⟨c.bufBits - 1 - fill, by omega⟩
  have e1 : c.bufBits - fill = m + 1 := by omega
  have e2 : c.bufBits - 1 - fill = m := by omega
  rw [e1] at hb
  obtain ⟨q, rfl⟩ := Nat.dvd_of_mod_eq_zero hb
  have hlt : b.toNat * 2 ^ m < 2 ^ (m + 1) := by
    have := Bool.toNat_lt b
    have : 0 < 2 ^ m := by positivity
    rw [pow_succ]
    nlinarith
  simp only [topBitList, List.range_succ, List.map_append, List.map_cons, List.map_nil, e2]
  congr 1
  · refine List.map_congr_left fun k hk => ?_
    have hk : k < fill := List.mem_range.1 hk
    rw [Nat.testBit_two_pow_mul_add _ hlt, Nat.testBit_two_pow_mul]
    have h1 : ¬ c.bufBits - 1 - k < m + 1 := by omega
    have h2 : c.bufBits - 1 - k ≥ m + 1 := by omega
    simp [h1, h2]
  · rw [Nat.testBit_two_pow_mul_add _ hlt]
    cases b <;> simp

/-- The buffer that PutBit leaves is a buffer with one more valid bit. -/
theorem bufferOk_placeBit {c : Config} {buf fill : Nat} (b : Bool) (hf : fill < c.bufBits)
    (hb : BufferOk c buf fill) :
    BufferOk c (buf + b.toNat * 2 ^ (c.bufBits - 1 - fill)) (fill + 1) := by
  obtain ⟨hlt, hmod⟩ := hb
  obtain ⟨m, hm⟩ : ∃ m, c.bufBits = m + 1 + fill := ⟨c.bufBits - 1 - fill, by omega⟩
  have e1 : c.bufBits - fill = m + 1 := by omega
  have e2 : c.bufBits - 1 - fill = m := by omega
  have e3 : c.bufBits - (fill + 1) = m := by omega
  rw [e1] at hmod
  obtain ⟨q, rfl⟩ := Nat.dvd_of_mod_eq_zero hmod
  have hp : 0 < 2 ^ m := by positivity
  have hb1 : b.toNat ≤ 1 := Bool.toNat_le b
  refine ⟨?_, ?_⟩
  · rw [e2]
    have hB : (2 : Nat) ^ c.bufBits = 2 ^ (m + 1) * 2 ^ fill := by rw [hm, pow_add]
    rw [hB] at hlt ⊢
    have hq : q + 1 ≤ 2 ^ fill := Nat.lt_of_mul_lt_mul_left hlt
    calc 2 ^ (m + 1) * q + b.toNat * 2 ^ m < 2 ^ (m + 1) * (q + 1) := by
          rw [pow_succ]; nlinarith
      _ ≤ 2 ^ (m + 1) * 2 ^ fill := Nat.mul_le_mul_left _ hq
  · rw [e2, e3, pow_succ, mul_assoc, Nat.add_mod]
    simp

/-- An empty buffer. -/
theorem bufferOk_zero (c : Config) (n : Nat) : BufferOk c 0 n := ⟨by positivity, by simp⟩

@[simp] theorem topBitList_zero (c : Config) (w : Nat) : topBitList c w 0 = [] := rfl

@[simp] theorem topBitList_length (c : Config) (w n : Nat) : (topBitList c w n).length = n := by
  simp [topBitList]

@[simp] theorem outputBits_append (c : Config) (us vs : List BitUnit) :
    outputBits c (us ++ vs) = outputBits c us ++ outputBits c vs := by
  simp [outputBits]

@[simp] theorem outputBits_single (c : Config) (u : BitUnit) :
    outputBits c [u] = topBitList c u.word u.count := by
  simp [outputBits, BitUnit.bits]

/-- Masking keeps the valid bits of a word and makes a legal buffer of them. -/
theorem bufferOk_topBits {c : Config} {w n : Nat} (hw : w < 2 ^ c.bufBits) :
    BufferOk c (topBits c w n) n := by
  refine ⟨lt_of_le_of_lt (Nat.sub_le _ _) hw, ?_⟩
  simp only [topBits]
  have := Nat.div_add_mod w (2 ^ (c.bufBits - n))
  have e : w - w % 2 ^ (c.bufBits - n) = 2 ^ (c.bufBits - n) * (w / 2 ^ (c.bufBits - n)) := by omega
  rw [e, Nat.mul_mod_right]

theorem topBitList_topBits {c : Config} {w n : Nat} (hn : n ≤ c.bufBits) :
    topBitList c (topBits c w n) n = topBitList c w n := by
  simp only [topBitList]
  refine List.map_congr_left fun k hk => ?_
  have hk : k < n := List.mem_range.1 hk
  have e : topBits c w n = 2 ^ (c.bufBits - n) * (w / 2 ^ (c.bufBits - n)) := by
    have := Nat.div_add_mod w (2 ^ (c.bufBits - n))
    simp only [topBits]
    omega
  rw [e, Nat.testBit_two_pow_mul, Nat.testBit_div_two_pow]
  have h1 : c.bufBits - 1 - k ≥ c.bufBits - n := by omega
  simp [h1]

/-- Reading a buffered bit takes the first of the buffer's bits. -/
theorem topBitList_shift {c : Config} {buf n : Nat} (hn : n + 1 ≤ c.bufBits) :
    topBitList c buf (n + 1) =
      buf.testBit (c.bufBits - 1) :: topBitList c ((buf * 2) % 2 ^ c.bufBits) n := by
  simp only [topBitList, List.range_succ_eq_map, List.map_cons, List.map_map, Nat.sub_zero]
  congr 1
  refine List.map_congr_left fun k hk => ?_
  have hk : k < n := List.mem_range.1 hk
  obtain ⟨j, hj⟩ : ∃ j, c.bufBits - 1 - k = j + 1 := ⟨c.bufBits - 2 - k, by omega⟩
  have hj' : c.bufBits - 1 - (k + 1) = j := by omega
  have h1 : j + 1 < c.bufBits := by omega
  simp only [Function.comp, hj, hj', Nat.testBit_mod_two_pow, h1, decide_true, Bool.true_and]
  rw [Nat.testBit_succ]
  simp

/-- The shifted buffer is a buffer with one valid bit less. -/
theorem bufferOk_shift {c : Config} {buf n : Nat} (hn : n + 1 ≤ c.bufBits)
    (hb : BufferOk c buf (n + 1)) : BufferOk c ((buf * 2) % 2 ^ c.bufBits) n := by
  obtain ⟨_, hmod⟩ := hb
  refine ⟨Nat.mod_lt _ (by positivity), ?_⟩
  have e : c.bufBits - n = (c.bufBits - (n + 1)) + 1 := by omega
  obtain ⟨q, hq⟩ := Nat.dvd_of_mod_eq_zero hmod
  rw [Nat.mod_mod_of_dvd _ (Nat.pow_dvd_pow 2 (Nat.sub_le _ _)), e, hq, pow_succ]
  exact Nat.mod_eq_zero_of_dvd ⟨q, by ring⟩

end Sys2Proof.Machine
end

