-- ==== Sys2Proof/Laws/Decoder.lean ====
section
/-!
SUPPORT. What each primitive of DEC does: the bit it reads, the registers it leaves alone, and the only
ways in which it does not go on.
-/

namespace Sys2Proof.Machine

@[simp] theorem inputBits_nil (c : Config) : inputBits c [] = [] := rfl

@[simp] theorem inputBits_never (c : Config) (rest : List SourceReply) :
    inputBits c (.never :: rest) = [] := rfl

/-- A unit with a count from 1 to `BUF_BITS` adds its valid bits (rule R53). -/
theorem inputBits_unit {c : Config} {n : Nat} (w : Nat) (rest : List SourceReply) (h1 : 1 ≤ n)
    (hn : n ≤ c.bufBits) : inputBits c (.reply w n :: rest) = topBitList c w n ++ inputBits c rest := by
  simp [inputBits, h1, hn]

/-- Any other count ends the stream (rules R58 and R176). -/
theorem inputBits_end {c : Config} {n : Nat} (w : Nat) (rest : List SourceReply)
    (h : n = 0 ∨ c.bufBits < n) : inputBits c (.reply w n :: rest) = [] := by
  simp only [inputBits, ite_eq_right_iff]
  omega

/-- The input buffer is in the form NextBit expects (rule R33). -/
abbrev DecPath.Ready (c : Config) (d : DecPath) : Prop :=
  d.reg.left ≤ c.bufBits ∧ BufferOk c d.reg.buf d.reg.left ∧
  (d.reg.exhausted = true → d.reg.left = 0) ∧ ∀ r ∈ d.source.replies, r.fitsPort c = true

/-- From `d` to `d'` one bit `b` was read from the input stream, followed by filler (rules R131 to R133). -/
structure ReadBit (c : Config) (d d' : DecPath) (b : Bool) : Prop where
  ready : d'.Ready c
  bit : b = (d.unread c).headD true
  unread : d'.unread c = (d.unread c).tail
  frame : d'.reg = { d.reg with
    exhausted := d'.reg.exhausted, buf := d'.reg.buf, left := d'.reg.left }
  fills : d.source.fills ≤ d'.source.fills ∧ d'.source.fills ≤ d.source.fills + 1
  replies : d'.source.replies <:+ d.source.replies

/-- Reading a bit that is buffered. -/
theorem takeBufferedBit_reads {c : Config} {d : DecPath} (h : d.Ready c) (hl : 0 < d.reg.left) :
    ∃ b d', takeBufferedBit c d = .done b d' ∧ ReadBit c d d' b := by
  obtain ⟨hle, hb, hex, hs⟩ := h
  obtain ⟨n, hn⟩ : ∃ n, d.reg.left = n + 1 := ⟨d.reg.left - 1, by omega⟩
  have hx : d.reg.exhausted = false := by
    cases hc : d.reg.exhausted with
    | false => rfl
    | true => have := hex hc; omega
  rw [hn] at hle hb
  refine ⟨_, _, rfl, ⟨⟨?_, ?_, ?_, hs⟩, ?_, ?_, rfl, ⟨le_rfl, Nat.le_succ _⟩, List.suffix_refl _⟩⟩
  · simp only [hn]; omega
  · simpa [hn] using bufferOk_shift hle hb
  · simp [hx]
  · simp [DecPath.unread, hx, hn, topBitList_shift hle]
  · simp [DecPath.unread, hx, hn, topBitList_shift hle]

/-- Everything NextBit can do from a ready buffer. -/
theorem nextBit_cases {c : Config} {d : DecPath} (h : d.Ready c) :
    (∃ b d', nextBit c d = .done b d' ∧ ReadBit c d d' b) ∨
    (∃ w n rest, d.reg.exhausted = false ∧ d.reg.left = 0 ∧ d.source.replies = .reply w n :: rest ∧
      c.bufBits < n ∧
      nextBit c d = .raised .esource { d with source := ⟨rest, d.source.fills + 1⟩ }) ∨
    (d.reg.exhausted = false ∧ d.reg.left = 0 ∧ (∃ rest, d.source.replies = .never :: rest) ∧
      nextBit c d = .stuck .sourceNeverReplies) := by
  have h' := h
  obtain ⟨hle, hb, hex, hs⟩ := h
  cases hx : d.reg.exhausted with
  | true =>
    refine .inl ⟨true, d, by simp [nextBit, hx], ⟨h', ?_, ?_, rfl, ⟨le_rfl, Nat.le_succ _⟩,
      List.suffix_refl _⟩⟩ <;> simp [DecPath.unread, hx]
  | false =>
    by_cases hl : d.reg.left = 0
    · rcases sourceFill_cases d.source with ⟨hr, hf⟩ | ⟨w, n, rest, hr, hf⟩ | ⟨rest, hr, hf⟩
      · refine .inl ⟨true, ⟨{ d.reg with exhausted := true }, ⟨[], d.source.fills + 1⟩⟩,
          by simp [nextBit, hx, hl, hf], ⟨⟨hle, hb, fun _ => hl, by simp⟩, ?_, ?_, rfl, ⟨?_, ?_⟩,
          List.nil_suffix⟩⟩ <;> simp [DecPath.unread, hx, hl, hr]
      · have hw : w < 2 ^ c.bufBits := by
          have := hs (.reply w n) (by simp [hr])
          simpa [SourceReply.fitsPort] using this
        have hrest : ∀ r ∈ rest, r.fitsPort c = true := fun r m => hs r (by simp [hr, m])
        by_cases hn : c.bufBits < n
        · exact .inr (.inl ⟨w, n, rest, rfl, hl, hr, hn, by simp [nextBit, hx, hl, hf, hn]⟩)
        · by_cases h0 : n = 0
          · refine .inl ⟨true, ⟨{ d.reg with exhausted := true }, ⟨rest, d.source.fills + 1⟩⟩,
              by simp [nextBit, hx, hl, hf, h0], ⟨⟨hle, hb, fun _ => hl, hrest⟩, ?_, ?_, rfl, ⟨?_, ?_⟩,
              ?_⟩⟩ <;> simp [DecPath.unread, hx, hl, hr, h0, inputBits_end w rest (.inl rfl)]
          · have hle' : n ≤ c.bufBits := by omega
            let d1 : DecPath := { reg := { d.reg with buf := topBits c w n, left := n },
                                  source := ⟨rest, d.source.fills + 1⟩ }
            have hd1 : d1.Ready c :=
              ⟨hle', bufferOk_topBits hw, fun hc => by simp [d1, hx] at hc, hrest⟩
            obtain ⟨b, d', hd', r⟩ := takeBufferedBit_reads hd1 (by simp only [d1]; omega)
            have hun : d1.unread c = d.unread c := by
              simp [DecPath.unread, d1, hx, hl, hr, topBitList_topBits hle',
                inputBits_unit w rest (Nat.one_le_iff_ne_zero.2 h0) hle']
            refine .inl ⟨b, d', ?_, ⟨r.ready, by rw [r.bit, hun], by rw [r.unread, hun], ?_, ?_, ?_⟩⟩
            · rw [nextBit, if_neg (by simp [hx]), if_pos hl, hf]
              simpa only [hn, h0, if_false] using hd'
            · have hfr := r.frame
              simpa only [d1] using hfr
            · have := r.fills
              simp only [d1, takeBufferedBit, Run.done.injEq] at hd' ⊢
              obtain ⟨_, rfl⟩ := hd'
              exact ⟨Nat.le_succ _, le_rfl⟩
            · exact r.replies.trans (by simp [d1, hr])
      · exact .inr (.inr ⟨rfl, hl, ⟨rest, hr⟩, by simp [nextBit, hx, hl, hf]⟩)
    · obtain ⟨b, d', hd', r⟩ := takeBufferedBit_reads h' (by omega)
      exact .inl ⟨b, d', by simp [nextBit, hx, hl, hd'], r⟩

/-- Everything a shift of the window can do: the window takes the bit read, and nothing else differs
from what NextBit left (rules R130 and R136). -/
theorem shiftWindow_cases {c : Config} (off : Nat) {d : DecPath} (h : d.Ready c) :
    (∃ b d', nextBit c d = .done b d' ∧ ReadBit c d d' b ∧
      shiftWindow c off d = .done ()
        { d' with reg := { d'.reg with window := 2 * (d.reg.window - off) + b.toNat } }) ∨
    (∃ d', nextBit c d = .raised .esource d' ∧ shiftWindow c off d = .raised .esource d') ∨
    (nextBit c d = .stuck .sourceNeverReplies ∧ shiftWindow c off d = .stuck .sourceNeverReplies) := by
  rcases nextBit_cases h with ⟨b, d', hd, r⟩ | ⟨w, n, rest, _, _, _, _, hd⟩ | ⟨_, _, _, hd⟩
  · have hw : d'.reg.window = d.reg.window := by rw [r.frame]
    exact .inl ⟨b, d', hd, r, by simp [shiftWindow, hd, hw]⟩
  · exact .inr (.inl ⟨_, hd, by simp [shiftWindow, hd]⟩)
  · exact .inr (.inr ⟨hd, by simp [shiftWindow, hd]⟩)

end Sys2Proof.Machine
end

