-- ==== Sys2Proof/Laws/Encoder.lean ====
section
/-!
SUPPORT. What each primitive of ENC does: the bits it writes, the registers it leaves alone, and the
only ways in which it does not go on.
-/

namespace Sys2Proof.Machine

/-- The buffer is in the form PutBit expects (rules R26 and R32). -/
abbrev EncPath.Ready (c : Config) (e : EncPath) : Prop :=
  e.reg.fill < c.bufBits ∧ BufferOk c e.reg.buf e.reg.fill

/-- From `e` to `e'` the bits `bits` were written, and every unit handed over on the way was full. -/
structure Wrote (c : Config) (e e' : EncPath) (bits : List Bool) : Prop where
  ready : e'.Ready c
  written : e'.written c = e.written c ++ bits
  room : e.sink.Accepts → e'.sink.Accepts
  units : ∃ new, e'.sink.units = e.sink.units ++ new ∧
    (∀ u ∈ new, u.Sent c ∧ u.count = c.bufBits) ∧
    e'.reg.fill + c.bufBits * new.length = e.reg.fill + bits.length

theorem Wrote.refl {c : Config} {e : EncPath} (h : e.Ready c) : Wrote c e e [] :=
  ⟨h, by simp, id, [], by simp, by simp, by simp⟩

theorem Wrote.trans {c : Config} {e e' e'' : EncPath} {bs bs' : List Bool}
    (h : Wrote c e e' bs) (h' : Wrote c e' e'' bs') : Wrote c e e'' (bs ++ bs') := by
  obtain ⟨new, h1, h2, h3⟩ := h.units
  obtain ⟨new', h1', h2', h3'⟩ := h'.units
  refine ⟨h'.ready, by rw [h'.written, h.written, List.append_assoc], fun a => h'.room (h.room a),
    new ++ new', by rw [h1', h1, List.append_assoc], ?_, ?_⟩
  · intro u hu
    rcases List.mem_append.1 hu with m | m
    · exact h2 u m
    · exact h2' u m
  · simp only [List.length_append, Nat.mul_add] at *
    omega

/-- Only the counter, the phase or the interval differs: nothing was written. -/
theorem Wrote.congr {c : Config} {e e' e'' : EncPath} {bs : List Bool} (h : Wrote c e e' bs)
    (hb : e''.reg.buf = e'.reg.buf) (hf : e''.reg.fill = e'.reg.fill) (hs : e''.sink = e'.sink) :
    Wrote c e e'' bs := by
  obtain ⟨r, w, a, u⟩ := h
  refine ⟨by simpa only [EncPath.Ready, hb, hf] using r, ?_, by rw [hs]; exact a, by rw [hs, hf]; exact u⟩
  simpa only [EncPath.written, hb, hf, hs] using w

/-- Everything PutBit can do from a ready buffer. -/
theorem putBit_cases {c : Config} (b : Bool) {e : EncPath} (h : e.Ready c) :
    (∃ e', putBit c b e = .done () e' ∧ Wrote c e e' [b] ∧
      e'.reg = { e.reg with buf := e'.reg.buf, fill := e'.reg.fill }) ∨
    (e.sink.room = some 0 ∧ putBit c b e = .stuck .sinkNeverAccepts) := by
  obtain ⟨hf, hb⟩ := h
  have hB := bufferOk_placeBit b hf hb
  have hT := topBitList_placeBit b hf hb.2
  by_cases hfull : e.reg.fill + 1 = c.bufBits
  · simp only [putBit, hfull, if_true]
    rcases handOver_cases c.bufBits
      { reg := { e.reg with
          buf := e.reg.buf + b.toNat * 2 ^ (c.bufBits - 1 - e.reg.fill), fill := c.bufBits }
        sink := e.sink } with ⟨k, hk, hd⟩ | ⟨hr, hs⟩
    · refine .inl ⟨_, hd, ⟨⟨c.buf_pos, bufferOk_zero c 0⟩, ?_, ?_, ?_⟩, rfl⟩
      · obtain ⟨hu, _, _⟩ := sinkAccept_eq_some hk
        rw [hfull] at hT
        simp only [EncPath.written, hu, outputBits_append, outputBits_single, topBitList_zero,
          List.append_nil, List.append_assoc, hT]
      · intro ha
        obtain ⟨_, hr, _⟩ := sinkAccept_eq_some hk
        simp only [Sink.Accepts] at ha ⊢
        simp [hr, ha]
      · obtain ⟨hu, _, _⟩ := sinkAccept_eq_some hk
        refine ⟨_, hu, ?_, ?_⟩
        · intro u hu
          obtain rfl := List.mem_singleton.1 hu
          rw [hfull] at hB
          exact ⟨⟨c.buf_pos, le_rfl, hB⟩, rfl⟩
        · simp only [List.length_singleton, mul_one, Nat.zero_add]
          omega
    · exact .inr ⟨hr, hs⟩
  · simp only [putBit, hfull, if_false]
    refine .inl ⟨_, rfl, ⟨⟨?_, hB⟩, ?_, id, [], by simp, by simp, by simp⟩, rfl⟩
    · show e.reg.fill + 1 < c.bufBits
      omega
    · simp only [EncPath.written, hT, List.append_assoc]

/-- Everything `n` PutBits of one bit can do from a ready buffer. -/
theorem putCopies_cases {c : Config} (b : Bool) (n : Nat) {e : EncPath} (h : e.Ready c) :
    (∃ e', putCopies c b n e = .done () e' ∧ Wrote c e e' (List.replicate n b) ∧
      e'.reg = { e.reg with buf := e'.reg.buf, fill := e'.reg.fill }) ∨
    (¬ e.sink.Accepts ∧ putCopies c b n e = .stuck .sinkNeverAccepts) := by
  induction n generalizing e with
  | zero => exact .inl ⟨e, rfl, Wrote.refl h, rfl⟩
  | succ n ih =>
    rcases putBit_cases b h with ⟨e1, h1, w1, f1⟩ | ⟨r1, s1⟩
    · rcases ih w1.ready with ⟨e2, h2, w2, f2⟩ | ⟨r2, s2⟩
      · refine .inl ⟨e2, by simp [putCopies, h1, h2], ?_, by rw [f2, f1]⟩
        simpa [List.replicate_succ] using w1.trans w2
      · exact .inr ⟨fun a => r2 (w1.room a), by simp [putCopies, h1, s2]⟩
    · exact .inr ⟨by simp [Sink.Accepts, r1], by simp [putCopies, s1]⟩

/-- Everything EmitWithPending can do from a ready buffer (rule R112). -/
theorem emitWithPending_cases {c : Config} (b : Bool) {e : EncPath} (h : e.Ready c) :
    (∃ e', emitWithPending c b e = .done () e' ∧ Wrote c e e' (resolvedBits b e.reg.pending) ∧
      e'.reg = { e.reg with pending := 0, buf := e'.reg.buf, fill := e'.reg.fill }) ∨
    (¬ e.sink.Accepts ∧ emitWithPending c b e = .stuck .sinkNeverAccepts) := by
  rcases putBit_cases b h with ⟨e1, h1, w1, f1⟩ | ⟨r1, s1⟩
  · rcases putCopies_cases (!b) e.reg.pending w1.ready with ⟨e2, h2, w2, f2⟩ | ⟨r2, s2⟩
    · refine .inl ⟨e2.setPending 0, by simp [emitWithPending, h1, h2], ?_, ?_⟩
      · exact (w1.trans w2).congr rfl rfl rfl
      · simp only [EncPath.setPending]
        rw [f2, f1]
    · exact .inr ⟨fun a => r2 (w1.room a), by simp [emitWithPending, h1, s2]⟩
  · exact .inr ⟨by simp [Sink.Accepts, r1], by simp [emitWithPending, s1]⟩

/-- Deferring a bit counts it, or raises EPENDING with nothing changed (rule R116). -/
theorem deferBit_cases (c : Config) (e : EncPath) :
    (e.reg.pending = c.pendingMax ∧ deferBit c e = .raised .epending e) ∨
    (e.reg.pending ≠ c.pendingMax ∧ deferBit c e = .done () (e.setPending (e.reg.pending + 1))) := by
  by_cases h : e.reg.pending = c.pendingMax <;> simp [deferBit, h]

/-- Everything one iteration of the loop of rule R113 can do from a ready buffer. -/
theorem encStep_cases {c : Config} (k : RenormCase) {e : EncPath} (h : e.Ready c) :
    (∃ e' bits p, encStep c k e = .done () e' ∧ Wrote c e e' bits ∧
      e'.reg = { e.reg with
        lower := transformBound c k e.reg.lower, upper := transformBound c k e.reg.upper,
        pending := p, buf := e'.reg.buf, fill := e'.reg.fill } ∧
      ((k = .e1 ∧ p = 0 ∧ bits = resolvedBits false e.reg.pending) ∨
       (k = .e2 ∧ p = 0 ∧ bits = resolvedBits true e.reg.pending) ∨
       (k = .e3 ∧ e.reg.pending ≠ c.pendingMax ∧ p = e.reg.pending + 1 ∧ bits = []))) ∨
    (k = .e3 ∧ e.reg.pending = c.pendingMax ∧ encStep c k e = .raised .epending e) ∨
    (¬ e.sink.Accepts ∧ encStep c k e = .stuck .sinkNeverAccepts) := by
  cases k with
  | e1 =>
    rcases emitWithPending_cases false h with ⟨e1, h1, w1, f1⟩ | ⟨r1, s1⟩
    · refine .inl ⟨e1.transform c .e1, _, 0, by simp [encStep, encE1, h1], w1.congr rfl rfl rfl, ?_,
        .inl ⟨rfl, rfl, rfl⟩⟩
      simp only [EncPath.transform]
      rw [f1]
    · exact .inr (.inr ⟨r1, by simp [encStep, encE1, s1]⟩)
  | e2 =>
    rcases emitWithPending_cases true h with ⟨e1, h1, w1, f1⟩ | ⟨r1, s1⟩
    · refine .inl ⟨e1.transform c .e2, _, 0, by simp [encStep, encE2, h1], w1.congr rfl rfl rfl, ?_,
        .inr (.inl ⟨rfl, rfl, rfl⟩)⟩
      simp only [EncPath.transform]
      rw [f1]
    · exact .inr (.inr ⟨r1, by simp [encStep, encE2, s1]⟩)
  | e3 =>
    rcases deferBit_cases c e with ⟨hp, h1⟩ | ⟨hp, h1⟩
    · exact .inr (.inl ⟨rfl, hp, by simp [encStep, encE3, h1]⟩)
    · refine .inl ⟨(e.setPending (e.reg.pending + 1)).transform c .e3, [], e.reg.pending + 1,
        by simp [encStep, encE3, h1], (Wrote.refl h).congr rfl rfl rfl, rfl,
        .inr (.inr ⟨rfl, hp, rfl, rfl⟩)⟩

/-- Flush hands over a partly filled buffer, once, and leaves an empty one (rule R119). -/
theorem encFlush_cases (c : Config) (e : EncPath) :
    (∃ e', encFlush e = .done () e' ∧ e'.reg = { e.reg with buf := e'.reg.buf, fill := 0 } ∧
      (e.reg.fill = 0 ∧ e' = e ∨
        0 < e.reg.fill ∧ e'.reg.buf = 0 ∧ e'.sink.units = e.sink.units ++ [⟨e.reg.buf, e.reg.fill⟩]) ∧
      outputBits c e'.sink.units = e.written c ∧ (e.sink.Accepts → e'.sink.Accepts)) ∨
    (e.sink.room = some 0 ∧ encFlush e = .stuck .sinkNeverAccepts) := by
  by_cases hf : 0 < e.reg.fill
  · rcases handOver_cases e.reg.fill e with ⟨k, hk, hd⟩ | ⟨hr, hs⟩
    · obtain ⟨hu, hro, _⟩ := sinkAccept_eq_some hk
      refine .inl ⟨⟨{ e.reg with buf := 0, fill := 0 }, k⟩, by simp only [encFlush, hf, if_true, hd], rfl,
        .inr ⟨hf, rfl, hu⟩, ?_, ?_⟩
      · simp only [hu, outputBits_append, outputBits_single, EncPath.written]
      · intro ha
        simp only [Sink.Accepts] at ha ⊢
        simp [hro, ha]
    · exact .inr ⟨hr, by simp only [encFlush, hf, if_true, hs]⟩
  · have h0 : e.reg.fill = 0 := by omega
    refine .inl ⟨e, by simp [encFlush, h0], by rw [← h0], .inl ⟨h0, rfl⟩, ?_, id⟩
    simp [EncPath.written, h0]

end Sys2Proof.Machine
end

