-- ==== Sys2Proof/Laws/Exec.lean ====
section
/-!
SUPPORT. One equation for each way through a command or a loop, so that a proof rewrites with the path it
is on instead of unfolding the definition.
-/

namespace Sys2Proof.Machine

/-! ### The phase checks -/

theorem openStreamCheck_eq_none {p : Phase} : openStreamCheck p = none ↔ p = .active ∨ p = .scaled := by
  cases p <;> simp [openStreamCheck]

theorem scaledStepCheck_eq_none {p : Phase} : scaledStepCheck p = none ↔ p = .scaled := by
  cases p <;> simp [scaledStepCheck]

theorem openStreamCheck_eq_some {p : Phase} {k : Code} :
    openStreamCheck p = some k ↔ (p = .fault ∧ k = .efaulted) ∨ (p = .idle ∧ k = .eseq) := by
  cases p <;> simp [openStreamCheck, eq_comm]

theorem scaledStepCheck_eq_some {p : Phase} {k : Code} :
    scaledStepCheck p = some k ↔
      (p = .fault ∧ k = .efaulted) ∨ ((p = .idle ∨ p = .active) ∧ k = .eseq) := by
  cases p <;> simp [scaledStepCheck, eq_comm]

/-! ### The commands, path by path -/

section
variable {s : State} {k : Code} {pl pu pt v range total n : Nat}

theorem exec_rdreg_assigned (h : csr s n = some v) : exec (.rdreg n) s = .next (s.respond .ok v) := by
  simp [exec, execRdreg, h]

theorem exec_rdreg_unassigned (h : csr s n = none) : exec (.rdreg n) s = .next (s.respond .ebadreg 0) := by
  simp [exec, execRdreg, h]

theorem exec_fscale_inDomain (h : FscaleDomain s.cfg v range total) :
    exec (.fscale v range total) s = .next (s.respond .ok (freqScale v range total)) := by
  simp only [exec, execFscale, if_pos h, answer_eq]

theorem exec_fscale_outOfDomain (h : ¬ FscaleDomain s.cfg v range total) :
    exec (.fscale v range total) s = .next (s.respond .edomain 0) := by
  simp only [exec, execFscale, if_neg h, answer_eq]

theorem exec_encPut_notOpen (h : openStreamCheck s.enc.phase = some k) :
    exec (.encPut pl pu pt) s = .next (s.respond k 0) := by
  simp [exec, execEncPut, h]

theorem exec_encPut_emodel (h : openStreamCheck s.enc.phase = none) (hp : ¬ ProbOk s.cfg pl pu pt) :
    exec (.encPut pl pu pt) s = .next (s.raiseEnc .emodel) := by
  simp only [exec, execEncPut, h, if_neg hp]

theorem exec_encPut_runs (h : openStreamCheck s.enc.phase = none) (hp : ProbOk s.cfg pl pu pt) :
    exec (.encPut pl pu pt) s = s.endEnc (encPutSymbol s.cfg pl pu pt s.encPath) := by
  simp only [exec, execEncPut, h, if_pos hp]

theorem exec_encFinish_notOpen (h : openStreamCheck s.enc.phase = some k) :
    exec .encFinish s = .next (s.respond k 0) := by
  simp [exec, execEncFinish, h]

theorem exec_encFinish_runs (h : openStreamCheck s.enc.phase = none) :
    exec .encFinish s = s.endEnc (encFinishStream s.cfg s.encPath) := by
  simp only [exec, execEncFinish, h]

theorem exec_decStart : exec .decStart s = s.endDec (decOpenStream s.cfg s.decPath) := rfl

theorem exec_decScale_notOpen (h : openStreamCheck s.dec.phase = some k) :
    exec (.decScale total) s = .next (s.respond k 0) := by
  simp [exec, execDecScale, h]

theorem exec_decScale_emodel (h : openStreamCheck s.dec.phase = none) (ht : ¬ TotalOk s.cfg total) :
    exec (.decScale total) s = .next (s.raiseDec .emodel) := by
  simp only [exec, execDecScale, h, if_neg ht]

theorem exec_decScale_runs (h : openStreamCheck s.dec.phase = none) (ht : TotalOk s.cfg total) :
    exec (.decScale total) s =
      .next (State.respond { s with dec := s.dec.latch total } .ok (scaledValue s.dec total)) := by
  simp only [exec, execDecScale, h, if_pos ht, answer_eq]

theorem exec_decNarrow_notScaled (h : scaledStepCheck s.dec.phase = some k) :
    exec (.decNarrow pl pu pt) s = .next (s.respond k 0) := by
  simp [exec, execDecNarrow, h]

theorem exec_decNarrow_emodel (h : scaledStepCheck s.dec.phase = none)
    (hp : ¬ NarrowOk s.cfg s.dec pl pu pt) :
    exec (.decNarrow pl pu pt) s = .next (s.raiseDec .emodel) := by
  simp only [exec, execDecNarrow, h, if_neg hp]

theorem exec_decNarrow_runs (h : scaledStepCheck s.dec.phase = none)
    (hp : NarrowOk s.cfg s.dec pl pu pt) :
    exec (.decNarrow pl pu pt) s = s.endDec (decNarrowSymbol s.cfg pl pu pt s.decPath) := by
  simp only [exec, execDecNarrow, h, if_pos hp]

end

/-! ### The loops, iteration by iteration -/

section
variable {c : Config} {fuel : Nat} {k : RenormCase}

theorem encRenorm_stop {e : EncPath} (h : classify c e.reg.lower e.reg.upper = none) :
    encRenorm c (fuel + 1) e = .done () e := by
  simp only [encRenorm, h]

theorem encRenorm_iterate {e : EncPath} (h : classify c e.reg.lower e.reg.upper = some k) :
    encRenorm c (fuel + 1) e = (encStep c k e).andThen fun _ e' => encRenorm c fuel e' := by
  simp only [encRenorm, h]

theorem decRenorm_stop {d : DecPath} (h : classify c d.reg.lower d.reg.upper = none) :
    decRenorm c (fuel + 1) d = .done () d := by
  simp only [decRenorm, h]

theorem decRenorm_iterate {d : DecPath} (h : classify c d.reg.lower d.reg.upper = some k) :
    decRenorm c (fuel + 1) d = (decStep c k d).andThen fun _ d' => decRenorm c fuel d' := by
  simp only [decRenorm, h]

end

end Sys2Proof.Machine
end

