-- ==== Sys2Proof/Laws/PerInstr.lean ====
section
/-!
SUPPORT. What is said of every command as syntax, one lemma per constructor.
Family PacketFields: the packet of a command carries the command's opcode, which is one of the nine of
rule R75, and a zero RSV (rules R70 and R77), whatever the operands.
-/

namespace Sys2Proof.Laws.PacketFields

/-- OP of the packet that fields make, whatever the operands. -/
theorem packetOp_packetOfFields (op a b c : Nat) : packetOp (packetOfFields op a b c) = op % 256 := by
  have h : (packetOfFields op a b c).extractLsb' 0 8 = BitVec.ofNat 8 op := by
    ext i hi
    rw [BitVec.getElem_extractLsb']
    refine (BitVec.getLsbD_append (n := 248) (m := 8)).trans ?_
    simp [hi]
  simp [packetOp, h]

/-- RSV of the packet that fields make is 0, whatever the operands. -/
theorem packetRsv_packetOfFields (op a b c : Nat) : packetRsv (packetOfFields op a b c) = 0 := by
  have h : (packetOfFields op a b c).extractLsb' 8 56 = 0#56 := by
    ext i hi
    rw [BitVec.getElem_extractLsb']
    refine (BitVec.getLsbD_append (n := 248) (m := 8)).trans ?_
    refine (if_neg (by omega)).trans ?_
    refine (BitVec.getLsbD_append (n := 192) (m := 56)).trans ?_
    refine (if_pos (by omega)).trans ?_
    simp
  simp [packetRsv, h]

/-- The opcodes of rule R75. -/
def opcodes : List Nat := [0x00, 0x01, 0x10, 0x11, 0x12, 0x20, 0x21, 0x22, 0x30]

/-- The packet of `i` has RSV 0 and, in OP, the opcode of `i`, one of the nine. -/
def Statement (i : Instr) : Prop :=
  packetRsv (encode i) = 0 ∧ packetOp (encode i) = i.opcode ∧ i.opcode ∈ opcodes

/-- The family's statement for a command whose opcode is one of the nine. -/
theorem of_opcode {i : Instr} (h : i.opcode ∈ opcodes) (h' : i.opcode % 256 = i.opcode) : Statement i :=
  ⟨packetRsv_packetOfFields _ _ _ _, (packetOp_packetOfFields _ _ _ _).trans h', h⟩

theorem nop : Statement .nop := of_opcode (by decide) (by decide)
theorem rdreg (n : Nat) : Statement (.rdreg n) := of_opcode (by simp [Instr.opcode, opcodes]) rfl
theorem encStart : Statement .encStart := of_opcode (by decide) (by decide)
theorem encPut (pl pu pt : Nat) : Statement (.encPut pl pu pt) :=
  of_opcode (by simp [Instr.opcode, opcodes]) rfl
theorem encFinish : Statement .encFinish := of_opcode (by decide) (by decide)
theorem decStart : Statement .decStart := of_opcode (by decide) (by decide)
theorem decScale (total : Nat) : Statement (.decScale total) :=
  of_opcode (by simp [Instr.opcode, opcodes]) rfl
theorem decNarrow (pl pu pt : Nat) : Statement (.decNarrow pl pu pt) :=
  of_opcode (by simp [Instr.opcode, opcodes]) rfl
theorem fscale (v range total : Nat) : Statement (.fscale v range total) :=
  of_opcode (by simp [Instr.opcode, opcodes]) rfl

end Sys2Proof.Laws.PacketFields
end

