-- ==== Sys2Proof/Tests/Slice0.lean ====
section
/-!
SUPPORT. Smoke tests of WellFormed, words decoded as the spec's encoding gives them, at most two single
steps for each command, and a witness for the hypotheses of each obligation.
The words are those of `30_encoding.md` rule R82 and `95_test_vectors.md` V-SYS-1 and V-SYS-3. The expected
states and responses are those of the vector of `95_test_vectors.md` (or the rule) each docstring names.
-/

namespace Sys2Proof.Tests

open Sys2Proof Sys2Proof.Machine

/-! ### WellFormed refuses an ill-formed term for each of its checks -/

theorem smoke_rdreg_operand : (Instr.rdreg (2 ^ 64)).wellFormed = false := by decide
theorem smoke_encPut_operands :
    (Instr.encPut (2 ^ 64) 4 4).wellFormed = false ∧ (Instr.encPut 2 (2 ^ 64) 4).wellFormed = false ∧
    (Instr.encPut 2 4 (2 ^ 64)).wellFormed = false := by decide
theorem smoke_decScale_operand : (Instr.decScale (2 ^ 64)).wellFormed = false := by decide
theorem smoke_decNarrow_operands :
    (Instr.decNarrow (2 ^ 64) 4 4).wellFormed = false ∧
    (Instr.decNarrow 2 (2 ^ 64) 4).wellFormed = false ∧
    (Instr.decNarrow 2 4 (2 ^ 64)).wellFormed = false := by decide
theorem smoke_fscale_operands :
    (Instr.fscale (2 ^ 64) 5 5).wellFormed = false ∧ (Instr.fscale 5 (2 ^ 64) 5).wellFormed = false ∧
    (Instr.fscale 5 5 (2 ^ 64)).wellFormed = false := by decide
theorem smoke_largest_operands_are_wellFormed :
    (Instr.encPut (2 ^ 64 - 1) (2 ^ 64 - 1) (2 ^ 64 - 1)).wellFormed = true := by decide

/-- An illegal parameter set is refused, a legal one is not (rule R10). -/
theorem smoke_elaborate :
    Config.elaborate 16 15 8 32 = none ∧ Config.elaborate 63 14 8 32 = none ∧
    Config.elaborate 16 0 8 32 = none ∧ Config.elaborate 16 14 0 32 = none ∧
    Config.elaborate 16 14 65 32 = none ∧ Config.elaborate 16 14 8 0 = none ∧
    Config.elaborate 16 14 8 65 = none ∧ Config.elaborate 16 14 8 32 = some .arcdRef := by decide

/-! ### Assembly, from rule R80's syntax -/

theorem test_assemble_hexadecimal_and_comment :
    assembleLine "FSCALE  100, 0x9C40, 7   ; a comment, with a comma".toList =
      some (.fscale 100 40000 7) := by decide
theorem test_assemble_rejects :
    assembleLine "DEC.SCALE 18446744073709551616".toList = none ∧
    assembleLine "DEC.SCALE 18446744073709551615".toList = some (.decScale (2 ^ 64 - 1)) ∧
    assembleLine "NOP 0".toList = none ∧ assembleLine "DEC.GET 64".toList = none ∧
    assembleLine "ENC.PUT 1, 2".toList = none ∧ assembleLine "RDREG DEC_NOTHING".toList = none := by
  decide
theorem test_assemble_program :
    assembleProgram ["; a stream".toList, "ENC.START".toList, "".toList, "ENC.FINISH".toList] =
      some [.encStart, .encFinish] := by decide

/-! ### Decoding: C, B, A, then RSV and OP, as rule R82 writes them -/

theorem test_decode_nop :
    decode 0x0000000000000000000000000000000000000000000000000000000000000000#256 = .ok .nop := by decide
theorem test_decode_rdreg :
    decode 0x0000000000000000000000000000000000000000000000110000000000000001#256
      = .ok (.rdreg 0x11) := by decide
theorem test_decode_encStart :
    decode 0x0000000000000000000000000000000000000000000000000000000000000010#256
      = .ok .encStart := by decide
theorem test_decode_encPut :
    decode 0x0000000000000004000000000000000400000000000000020000000000000011#256
      = .ok (.encPut 2 4 4) := by decide
theorem test_decode_encFinish :
    decode 0x0000000000000000000000000000000000000000000000000000000000000012#256
      = .ok .encFinish := by decide
theorem test_decode_decStart :
    decode 0x0000000000000000000000000000000000000000000000000000000000000020#256
      = .ok .decStart := by decide
theorem test_decode_decScale :
    decode 0x0000000000000000000000000000000000000000000000400000000000000021#256
      = .ok (.decScale 64) := by decide
theorem test_decode_decNarrow :
    decode 0x0000000000000040000000000000004000000000000000080000000000000022#256
      = .ok (.decNarrow 8 64 64) := by decide
theorem test_decode_fscale :
    decode 0x00000000000000070000000000009C4000000000000000640000000000000030#256
      = .ok (.fscale 100 40000 7) := by decide

/-- V-SYS-1: operands a command ignores are not checked. -/
theorem test_decode_nop_ignores_operands :
    decode 0x0000000000000007000000000000000600000000000000050000000000000000#256 = .ok .nop := by decide

/-- V-SYS-3: RSV = 1, RSV = 2^55, and reserved values of OP. -/
theorem test_decode_reserved :
    decode 0x0000000000000110#256 = .error (.reservedField 1) ∧
    decode 0x8000000000000000#256 = .error (.reservedField (2 ^ 55)) ∧
    decode 0x02#256 = .error (.reservedOpcode 0x02) ∧ decode 0x13#256 = .error (.reservedOpcode 0x13) ∧
    decode 0x31#256 = .error (.reservedOpcode 0x31) ∧ decode 0xFF#256 = .error (.reservedOpcode 0xFF) := by
  decide

/-- Rule R71: W0 is the low word. -/
theorem test_packetOfWords :
    packetOfWords 0x11#64 2#64 3#64 4#64
      = 0x0000000000000004000000000000000300000000000000020000000000000011#256 := by decide

theorem test_decodeTableWord :
    decodeTableWord 256 0x30 = some (.fscale 0 0 0) ∧ decodeTableWord 256 0x31 = none := by decide

/-! ### States for the steps below -/

/-- ARCD-REF after ENC.START (rule R110). -/
def sOpen : State := { State.reset with enc := ⟨.active, none, 0, 65536, 65536, 0, 0, 0⟩ }

/-- ARCD-REF with the encoder's registers given. -/
def sEnc (lower upper range pending buf fill : Nat) : State :=
  { State.reset with enc := ⟨.active, none, lower, upper, range, pending, buf, fill⟩ }

/-- SMALL with the encoder's interval and counter given. -/
def sSmall (lower upper range pending : Nat) : State :=
  { State.resetOf .small with enc := ⟨.active, none, lower, upper, range, pending, 0, 0⟩ }

/-- ARCD-REF with the decoder on the whole interval, its source exhausted (V-DEC-1, V-SRC-1). -/
def sDec (phase : Phase) (window total scaled : Nat) : State :=
  { State.reset with
    dec := ⟨phase, none, 0, 65536, 65536, window, true, 0, 0, total, scaled⟩ }

/-- ARCD-REF before DEC.START, with the Source's replies given. -/
def sSource (replies : List SourceReply) : State :=
  { State.reset with source := ⟨replies, 0⟩ }

/-- V-DEC-5's second row before its DEC.NARROW: the next reply breaks the contract. -/
def sBadSource : State :=
  { State.reset with
    dec := ⟨.scaled, none, 0, 65536, 65536, 4660, false, 0, 0, 4, 0⟩
    source := ⟨[.reply 0x00 9], 2⟩ }

/-- V-DEC-7 before its DEC.NARROW: the third unit is still to come. -/
def sThirdUnit : State :=
  { State.reset with
    dec := ⟨.scaled, none, 0, 65536, 65536, 23295, false, 0, 0, 4, 1⟩
    source := ⟨[.reply 0x33 8], 2⟩ }

/-- Both units in FAULT, each fault recorded (V-ENC-2 and V-DEC-3). -/
def sFaulted : State :=
  { State.reset with
    enc := ⟨.fault, some .emodel, 0, 65536, 65536, 0, 0, 0⟩
    dec := ⟨.fault, some .emodel, 0, 65536, 65536, 65535, true, 0, 0, 0, 0⟩
    faults := [⟨.enc, .emodel⟩, ⟨.dec, .emodel⟩] }

/-- The next state, or the old one where there is none. -/
def after (i : Instr) (s : State) : State :=
  match exec i s with
  | .next t => t
  | .fault _ => s
  | .refused _ => s

/-- The code and value of the newest response. -/
def answerOf (i : Instr) (s : State) : Option (Nat × Nat) :=
  ((after i s).responses.getLast?).map fun r => (r.code.toNat, r.value.toNat)

/-! ### At most two single steps for each command -/

/-- V-SYS-1: OK in FAULT too. -/
theorem test_nop : answerOf .nop sFaulted = some (0, 0) := by decide

/-- V-ENC-3 and V-DEC-3: the status words of two faulted units. -/
theorem test_rdreg_status :
    answerOf (.rdreg 0x10) sFaulted = some (0, 0x43) ∧
    answerOf (.rdreg 0x20) sFaulted = some (0, 0x143) := by decide

/-- V-SYS-2: numbers are not masked. -/
theorem test_rdreg_unassigned :
    answerOf (.rdreg 0x111) sOpen = some (8, 0) ∧ answerOf (.rdreg 0x04) sOpen = some (8, 0) ∧
    answerOf (.rdreg 0x00) sOpen = some (0, 16) := by decide

/-- V-HAZ-1: ENC.START drops what was buffered, with no Sink call. -/
theorem test_encStart_abandons :
    (after .encStart (sEnc 0 65536 65536 1 0x80 1)).enc = ⟨.active, none, 0, 65536, 65536, 0, 0, 0⟩ ∧
    (after .encStart (sEnc 0 65536 65536 1 0x80 1)).sink.units = [] := by decide

/-- V-ENC-5: thirteen E2 iterations, one Sink call on the way. -/
theorem test_encPut_thirteen_bits :
    (after (.encPut 16382 16383 16383) sOpen).enc = ⟨.active, none, 24576, 65536, 40960, 0, 0xF8, 5⟩ ∧
    (after (.encPut 16382 16383 16383) sOpen).sink.units = [⟨0xFF, 8⟩] := by decide

/-- V-ENC-11: EPENDING, with the bounds of the faulting iteration. -/
theorem test_encPut_epending :
    (after (.encPut 1 3 4) (sSmall 0 64 64 3)).enc = ⟨.fault, some .epending, 16, 48, 64, 3, 0, 0⟩ ∧
    answerOf (.encPut 1 3 4) (sSmall 0 64 64 3) = some (6, 0) := by decide

/-- V-ENC-9, sixth row: case 3 with an increment. -/
theorem test_encFinish_case3 :
    (after .encFinish (sEnc 10922 54612 43690 1 0 0)).sink.units = [⟨0x60, 3⟩] ∧
    (after .encFinish (sEnc 10922 54612 43690 1 0 0)).enc
      = ⟨.idle, none, 10922, 54612, 43690, 0, 0, 0⟩ := by decide

/-- V-ENC-12: EPENDING before any bit is written. -/
theorem test_encFinish_epending :
    (after .encFinish (sSmall 8 56 48 3)).enc = ⟨.fault, some .epending, 8, 56, 48, 3, 0, 0⟩ ∧
    (after .encFinish (sSmall 8 56 48 3)).sink.units = [] := by decide

/-- V-DEC-1, second row: the bits of 0xAB below its 3 valid ones are masked off. -/
theorem test_decStart_masks :
    (after .decStart (sSource [.reply 0xAB 3])).dec
      = ⟨.active, none, 0, 65536, 65536, 49151, true, 0, 0, 0, 0⟩ ∧
    (after .decStart (sSource [.reply 0xAB 3])).source.fills = 2 := by decide

/-- V-DEC-5, first row: ESOURCE with the bits read so far. -/
theorem test_decStart_esource :
    (after .decStart (sSource [.reply 0xAB 8, .reply 0x00 9])).dec
      = ⟨.fault, some .esource, 0, 65536, 65536, 171, false, 0, 0, 0, 0⟩ ∧
    answerOf .decStart (sSource [.reply 0xAB 8, .reply 0x00 9]) = some (5, 0) := by decide

/-- V-DEC-3: the largest total. -/
theorem test_decScale :
    answerOf (.decScale 16383) (sDec .active 65535 0 0) = some (0, 16382) ∧
    decStatus (after (.decScale 16383) (sDec .active 65535 0 0)).dec = 0x102 := by decide

/-- V-DEC-3: a total of 0 and one above FREQ_MAX. -/
theorem test_decScale_emodel :
    answerOf (.decScale 0) (sDec .active 65535 0 0) = some (4, 0) ∧
    answerOf (.decScale 16384) (sDec .active 65535 0 0) = some (4, 0) := by decide

/-- V-DEC-7: one E1, reading the first bit of the third unit. -/
theorem test_decNarrow_reads_a_unit :
    (after (.decNarrow 0 2 4) sThirdUnit).dec
      = ⟨.active, none, 0, 65536, 65536, 46590, false, 0x66, 7, 4, 1⟩ ∧
    (after (.decNarrow 0 2 4) sThirdUnit).source.fills = 3 := by decide

/-- V-DEC-5, second row: the bounds are those of the faulting step, the window is not. -/
theorem test_decNarrow_esource :
    (after (.decNarrow 0 1 4) sBadSource).dec
      = ⟨.fault, some .esource, 0, 32768, 65536, 4660, false, 0, 0, 4, 0⟩ ∧
    (after (.decNarrow 0 1 4) sBadSource).source.fills = 3 := by decide

/-- V-FSC-1: where the forward variant would differ, and the largest total. -/
theorem test_fscale :
    answerOf (.fscale 9362 65536 7) sFaulted = some (0, 1) ∧
    answerOf (.fscale 65535 65536 16383) sFaulted = some (0, 16382) := by decide

/-- V-FSC-1: the domain. -/
theorem test_fscale_edomain :
    answerOf (.fscale 5 5 5) sOpen = some (7, 0) ∧ answerOf (.fscale 1 3 4) sOpen = some (7, 0) ∧
    answerOf (.fscale 0 65537 1) sOpen = some (7, 0) ∧
    answerOf (.fscale 0 65536 16384) sOpen = some (7, 0) ∧
    answerOf (.fscale (2 ^ 63) 65536 1) sOpen = some (7, 0) := by decide

/-- V-SYS-3 through `step`: an illegal packet is answered EILLEGAL and starts no stream; a legal one,
placed in the same way, does. -/
theorem test_step_from_reset :
    (match step (State.reset.withFetchWord 256 0x110) with
      | .next t => (t.enc.phase, t.responses)
      | _ => (.fault, [])) = (.idle, [⟨.eillegal, 0⟩]) ∧
    (match step (State.reset.withFetchWord 256 0x10) with
      | .next t => (t.enc.phase, t.responses)
      | _ => (.fault, [])) = (.active, [⟨.ok, 0⟩]) := by decide

/-- The response's 72 bits (rule R79). -/
theorem test_response_bits : (Response.mk .emodel 0x101).bits = 0x000000000000010104#72 := by decide

end Sys2Proof.Tests
end

