-- ==== Sys2Proof/Tests/Witnesses.lean ====
section
/-!
SUPPORT. For each obligation with hypotheses, a concrete state and operands that meet them together, one
for each clause. An obligation without hypotheses has none here.
-/

namespace Sys2Proof.Tests

open Sys2Proof Sys2Proof.Machine

theorem sOpen_inv : sOpen.Inv :=
  ⟨by decide, by decide, by decide, by decide, by decide, by decide, by decide, by decide⟩
theorem sFaulted_inv : sFaulted.Inv :=
  ⟨by decide, by decide, by decide, by decide, by decide, by decide, by decide, by decide⟩
theorem sThirdUnit_inv : sThirdUnit.Inv :=
  ⟨by decide, by decide, by decide, by decide, by decide, by decide, by decide, by decide⟩
theorem sBadSource_inv : sBadSource.Inv :=
  ⟨by decide, by decide, by decide, by decide, by decide, by decide, by decide, by decide⟩
theorem sDec_active_inv : (sDec .active 65535 0 0).Inv :=
  ⟨by decide, by decide, by decide, by decide, by decide, by decide, by decide, by decide⟩
theorem sDec_scaled_inv : (sDec .scaled 65535 64 63).Inv :=
  ⟨by decide, by decide, by decide, by decide, by decide, by decide, by decide, by decide⟩
theorem sSmall_full_inv : (sSmall 0 64 64 3).Inv :=
  ⟨by decide, by decide, by decide, by decide, by decide, by decide, by decide, by decide⟩
theorem sSmall_finish_inv : (sSmall 8 56 48 3).Inv :=
  ⟨by decide, by decide, by decide, by decide, by decide, by decide, by decide, by decide⟩
theorem sEnc_inv : (sEnc 10922 54612 43690 1 0x80 1).Inv :=
  ⟨by decide, by decide, by decide, by decide, by decide, by decide, by decide, by decide⟩
theorem reset_inv : State.reset.Inv :=
  ⟨by decide, by decide, by decide, by decide, by decide, by decide, by decide, by decide⟩

/-- The Sink stops accepting with five bits waiting (V-ENC-10 in the middle). -/
def sStalledSink : State :=
  { sEnc 0 65536 65536 0 0xF8 5 with sink := ⟨[], some 0⟩ }
theorem sStalledSink_inv : sStalledSink.Inv :=
  ⟨by decide, by decide, by decide, by decide, by decide, by decide, by decide, by decide⟩

/-- The Source never replies. -/
def sStalledSource : State := sSource [.never]
theorem sStalledSource_inv : sStalledSource.Inv :=
  ⟨by decide, by decide, by decide, by decide, by decide, by decide, by decide, by decide⟩

/-! ### Parameters and packets -/

theorem witness_IllegalParametersAreRefused :
    Config.elaborate 3 1 1 1 = some ⟨3, 1, 1, 1, by decide, by decide, by decide, by decide, by decide,
      by decide, by decide⟩ ∧ (∃ c, Config.elaborate 62 60 64 64 = some c) :=
  ⟨by decide, _, rfl⟩
theorem witness_EveryPacketIsDecodedByItsFields :
    (State.reset.withFetchWord 256 0x31).inbox = [.command 0x31#256] := by decide
theorem witness_AssemblyFollowsItsSyntax :
    ("DEC_SCALED".toList, 0x28) ∈ registerNames ∧
    assembleLine "ENC.PUT 2, 4, 4".toList = some (.encPut 2 4 4) := by decide
theorem witness_DecodeEncodeRoundTrip :
    (Instr.fscale (2 ^ 64 - 1) 0 (2 ^ 64 - 1)).wellFormed = true ∧ Instr.nop.wellFormed = true := by decide
theorem witness_DecodedCommandsAreWellFormed :
    decode 0xFFFFFFFFFFFFFFFFFFFFFFFFFFFFFFFFFFFFFFFFFFFFFFFF0000000000000022#256
      = .ok (.decNarrow (2 ^ 64 - 1) (2 ^ 64 - 1) (2 ^ 64 - 1)) ∧
    decode 0x0000000000000001000000000000000100000000000000010000000000000012#256
      = .ok .encFinish := by decide

/-! ### The step, reset, and the whole machine -/

theorem witness_StepRunsTheDecodedCommand :
    (State.reset.withFetchWord 256 0x20).inbox = [.command 0x20#256] ∧ decode 0x20#256 = .ok .decStart := by
  decide
theorem witness_WaitingBlockHoldsItsState : State.reset.inbox = [] := by decide
theorem witness_ResetLeavesTheResetValues :
    ({ sFaulted with inbox := [.reset] } : State).inbox = [.reset] := by decide
theorem witness_AfterResetOnlyStartsOpenAStream :
    State.reset.enc = ⟨.idle, none, 0, 0, 0, 0, 0, 0⟩ ∧
    State.reset.dec = ⟨.idle, none, 0, 0, 0, 0, false, 0, 0, 0, 0⟩ ∧
    State.reset.source.KeepsContract State.reset.cfg := by decide
theorem witness_StepKeepsTheInvariant :
    State.reset.Inv ∧ ∃ t, step State.reset = .next t := ⟨reset_inv, _, rfl⟩
theorem witness_StartsEstablishTheInvariant :
    (∃ t, exec .encStart sFaulted = .next t) ∧
    (∀ r ∈ (sSource [.reply 0xAB 3]).source.replies, r.fitsPort .arcdRef = true) ∧
    (∃ t, exec .decStart (sSource [.reply 0xAB 3]) = .next t) :=
  ⟨⟨_, rfl⟩, by decide, _, rfl⟩
theorem witness_EveryStepEndsWhenThePortsComplete :
    sThirdUnit.Inv ∧ sThirdUnit.sink.Accepts ∧ sThirdUnit.source.Answers :=
  ⟨sThirdUnit_inv, by decide, by decide⟩
theorem witness_StalledPortsHaveNoStep :
    (sStalledSink.Inv ∧ exec .encFinish sStalledSink = .fault .sinkNeverAccepts) ∧
    (sStalledSource.Inv ∧ exec .decStart sStalledSource = .fault .sourceNeverReplies) ∧
    sStalledSource.source.replies = [.never] ∧
    (sStalledSink.enc.phase = .active ∧ sStalledSink.enc.lower = 0 ∧
      sStalledSink.enc.upper = sStalledSink.cfg.rangeMax ∧ sStalledSink.enc.pending = 0 ∧
      0 < sStalledSink.enc.fill ∧ sStalledSink.sink.room = some 0) :=
  ⟨⟨sStalledSink_inv, rfl⟩, ⟨sStalledSource_inv, rfl⟩, by decide, by decide⟩

/-- The Sink accepts one more unit, which is all that ENC.FINISH needs, and none, which is too few. -/
theorem witness_StalledPortsHaveNoStep_sink :
    (sStalledSink.Inv ∧ sStalledSink.sink.room = some 0 ∧
      exec .encFinish sStalledSink = .fault .sinkNeverAccepts) ∧
    ({ sStalledSink with sink := ⟨[], some 1⟩ } : State).Inv ∧
    ∃ t, exec .encFinish { sStalledSink with sink := ⟨[], some 1⟩ } = .next t ∧
      t.sink = ⟨[⟨0xF8, 5⟩], some 0⟩ :=
  ⟨⟨sStalledSink_inv, rfl, rfl⟩,
    ⟨by decide, by decide, by decide, by decide, by decide, by decide, by decide, by decide⟩,
    _, rfl, by decide⟩
/-- The Source stalls after two units, which fill DEC.START's window, and after one, which does not. -/
theorem witness_StalledPortsHaveNoStep_source :
    (sSource [.reply 0x5A 8, .reply 0xFF 8, .never]).Inv ∧
    (∃ t, exec .decStart (sSource [.reply 0x5A 8, .reply 0xFF 8, .never]) = .next t ∧
      t.source.replies = [.never]) ∧
    (sSource [.reply 0x5A 8, .never, .reply 0xFF 8]).Inv ∧
    exec .decStart (sSource [.reply 0x5A 8, .never, .reply 0xFF 8]) = .fault .sourceNeverReplies :=
  ⟨⟨by decide, by decide, by decide, by decide, by decide, by decide, by decide, by decide⟩,
    ⟨_, rfl, by decide⟩,
    ⟨by decide, by decide, by decide, by decide, by decide, by decide, by decide, by decide⟩, rfl⟩
theorem witness_ParametersNeverChange : ∃ t, step State.reset = .next t := ⟨_, rfl⟩
theorem witness_EveryCommandGivesOneResponse :
    (∃ t, exec (.fscale 5 5 5) sOpen = .next t) ∧ (∃ t, exec .encStart sOpen = .next t) :=
  ⟨⟨_, rfl⟩, _, rfl⟩
theorem witness_NonStickyErrorsChangeNothing :
    (∃ t, exec (.fscale 5 5 5) sOpen = .next t ∧ t.responses = sOpen.responses ++ [⟨.edomain, 0⟩]) ∧
    (∃ u, exec (.encPut 0 2 4) sOpen = .next u ∧ u.responses = sOpen.responses ++ [⟨.ok, 0⟩]) ∧
    decode 0x110#256 = .error (.reservedField 1) :=
  ⟨⟨_, rfl, by decide⟩, ⟨_, rfl, by decide⟩, by decide⟩
theorem witness_PhaseDecidesWhichCommandsRun :
    State.reset.enc.phase = .idle ∧ State.reset.dec.phase = .idle ∧
    sFaulted.enc.phase = .fault ∧ sFaulted.dec.phase = .fault ∧ (sDec .active 65535 0 0).dec.phase = .active ∧
    (∃ t, exec .encFinish State.reset = .next t ∧ t.responses = State.reset.responses ++ [⟨.eseq, 0⟩]) :=
  ⟨by decide, by decide, by decide, by decide, by decide, _, rfl, by decide⟩
theorem witness_FaultIsLeftOnlyByStart :
    sFaulted.enc.phase = .fault ∧ sFaulted.dec.phase = .fault ∧
    (∃ t, exec (.encPut 0 2 4) sFaulted = .next t) ∧ (∃ t, exec .encStart sFaulted = .next t) ∧
    (∃ t, exec .decStart sFaulted = .next t ∧ t.responses = sFaulted.responses ++ [⟨.ok, 0⟩]) :=
  ⟨by decide, by decide, ⟨_, rfl⟩, ⟨_, rfl⟩, _, rfl, by decide⟩
theorem witness_StreamFaultsAreRecordedForever :
    (∃ t, exec (.encPut 1 1 4) sOpen = .next t ∧ t.responses = sOpen.responses ++ [⟨.emodel, 0⟩]) ∧
    (∃ t, exec (.decNarrow 0 1 4) sBadSource = .next t ∧
      t.responses = sBadSource.responses ++ [⟨.esource, 0⟩]) ∧
    (∃ t, step { sFaulted with inbox := [.reset] } = .next t) :=
  ⟨⟨_, rfl, by decide⟩, ⟨_, rfl, by decide⟩, _, rfl⟩
theorem witness_CommandsReachOnlyTheirUnit :
    (∃ t, exec (.encPut 0 2 4) sOpen = .next t) ∧ (∃ t, exec (.decNarrow 0 2 4) sThirdUnit = .next t) ∧
    (∃ t, exec .nop sOpen = .next t) := ⟨⟨_, rfl⟩, ⟨_, rfl⟩, _, rfl⟩
theorem witness_CommandsKeepTheRegistersTheyDoNotWrite :
    (∃ t, exec .encFinish sOpen = .next t) ∧
    (∃ t, exec (.encPut 0 2 4) sOpen = .next t ∧ t.responses = sOpen.responses ++ [⟨.ok, 0⟩]) ∧
    (∃ t, exec (.decScale 4) sThirdUnit = .next t) ∧
    (∃ t, exec (.decNarrow 0 2 4) sThirdUnit = .next t ∧
      t.responses = sThirdUnit.responses ++ [⟨.ok, 0⟩]) :=
  ⟨⟨_, rfl⟩, ⟨_, rfl, by decide⟩, ⟨_, rfl⟩, _, rfl, by decide⟩
theorem witness_PortTransactionsAreBounded :
    (sOpen.Inv ∧ (∃ t, exec (.encPut 16382 16383 16383) sOpen = .next t) ∧
      (∃ t, exec .encFinish sOpen = .next t) ∧ (∃ t, exec .decStart sOpen = .next t) ∧
      ∃ t, exec .encStart sOpen = .next t) ∧
    (sThirdUnit.Inv ∧ ∃ t, exec (.decNarrow 0 2 4) sThirdUnit = .next t) :=
  ⟨⟨sOpen_inv, ⟨_, rfl⟩, ⟨_, rfl⟩, ⟨_, rfl⟩, _, rfl⟩, sThirdUnit_inv, _, rfl⟩

/-! ### RDREG and FSCALE -/

theorem witness_RdregReadsTheRegisterMap : sFaulted.Inv := sFaulted_inv
theorem witness_FscaleAnswersTheExactInverse :
    FscaleDomain sOpen.cfg 65535 65536 16383 ∧ FscaleDomain sOpen.cfg 0 1 1 ∧
    ¬ FscaleDomain sOpen.cfg 5 5 5 := by decide
theorem witness_FscaleInvertsNarrowing :
    (1 ≤ 7 ∧ 7 ≤ 65536 ∧ 7 ≤ 7) ∧ 9362 < 65536 ∧ (100 ≤ 9462 ∧ 9462 - 100 = 9362 ∧ 1 ≤ 7 ∧ 3 ≤ 7) := by
  decide
theorem witness_FscaleInverseLaw : (1 ≤ 7 ∧ 7 ≤ 7 ∧ 7 ≤ 7) ∧ (1 ≤ 64 ∧ 64 ≤ 65536 ∧ 63 ≤ 64) := by decide
theorem witness_FscaleValueRange :
    (1 ≤ 7 ∧ 7 ≤ 7 ∧ 6 < 7) ∧ (6 < 7 ∧ 7 ≤ sOpen.cfg.freqMax) ∧
    ((sDec .active 65535 0 0).Inv ∧ (sDec .active 65535 0 0).dec.Open ∧
      TotalOk (sDec .active 65535 0 0).cfg 16383) :=
  ⟨by decide, by decide, sDec_active_inv, by decide, by decide⟩

/-! ### The interval primitives -/

theorem witness_NarrowedIntervalStaysInside :
    IntervalOk .arcdRef 0 65536 65536 ∧ ProbOk .arcdRef 0 1 1 ∧ IntervalOk .small 15 33 18 ∧
    ProbOk .small 14 15 15 := by decide
theorem witness_RenormalizationNeverOverflows :
    (IntervalOk .arcdRef 0 65536 65536 ∧ ProbOk .arcdRef 16382 16383 16383) ∧
    ((16384 < 49152 ∧ 49152 ≤ Config.arcdRef.rangeMax) ∧
      classify .arcdRef 16384 49152 = some .e3) := by decide
theorem witness_RenormalizationLoopEnds :
    (sEnc 26214 26215 26214 0 0 0).encPath.reg.lower < (sEnc 26214 26215 26214 0 0 0).encPath.reg.upper ∧
    (sEnc 26214 26215 26214 0 0 0).encPath.reg.upper ≤ Config.arcdRef.rangeMax ∧
    sThirdUnit.decPath.reg.lower < sThirdUnit.decPath.reg.upper ∧
    sThirdUnit.decPath.reg.upper ≤ Config.arcdRef.rangeMax := by decide
theorem witness_StopMeansAWideInterval :
    classify .arcdRef 16383 49152 = none ∧ 49152 ≤ Config.arcdRef.rangeMax := by decide
theorem witness_TotalsStayBelowTheRange :
    IntervalOk .arcdRef 16383 32769 16386 ∧ ProbOk .arcdRef 0 16383 16383 ∧
    TotalOk .arcdRef 16383 := by decide
theorem witness_RangeStaysLegalButCanGrow :
    (IntervalOk .arcdRef 21845 65536 43691 ∧ ProbOk .arcdRef 1 2 2) ∧
    (sOpen.Inv ∧ ∃ t, exec (.encPut 1 3 3) sOpen = .next t ∧ t.enc.phase = .active) ∧
    (sThirdUnit.Inv ∧ ∃ t, exec (.decNarrow 0 2 4) sThirdUnit = .next t ∧ t.dec.phase = .active) :=
  ⟨by decide, ⟨sOpen_inv, _, rfl, by decide⟩, sThirdUnit_inv, _, rfl, by decide⟩

/-! ### The encoder -/

theorem witness_PutBitPlacesTheNextBit : sOpen.encPath.sink.Accepts := by decide
theorem witness_EmitWithPendingWritesTheComplements :
    (sEnc 0 65536 65536 2 0xFE 7).encPath.reg.fill < Config.arcdRef.bufBits ∧
    BufferOk .arcdRef (sEnc 0 65536 65536 2 0xFE 7).encPath.reg.buf
      (sEnc 0 65536 65536 2 0xFE 7).encPath.reg.fill ∧
    (sEnc 0 65536 65536 2 0xFE 7).encPath.sink.Accepts := by decide
theorem witness_EncPutRefinesTheBitListEncoder :
    (sOpen.Inv ∧ sOpen.enc.phase = .active ∧ sOpen.sink.Accepts ∧ ProbOk sOpen.cfg 0 2 4 ∧
      refPut sOpen.cfg sOpen.enc 0 2 4 = some ⟨0, 65536, 0, [false]⟩) ∧
    ((sSmall 0 64 64 3).Inv ∧ (sSmall 0 64 64 3).enc.phase = .active ∧
      (sSmall 0 64 64 3).sink.Accepts ∧ ProbOk (sSmall 0 64 64 3).cfg 1 3 4 ∧
      refPut (sSmall 0 64 64 3).cfg (sSmall 0 64 64 3).enc 1 3 4 = none) :=
  ⟨⟨sOpen_inv, by decide, by decide, by decide, by decide⟩,
    sSmall_full_inv, by decide, by decide, by decide, by decide⟩
theorem witness_EncPutCompletesWithRoomToDefer :
    sOpen.Inv ∧ sOpen.enc.phase = .active ∧ sOpen.sink.Accepts ∧ ProbOk sOpen.cfg 16382 16383 16383 ∧
    sOpen.enc.pending + sOpen.cfg.rangeBits ≤ sOpen.cfg.pendingMax :=
  ⟨sOpen_inv, by decide, by decide, by decide, by decide⟩
theorem witness_CertainSymbolsMoveNoBit :
    (sOpen.Inv ∧ sOpen.enc.phase = .active ∧ 1 ≤ 16383 ∧ 16383 ≤ sOpen.cfg.freqMax) ∧
    ((sDec .scaled 65535 64 63).Inv ∧ (sDec .scaled 65535 64 63).dec.phase = .scaled) :=
  ⟨⟨sOpen_inv, by decide, by decide, by decide⟩, sDec_scaled_inv, by decide⟩
theorem witness_ModelViolationsArePrecise :
    (sOpen.enc.phase = .active ∧ ¬ (0 < 1 ∧ 1 ≤ 16384 ∧ 16384 ≤ sOpen.cfg.freqMax) ∧
      ¬ (1 < 1 ∧ 1 ≤ 4 ∧ 4 ≤ sOpen.cfg.freqMax)) ∧
    ((sDec .active 65535 0 0).dec.Open ∧ (sDec .active 65535 0 0).cfg.freqMax < 16384) ∧
    ((sDec .scaled 65535 64 63).dec.phase = .scaled ∧ 65 ≠ (sDec .scaled 65535 64 63).dec.total ∧
      ¬ (0 ≤ (sDec .scaled 65535 64 63).dec.scaled ∧ (sDec .scaled 65535 64 63).dec.scaled < 8)) := by
  decide
theorem witness_PendingOverflowLeavesTheFaultingIteration :
    (∃ t, exec (.encPut 1 3 4) (sSmall 0 64 64 3) = .next t ∧
      t.responses = (sSmall 0 64 64 3).responses ++ [⟨.epending, 0⟩]) ∧
    ((sSmall 0 64 64 3).enc.phase = .active ∧ ProbOk .small 1 3 4 ∧
      (sSmall 0 64 64 3).enc.pending = Config.small.pendingMax ∧
      classify .small (0 + 64 * 1 / 4) (0 + 64 * 3 / 4) = some .e3) ∧
    ((sSmall 8 56 48 3).enc.phase = .active ∧ (sSmall 8 56 48 3).enc.lower ≠ 0 ∧
      (sSmall 8 56 48 3).enc.upper ≠ Config.small.rangeMax ∧
      (sSmall 8 56 48 3).enc.pending = Config.small.pendingMax) :=
  ⟨⟨_, rfl, by decide⟩, by decide, by decide⟩
theorem witness_EncFinishWritesTheFinalBits :
    (sEnc 10922 54612 43690 1 0x80 1).Inv ∧ (sEnc 10922 54612 43690 1 0x80 1).enc.phase = .active ∧
    (sEnc 10922 54612 43690 1 0x80 1).sink.Accepts ∧
    ¬ FinishOverflows .arcdRef (sEnc 10922 54612 43690 1 0x80 1).enc ∧
    ¬ FinishOverflows .small (sSmall 0 64 64 3).enc :=
  ⟨sEnc_inv, by decide, by decide, by decide, by decide⟩
theorem witness_SinkGetsFullUnitsThenOneShort :
    (sOpen.Inv ∧ ∃ t, exec (.encPut 16382 16383 16383) sOpen = .next t) ∧
    ((sEnc 10922 54612 43690 1 0x80 1).Inv ∧
      ∃ t, exec .encFinish (sEnc 10922 54612 43690 1 0x80 1) = .next t) :=
  ⟨⟨sOpen_inv, _, rfl⟩, sEnc_inv, _, rfl⟩
theorem witness_EncoderIsDeterministic :
    sOpen.cfg = ({ sOpen with dec := sThirdUnit.dec } : State).cfg ∧
    sOpen.enc = ({ sOpen with dec := sThirdUnit.dec } : State).enc ∧
    sOpen.sink = ({ sOpen with dec := sThirdUnit.dec } : State).sink ∧
    (∃ t, runCommands [.encPut 0 2 4, .encFinish] sOpen = .next t) ∧
    (∃ t, runCommands [.encPut 0 2 4, .encFinish] { sOpen with dec := sThirdUnit.dec } = .next t) :=
  ⟨by decide, by decide, by decide, ⟨_, rfl⟩, _, rfl⟩

/-! ### The decoder -/

/-- Rule R53 at its bounds: a count of `BUF_BITS` counts, one above does not and ends the stream. -/
theorem witness_InputStreamIsTheValidBitsInOrder :
    inputBits .arcdRef [.reply 0x80 1, .reply 0xA5 8, .reply 0xFF 9, .reply 0xFF 8] =
      [true, true, false, true, false, false, true, false, true] ∧
    (0xBF / 2 ^ (Config.arcdRef.bufBits - 2) = 0x80 / 2 ^ (Config.arcdRef.bufBits - 2)) ∧
    sStalledSource.dec.exhausted = false ∧ sStalledSource.dec.left = 0 := by decide
theorem witness_NextBitFollowsItsRule :
    (sDec .active 65535 0 0).decPath.reg.exhausted = true ∧
    ((after (.decNarrow 0 2 4) sThirdUnit).decPath.reg.exhausted = false ∧
      (after (.decNarrow 0 2 4) sThirdUnit).decPath.reg.left ≠ 0) ∧
    (sThirdUnit.decPath.reg.exhausted = false ∧ sThirdUnit.decPath.reg.left = 0 ∧
      sThirdUnit.decPath.source.replies = [.reply 0x33 8]) := by decide
theorem witness_DecStartFillsTheWindow :
    (∀ r ∈ (sSource [.reply 0xAB 3]).source.replies, r.fitsPort .arcdRef = true) ∧
    (sSource [.reply 0xAB 3]).source.KeepsContract .arcdRef := by decide
theorem witness_DecScaleLatchesTheScaledValue :
    (sDec .active 65535 0 0).Inv ∧ (sDec .active 65535 0 0).dec.Open ∧ 1 ≤ 12 ∧
    12 ≤ (sDec .active 65535 0 0).cfg.freqMax ∧
    tableFrom .arcdRef 12 0 [⟨0, 4, 12⟩, ⟨4, 9, 12⟩, ⟨9, 12, 12⟩] = true :=
  ⟨sDec_active_inv, by decide, by decide, by decide, by decide⟩
theorem witness_DecNarrowRefinesTheBitListDecoder :
    sThirdUnit.Inv ∧ sThirdUnit.dec.phase = .scaled ∧ sThirdUnit.source.KeepsContract sThirdUnit.cfg ∧
    NarrowOk sThirdUnit.cfg sThirdUnit.dec 0 2 4 :=
  ⟨sThirdUnit_inv, by decide, by decide, by decide⟩
theorem witness_SourceViolationLeavesTheFaultingStep :
    ((sSource [.reply 0xAB 8, .reply 0x00 9]).source.replies
        = [.reply 0xAB 8] ++ .reply 0x00 9 :: [] ∧ Config.arcdRef.bufBits < 9 ∧
      (∀ g ∈ [SourceReply.reply 0xAB 8], ∃ w' m, g = .reply w' m ∧ w' < 2 ^ Config.arcdRef.bufBits ∧
        1 ≤ m ∧ m ≤ Config.arcdRef.bufBits) ∧
      (inputBits .arcdRef [.reply 0xAB 8]).length < Config.arcdRef.rangeBits) ∧
    (sBadSource.Inv ∧ ∃ t, exec (.decNarrow 0 1 4) sBadSource = .next t ∧
      t.responses = sBadSource.responses ++ [⟨.esource, 0⟩]) ∧
    (sBadSource.dec.phase = .scaled ∧ NarrowOk sBadSource.cfg sBadSource.dec 0 1 4 ∧
      sBadSource.dec.exhausted = false ∧ sBadSource.dec.left = 0 ∧
      sBadSource.source.replies = [.reply 0x00 9] ∧
      classify sBadSource.cfg (0 + 65536 * 0 / 4) (0 + 65536 * 1 / 4) = some .e1) :=
  ⟨⟨by decide, by decide, fun g hg => ⟨0xAB, 8, by simpa using hg, by decide, by decide, by decide⟩,
      by decide⟩, ⟨sBadSource_inv, _, rfl, by decide⟩, by decide⟩

/-- V-SRC-3's bits in one unit, and cut in two with a 1 bit after them. -/
theorem witness_DecodingIgnoresTheCutIntoUnits :
    (sSource [.reply 0xA0 4]).cfg = (sSource [.reply 0x80 2, .reply 0xA0 3]).cfg ∧
    (sSource [.reply 0xA0 4]).responses = (sSource [.reply 0x80 2, .reply 0xA0 3]).responses ∧
    (∀ r ∈ [SourceReply.reply 0xA0 4, .reply 0x80 2, .reply 0xA0 3],
      r.fitsPort .arcdRef = true ∧ r.keepsContract .arcdRef = true) ∧
    inputBits .arcdRef [.reply 0x80 2, .reply 0xA0 3] = inputBits .arcdRef [.reply 0xA0 4] ++ [true] ∧
    (∀ i ∈ [Instr.decScale 4, .decNarrow 2 4 4], i.opcode = 0x21 ∨ i.opcode = 0x22) := by decide
theorem witness_DecodingIgnoresTheCut_padding (k : Nat) :
    (inputBits .arcdRef (sSource [.reply 0xA0 4]).source.replies).getD k true =
      (inputBits .arcdRef (sSource [.reply 0x80 2, .reply 0xA0 3]).source.replies).getD k true := by
  rcases k with _ | _ | _ | _ | _ | k <;> rfl

/-! ### Both units -/

theorem witness_EncoderAndDecoderStayInLockstep :
    (∃ t, exec .encStart State.reset = .next t) ∧
    (∃ v, exec .decStart State.reset = .next v ∧ v.responses = State.reset.responses ++ [⟨.ok, 0⟩]) ∧
    (sOpen.cfg = sThirdUnit.cfg ∧ sOpen.enc.lower = sThirdUnit.dec.lower ∧
      sOpen.enc.upper = sThirdUnit.dec.upper ∧ sOpen.enc.range = sThirdUnit.dec.range) ∧
    (∃ t, exec (.encPut 0 2 4) sOpen = .next t ∧ t.responses = sOpen.responses ++ [⟨.ok, 0⟩]) ∧
    (∃ v, exec (.decNarrow 0 2 4) sThirdUnit = .next v ∧
      v.responses = sThirdUnit.responses ++ [⟨.ok, 0⟩]) :=
  ⟨⟨_, rfl⟩, ⟨_, rfl, by decide⟩, by decide, ⟨_, rfl, by decide⟩, _, rfl, by decide⟩

/-- V-DEC-6: the one-symbol stream `[1]` under the weights 4, 5, 3, and the same bits with a 1 after them. -/
theorem witness_DecodingRecoversWhatWasEncoded :
    tableFrom State.reset.cfg 12 0 [⟨0, 4, 12⟩, ⟨4, 9, 12⟩, ⟨9, 12, 12⟩] = true ∧
    State.reset.sink.units = [] ∧
    ((encodeSymbols [⟨0, 4, 12⟩, ⟨4, 9, 12⟩, ⟨9, 12, 12⟩] [1] State.reset).map (·.sink.units)
      = some [⟨0x40, 2⟩]) ∧
    (∀ r ∈ (sSource [.reply 0x00 1, .reply 0xC0 2]).source.replies, r.fitsPort .arcdRef = true) ∧
    TransportDelivers .arcdRef [⟨0x40, 2⟩] (sSource [.reply 0x00 1, .reply 0xC0 2]).source :=
  ⟨by decide, by decide, by decide, by decide, by decide, 1, by decide⟩

end Sys2Proof.Tests
end

section
/-!
The elaboration of a block (rules R8, R10 and R179): which configuration it gives, and when it gives one.
-/
namespace Sys2Proof

/-- A configuration carries rule R8's ranges and rule R10's constraint as proofs. -/
theorem Config.legal (c : Config) : Config.Legal c.rangeBits c.freqBits c.bufBits c.pendingBits :=
  ⟨⟨c.freq_pos, c.freq_le_range, c.range_le⟩, ⟨c.buf_pos, c.buf_le⟩, c.pending_pos, c.pending_le⟩

/-- Legality needs no hypothesis on the right: `c` carries it (`Config.legal`). -/
theorem Config.elaborate_eq_some_iff {rb fb bb pb : Nat} {c : Config} :
    Config.elaborate rb fb bb pb = some c ↔
      c.rangeBits = rb ∧ c.freqBits = fb ∧ c.bufBits = bb ∧ c.pendingBits = pb := by
  unfold Config.elaborate
  constructor
  · intro h
    split at h
    · cases h
      exact ⟨rfl, rfl, rfl, rfl⟩
    · cases h
  · rintro ⟨rfl, rfl, rfl, rfl⟩
    rw [dif_pos c.legal]

theorem Config.exists_elaborate_eq_some_iff {rb fb bb pb : Nat} :
    (∃ c, Config.elaborate rb fb bb pb = some c) ↔ Config.Legal rb fb bb pb := by
  constructor
  · rintro ⟨c, hc⟩
    obtain ⟨rfl, rfl, rfl, rfl⟩ := Config.elaborate_eq_some_iff.mp hc
    exact c.legal
  · intro h
    exact ⟨_, dif_pos h⟩

/-- Settles O1: legality decides whether there is a configuration, and the configuration's fields are the
parameters given. -/
theorem illegalParametersAreRefused : Obligations.IllegalParametersAreRefused := by
  intro rb fb bb pb
  refine ⟨?_, fun c hc => Config.elaborate_eq_some_iff.mp hc⟩
  rw [Config.exists_elaborate_eq_some_iff]
  simp only [Config.Legal, and_assoc]

end Sys2Proof
end

section
/-!
One step of the block and one command, each with everything it can do (`10_state.md` rules R20, R35 and
R36, `60_exceptions.md` rule R187).
-/
namespace Sys2Proof.Machine

variable {s t : State} {k : Code} {pl pu pt total : Nat}

/-! ### The step -/

theorem step_reset {rest : List HostEvent} (h : s.inbox = .reset :: rest) :
    step s = .next (State.afterReset { s with inbox := rest }) := by
  simp only [step, h]

theorem step_command {p : Packet} {rest : List HostEvent} {i : Instr}
    (h : s.inbox = .command p :: rest) (hp : decode p = .ok i) :
    step s = exec i { s with inbox := rest } := by
  simp only [step, h, hp]

/-- Every way in which a step reaches a next state. -/
theorem step_eq_next (h : step s = .next t) :
    t = s ∨ (∃ rest, t = State.afterReset { s with inbox := rest }) ∨
    (∃ rest i, exec i { s with inbox := rest } = .next t) ∨
    (∃ rest, t = State.illegalPacket { s with inbox := rest }) := by
  unfold step at h
  split at h
  · cases h
    exact .inl rfl
  · cases h
    exact .inr (.inl ⟨_, rfl⟩)
  · split at h
    · exact .inr (.inr (.inl ⟨_, _, h⟩))
    · cases h
      exact .inr (.inr (.inr ⟨_, rfl⟩))

/-- Settles O7, by the step's equation for a packet that decodes. -/
theorem stepRunsTheDecodedCommand : Obligations.StepRunsTheDecodedCommand :=
  fun _ _ _ _ h hp => step_command h hp

/-- Settles O9: the reset event is `afterReset`, whose registers are `Enc.reset` and `Dec.reset`. -/
theorem resetLeavesTheResetValues : Obligations.ResetLeavesTheResetValues :=
  ⟨fun _ _ h => ⟨_, step_reset h, rfl, rfl, rfl, rfl, rfl, rfl⟩, rfl, rfl⟩

/-! ### The commands that check a phase -/

/-- The three ways of ENC.PUT: an error, EMODEL, or its primitives. -/
theorem exec_encPut_eq_next (h : exec (.encPut pl pu pt) s = .next t) :
    (∃ k, t = s.respond k 0) ∨ t = s.raiseEnc .emodel ∨
    (openStreamCheck s.enc.phase = none ∧ ProbOk s.cfg pl pu pt ∧
      s.endEnc (encPutSymbol s.cfg pl pu pt s.encPath) = .next t) := by
  cases hk : openStreamCheck s.enc.phase with
  | some k =>
    rw [exec_encPut_notOpen hk] at h
    cases h
    exact .inl ⟨k, rfl⟩
  | none =>
    by_cases hp : ProbOk s.cfg pl pu pt
    · exact .inr (.inr ⟨rfl, hp, exec_encPut_runs hk hp ▸ h⟩)
    · rw [exec_encPut_emodel hk hp] at h
      cases h
      exact .inr (.inl rfl)

/-- The two ways of ENC.FINISH: an error, or its primitives. -/
theorem exec_encFinish_eq_next (h : exec .encFinish s = .next t) :
    (∃ k, t = s.respond k 0) ∨
    (openStreamCheck s.enc.phase = none ∧
      s.endEnc (encFinishStream s.cfg s.encPath) = .next t) := by
  cases hk : openStreamCheck s.enc.phase with
  | some k =>
    rw [exec_encFinish_notOpen hk] at h
    cases h
    exact .inl ⟨k, rfl⟩
  | none => exact .inr ⟨rfl, exec_encFinish_runs hk ▸ h⟩

/-- The three ways of DEC.SCALE: an error, EMODEL, or the latches. -/
theorem exec_decScale_eq_next (h : exec (.decScale total) s = .next t) :
    (∃ k, t = s.respond k 0) ∨ t = s.raiseDec .emodel ∨
    (openStreamCheck s.dec.phase = none ∧ TotalOk s.cfg total ∧
      t = State.respond { s with dec := s.dec.latch total } .ok (scaledValue s.dec total)) := by
  cases hk : openStreamCheck s.dec.phase with
  | some k =>
    rw [exec_decScale_notOpen hk] at h
    cases h
    exact .inl ⟨k, rfl⟩
  | none =>
    by_cases ht : TotalOk s.cfg total
    · rw [exec_decScale_runs hk ht] at h
      cases h
      exact .inr (.inr ⟨rfl, ht, rfl⟩)
    · rw [exec_decScale_emodel hk ht] at h
      cases h
      exact .inr (.inl rfl)

/-- The three ways of DEC.NARROW: an error, EMODEL, or its primitives. -/
theorem exec_decNarrow_eq_next (h : exec (.decNarrow pl pu pt) s = .next t) :
    (∃ k, t = s.respond k 0) ∨ t = s.raiseDec .emodel ∨
    (s.dec.phase = .scaled ∧ NarrowOk s.cfg s.dec pl pu pt ∧
      s.endDec (decNarrowSymbol s.cfg pl pu pt s.decPath) = .next t) := by
  cases hk : scaledStepCheck s.dec.phase with
  | some k =>
    rw [exec_decNarrow_notScaled hk] at h
    cases h
    exact .inl ⟨k, rfl⟩
  | none =>
    by_cases hp : NarrowOk s.cfg s.dec pl pu pt
    · exact .inr (.inr ⟨scaledStepCheck_eq_none.1 hk, hp, exec_decNarrow_runs hk hp ▸ h⟩)
    · rw [exec_decNarrow_emodel hk hp] at h
      cases h
      exact .inr (.inl rfl)

/-! ### The commands that only answer -/

theorem exec_encStart : exec .encStart s =
    .next (State.respond (s.withEncPath ⟨Enc.opened s.cfg, s.sink⟩) .ok 0) := rfl

/-- RDREG answers, and an error carries the value 0. -/
theorem exec_rdreg_eq_next {n : Nat} (h : exec (.rdreg n) s = .next t) :
    ∃ k v, t = s.respond k v ∧ (k ≠ .ok → v = 0) := by
  cases hn : csr s n with
  | none =>
    rw [exec_rdreg_unassigned hn] at h
    cases h
    exact ⟨_, _, rfl, fun _ => rfl⟩
  | some v =>
    rw [exec_rdreg_assigned hn] at h
    cases h
    exact ⟨_, _, rfl, fun hk => absurd rfl hk⟩

/-- FSCALE answers, and an error carries the value 0. -/
theorem exec_fscale_eq_next {v range total : Nat} (h : exec (.fscale v range total) s = .next t) :
    ∃ k v, t = s.respond k v ∧ (k ≠ .ok → v = 0) := by
  by_cases hd : FscaleDomain s.cfg v range total
  · rw [exec_fscale_inDomain hd] at h
    cases h
    exact ⟨_, _, rfl, fun hk => absurd rfl hk⟩
  · rw [exec_fscale_outOfDomain hd] at h
    cases h
    exact ⟨_, _, rfl, fun _ => rfl⟩

/-! ### What a command of a unit leaves unchanged -/

/-- What no command of ENC reaches. -/
structure EncFrame (s t : State) : Prop where
  cfg : t.cfg = s.cfg
  inbox : t.inbox = s.inbox
  dec : t.dec = s.dec
  source : t.source = s.source

/-- What no command of DEC reaches. -/
structure DecFrame (s t : State) : Prop where
  cfg : t.cfg = s.cfg
  inbox : t.inbox = s.inbox
  enc : t.enc = s.enc
  sink : t.sink = s.sink

theorem endEnc_frame {r : Run EncPath Unit} (h : s.endEnc r = .next t) : EncFrame s t := by
  rcases endEnc_eq_next h with ⟨e, -, rfl⟩ | ⟨f, e, -, rfl⟩
  · exact ⟨rfl, rfl, rfl, rfl⟩
  · exact ⟨rfl, rfl, rfl, rfl⟩

theorem endDec_frame {r : Run DecPath Unit} (h : s.endDec r = .next t) : DecFrame s t := by
  rcases endDec_eq_next h with ⟨d, -, rfl⟩ | ⟨f, d, -, rfl⟩
  · exact ⟨rfl, rfl, rfl, rfl⟩
  · exact ⟨rfl, rfl, rfl, rfl⟩

theorem exec_encPut_frame (h : exec (.encPut pl pu pt) s = .next t) : EncFrame s t := by
  rcases exec_encPut_eq_next h with ⟨k, rfl⟩ | rfl | ⟨-, -, h⟩
  · exact ⟨rfl, rfl, rfl, rfl⟩
  · exact ⟨rfl, rfl, rfl, rfl⟩
  · exact endEnc_frame h

theorem exec_encFinish_frame (h : exec .encFinish s = .next t) : EncFrame s t := by
  rcases exec_encFinish_eq_next h with ⟨k, rfl⟩ | ⟨-, h⟩
  · exact ⟨rfl, rfl, rfl, rfl⟩
  · exact endEnc_frame h

theorem exec_encStart_frame (h : exec .encStart s = .next t) : EncFrame s t := by
  rw [exec_encStart] at h
  cases h
  exact ⟨rfl, rfl, rfl, rfl⟩

theorem exec_decScale_frame (h : exec (.decScale total) s = .next t) : DecFrame s t := by
  rcases exec_decScale_eq_next h with ⟨k, rfl⟩ | rfl | ⟨-, -, rfl⟩
  · exact ⟨rfl, rfl, rfl, rfl⟩
  · exact ⟨rfl, rfl, rfl, rfl⟩
  · exact ⟨rfl, rfl, rfl, rfl⟩

theorem exec_decNarrow_frame (h : exec (.decNarrow pl pu pt) s = .next t) : DecFrame s t := by
  rcases exec_decNarrow_eq_next h with ⟨k, rfl⟩ | rfl | ⟨-, -, h⟩
  · exact ⟨rfl, rfl, rfl, rfl⟩
  · exact ⟨rfl, rfl, rfl, rfl⟩
  · exact endDec_frame h

/-- The three kinds of command: ENC's, DEC's, and those that only answer. -/
theorem exec_eq_next {i : Instr} (h : exec i s = .next t) :
    (i.opcode / 16 = 1 ∧ EncFrame s t) ∨ (i.opcode / 16 = 2 ∧ DecFrame s t) ∨
    (∃ k v, t = s.respond k v ∧ (k ≠ .ok → v = 0)) := by
  cases i with
  | nop =>
    cases h
    exact .inr (.inr ⟨_, _, rfl, fun _ => rfl⟩)
  | rdreg n => exact .inr (.inr (exec_rdreg_eq_next h))
  | encStart => exact .inl ⟨rfl, exec_encStart_frame h⟩
  | encPut pl pu pt => exact .inl ⟨by simp [Instr.opcode], exec_encPut_frame h⟩
  | encFinish => exact .inl ⟨rfl, exec_encFinish_frame h⟩
  | decStart => exact .inr (.inl ⟨rfl, endDec_frame h⟩)
  | decScale total => exact .inr (.inl ⟨by simp [Instr.opcode], exec_decScale_frame h⟩)
  | decNarrow pl pu pt => exact .inr (.inl ⟨by simp [Instr.opcode], exec_decNarrow_frame h⟩)
  | fscale v range total => exact .inr (.inr (exec_fscale_eq_next h))

/-- Settles O22, by the three kinds of command. -/
theorem commandsReachOnlyTheirUnit : Obligations.CommandsReachOnlyTheirUnit := by
  intro i s t h
  rcases exec_eq_next h with ⟨hi, f⟩ | ⟨hi, f⟩ | ⟨k, v, rfl, -⟩
  · exact ⟨f.cfg, f.inbox, fun hn => absurd hi hn, fun _ => ⟨f.dec, f.source⟩,
      fun hn => absurd hi hn⟩
  · exact ⟨f.cfg, f.inbox, fun _ => ⟨f.enc, f.sink⟩, fun hn => absurd hi hn,
      fun _ hn => absurd hi hn⟩
  · exact ⟨rfl, rfl, fun _ => ⟨rfl, rfl⟩, fun _ => ⟨rfl, rfl⟩, fun _ _ => rfl⟩

theorem exec_cfg {i : Instr} (h : exec i s = .next t) : t.cfg = s.cfg :=
  (commandsReachOnlyTheirUnit i s t h).1

theorem step_cfg (h : step s = .next t) : t.cfg = s.cfg := by
  rcases step_eq_next h with rfl | ⟨rest, rfl⟩ | ⟨rest, i, h⟩ | ⟨rest, rfl⟩
  · rfl
  · rfl
  · exact (exec_cfg h).trans rfl
  · rfl

/-- Settles O16: the four registers read the parameters, and no way of a step writes them. -/
theorem parametersNeverChange : Obligations.ParametersNeverChange :=
  fun _ => ⟨rfl, rfl, rfl, rfl, fun _ h => step_cfg h⟩

end Sys2Proof.Machine
end

section
/-!
The register map of rule R40: what RDREG reads, and that it fits 64 bits in a state with the invariant.
-/
namespace Sys2Proof.Machine

/-- Rule R40's table: the assigned numbers, each with its register's value. -/
def registerMap (s : State) : List (Nat × Nat) :=
  [(0x00, s.cfg.rangeBits), (0x01, s.cfg.freqBits), (0x02, s.cfg.bufBits), (0x03, s.cfg.pendingBits),
    (0x10, encStatus s.enc), (0x11, s.enc.lower), (0x12, s.enc.upper), (0x13, s.enc.range),
    (0x14, s.enc.pending), (0x15, s.enc.buf), (0x16, s.enc.fill),
    (0x20, decStatus s.dec), (0x21, s.dec.lower), (0x22, s.dec.upper), (0x23, s.dec.range),
    (0x24, s.dec.window), (0x25, s.dec.buf), (0x26, s.dec.left), (0x27, s.dec.total),
    (0x28, s.dec.scaled)]

theorem csr_of_mem_registerMap (s : State) : ∀ x ∈ registerMap s, csr s x.1 = some x.2 := by
  simp only [registerMap, List.forall_mem_cons, List.not_mem_nil, false_imp_iff, implies_true, csr,
    and_self]

theorem csr_eq_none_of_notMem {s : State} {n : Nat} (h : n ∉ (registerMap s).map Prod.fst) :
    csr s n = none := by
  simp only [registerMap, List.map_cons, List.map_nil] at h
  unfold csr
  split
  case h_21 => rfl
  all_goals exact absurd (by decide) h

/-! ### Bounds on the registers -/

theorem two_pow_le_two_pow_64 {n : Nat} (h : n ≤ 64) : 2 ^ n ≤ 2 ^ 64 :=
  Nat.pow_le_pow_right (by decide) h

theorem Phase.toNat_le (p : Phase) : p.toNat ≤ 3 := by cases p <;> decide

theorem causeToNat_le (f : Option StreamFault) : causeToNat f ≤ 6 := by
  rcases f with _ | _ | _ | _ <;> decide

theorem encStatus_lt (e : Enc) : encStatus e < 2 ^ 64 := by
  have h1 := e.phase.toNat_le
  have h2 := causeToNat_le e.cause
  simp only [encStatus]
  omega

theorem decStatus_lt (d : Dec) : decStatus d < 2 ^ 64 := by
  have h1 := d.phase.toNat_le
  have h2 := causeToNat_le d.cause
  have h3 := d.exhausted.toNat_le
  simp only [decStatus]
  omega

theorem registerMap_lt {s : State} (h : s.Inv) : ∀ x ∈ registerMap s, x.2 < 2 ^ 64 := by
  obtain ⟨⟨hel, heu, her, hep, hef, heb, -⟩, -⟩ := h.enc
  obtain ⟨⟨hdl, hdu, hdr, hdw, hdn, ⟨hdb, -⟩, -, hdt, hds⟩, -⟩ := h.dec
  have hR := s.cfg.two_mul_rangeMax_le
  have hQ := s.cfg.rangeMax_eq_four_quarters
  have hF := s.cfg.two_pow_freqBits_le_quarter
  have hF' := s.cfg.succ_freqMax
  have hP := s.cfg.succ_pendingMax
  have hP' := two_pow_le_two_pow_64 s.cfg.pending_le
  have hB := two_pow_le_two_pow_64 s.cfg.buf_le
  obtain ⟨⟨-, hfr, hr⟩, ⟨-, hb⟩, -, hp⟩ := s.cfg.legal
  have hes := encStatus_lt s.enc
  have hds' := decStatus_lt s.dec
  generalize 2 ^ s.cfg.bufBits = B at *
  generalize 2 ^ s.cfg.freqBits = F at *
  generalize 2 ^ s.cfg.pendingBits = P at *
  simp only [registerMap, List.forall_mem_cons, List.not_mem_nil, false_imp_iff, implies_true]
  refine ⟨?_, ?_, ?_, ?_, hes, ?_, ?_, ?_, ?_, ?_, ?_, hds', ?_, ?_, ?_, ?_, ?_, ?_, ?_, ?_, trivial⟩ <;>
    omega

/-- Settles O26: the statement's table is `registerMap`, with the status layouts of rule R41. -/
theorem rdregReadsTheRegisterMap : Obligations.RdregReadsTheRegisterMap := by
  intro s hs phaseValue causeValue map
  have hphase (p : Phase) : phaseValue p = p.toNat := by cases p <;> rfl
  have hcause (f : Option StreamFault) : causeValue f = causeToNat f := by
    rcases f with _ | _ | _ | _ <;> rfl
  have hmap : map = registerMap s := by
    simp only [map, registerMap, encStatus, decStatus, hphase, hcause, Bool.toNat, cond_eq_ite]
  rw [hmap]
  refine ⟨fun x hx => ⟨registerMap_lt hs x hx, ?_⟩, fun n hn => ?_⟩
  · exact exec_rdreg_assigned (csr_of_mem_registerMap s x hx)
  · exact exec_rdreg_unassigned (csr_eq_none_of_notMem hn)

end Sys2Proof.Machine
end

section
/-!
How a run of primitives ends, as a pair of conditions on the unit, and the interval facts both units
share (`10_state.md` rules R32 and R33).
-/
namespace Sys2Proof.Machine

/-! ### Conditions on the end of a run -/

section
variable {σ α β : Type} {P : σ → Prop} {Q : StreamFault → σ → Prop}

/-- The unit meets `P` where the run goes on and `Q` where it raises a stream fault; nothing is asked
where there is no step. -/
def Run.Meets (r : Run σ α) (P : σ → Prop) (Q : StreamFault → σ → Prop) : Prop :=
  match r with
  | .done _ u => P u
  | .raised f u => Q f u
  | .stuck _ => True

@[simp] theorem meets_done (a : α) (u : σ) : (Run.done a u).Meets P Q ↔ P u := Iff.rfl
@[simp] theorem meets_raised (f : StreamFault) (u : σ) :
    (Run.raised f u : Run σ α).Meets P Q ↔ Q f u := Iff.rfl
@[simp] theorem meets_stuck (f : Fault) : (Run.stuck f : Run σ α).Meets P Q ↔ True := Iff.rfl

theorem meets_mono {r : Run σ α} {P' : σ → Prop} (h : r.Meets P Q) (hP : ∀ u, P u → P' u) :
    r.Meets P' Q := by
  cases r with
  | done a u => exact hP u h
  | raised f u => exact h
  | stuck f => trivial

/-- Conditions compose along the sequence of two runs. -/
theorem meets_andThen {r : Run σ α} {k : α → σ → Run σ β} {P' : σ → Prop} (h : r.Meets P Q)
    (hk : ∀ a u, P u → (k a u).Meets P' Q) : (r.andThen k).Meets P' Q := by
  cases r with
  | done a u => exact hk a u h
  | raised f u => exact h
  | stuck f => trivial

end

/-! ### Intervals -/

/-- Where the loop stops, the interval facts hold of the bounds with their difference as the range. -/
theorem intervalOk_of_classify_eq_none {c : Config} {l u : Nat} (hu : u ≤ c.rangeMax)
    (h : classify c l u = none) : IntervalOk c l u (u - l) := by
  have h2 := c.half_eq_two_quarters
  have h3 := c.threeQuarters_eq
  rcases classify_cases c l u with ⟨e, -⟩ | ⟨e, -⟩ | ⟨e, -⟩ | ⟨-, hhu, hlh, hor⟩
  · simp [e] at h
  · simp [e] at h
  · simp [e] at h
  · exact ⟨hlh, hhu, hu, rfl, by omega, hor⟩

/-- The whole interval, as a START leaves it. -/
theorem intervalOk_full (c : Config) : IntervalOk c 0 c.rangeMax c.rangeMax := by
  have h4 := c.rangeMax_eq_four_quarters
  have h2 := c.half_eq_two_quarters
  have hq := c.two_le_quarter
  exact ⟨by omega, by omega, le_rfl, rfl, by omega, .inl (by omega)⟩

/-- A legal total is no more than the range of an open stream. -/
theorem freqMax_lt_range {c : Config} {l u r : Nat} (h : IntervalOk c l u r) : c.freqMax < r := by
  obtain ⟨-, -, -, -, hq, -⟩ := h
  have h1 := c.succ_freqMax
  have h2 := c.two_pow_freqBits_le_quarter
  omega

/-- Narrow takes a legal interval to a non-empty interval within it (rule R104). -/
theorem narrow_bounds {c : Config} {l u r pl pu pt : Nat} (h : IntervalOk c l u r)
    (hp : ProbOk c pl pu pt) : l + r * pl / pt < l + r * pu / pt ∧ l + r * pu / pt ≤ u := by
  have hr := freqMax_lt_range h
  obtain ⟨hlh, hhu, -, hrange, -, -⟩ := h
  obtain ⟨hlu, hut, htm⟩ := hp
  have hpt : 0 < pt := by omega
  have hstep : r * pl / pt < r * pu / pt := by
    calc r * pl / pt < (r * pl + pt) / pt := by rw [Nat.add_div_right _ hpt]; exact Nat.lt_succ_self _
      _ ≤ r * pu / pt := Nat.div_le_div_right (by nlinarith)
  have htop : r * pu / pt ≤ r := Nat.div_le_of_le_mul (by nlinarith)
  omega

/-- The window stays inside the interval that holds its scaled value (rule R137). -/
theorem narrow_contains_window {v r pl pu t : Nat} (hr : 0 < r) (ht : 0 < t)
    (hl : pl ≤ freqScale v r t) (hu : freqScale v r t < pu) : r * pl / t ≤ v ∧ v < r * pu / t := by
  rw [le_freqScale_iff_mul_le hr] at hl
  rw [← not_le, le_freqScale_iff_mul_le hr] at hu
  have hpos : 0 < (v + 1) * t := by positivity
  constructor
  · rw [← Nat.lt_add_one_iff, Nat.div_lt_iff_lt_mul ht, mul_comm r]
    omega
  · rw [← Nat.add_one_le_iff, Nat.le_div_iff_mul_le ht, mul_comm r]
    omega

/-- The scaled value of an offset within the range is below the total. -/
theorem freqScale_lt_total {v r t : Nat} (ht : 0 < t) (hv : v < r) : freqScale v r t < t := by
  rw [← not_le, le_freqScale_iff_mul_le (by omega)]
  have hle : (v + 1) * t ≤ t * r := by rw [mul_comm t]; exact Nat.mul_le_mul_right t hv
  have hpos : 0 < (v + 1) * t := by positivity
  omega

end Sys2Proof.Machine
end

section
/-!
ENC keeps its registers within their widths through every primitive, and its invariant through every
command (`10_state.md` rules R22 to R26, R32 and R34).
-/
namespace Sys2Proof.Machine

variable {c : Config} {e e' : EncPath}

/-- What holds of ENC and the Sink within a command as well: the widths, and units of legal form. -/
structure EncPath.Legal (c : Config) (e : EncPath) : Prop where
  widths : e.reg.Widths c
  sent : ∀ u ∈ e.sink.units, u.Sent c

/-- Where ENC may raise a stream fault: one of its own (rule R171), with everything in its width. -/
structure EncPath.MayRaise (c : Config) (f : StreamFault) (e : EncPath) : Prop where
  own : f ≠ .esource
  legal : e.Legal c

/-- What a command of ENC that ends OK leaves: the invariant, and no fault. -/
structure EncPath.Rests (c : Config) (e : EncPath) : Prop where
  inv : e.reg.Inv c
  noFault : e.reg.cause = none
  sent : ∀ u ∈ e.sink.units, u.Sent c

theorem EncPath.Legal.ready (h : e.Legal c) : e.Ready c := by
  obtain ⟨-, -, -, -, hready⟩ := h.widths
  exact hready

/-- Writing bits keeps the path legal where the other registers stay within their widths. -/
theorem Wrote.legal {bits : List Bool} (w : Wrote c e e' bits) (h : e.Legal c)
    (hl : e'.reg.lower ≤ c.rangeMax) (hu : e'.reg.upper ≤ c.rangeMax)
    (hr : e'.reg.range = e.reg.range) (hp : e'.reg.pending ≤ c.pendingMax) : e'.Legal c := by
  obtain ⟨-, -, hrange, -, -⟩ := h.widths
  obtain ⟨new, hunits, hnew, -⟩ := w.units
  refine ⟨⟨hl, hu, hr ▸ hrange, hp, w.ready⟩, ?_⟩
  rw [hunits]
  exact List.forall_mem_append.2 ⟨h.sent, fun u hu => (hnew u hu).1⟩

/-! ### The primitives -/

theorem emitWithPending_meets (b : Bool) (h : e.Legal c) {Q : StreamFault → EncPath → Prop} :
    (emitWithPending c b e).Meets
      (fun e' => e'.Legal c ∧ e'.reg.pending = 0 ∧ e'.reg.cause = e.reg.cause) Q := by
  rcases emitWithPending_cases b h.ready with ⟨e', hd, w, hf⟩ | ⟨-, hs⟩
  · obtain ⟨hl, hu, -, -, -⟩ := h.widths
    rw [hd]
    refine ⟨w.legal h ?_ ?_ ?_ ?_, ?_, ?_⟩ <;> rw [hf]
    exacts [hl, hu, Nat.zero_le _]
  · rw [hs]
    trivial

theorem deferBit_meets (h : e.Legal c) :
    (deferBit c e).Meets (fun e' => e'.Legal c ∧ e'.reg.cause = e.reg.cause)
      (EncPath.MayRaise c) := by
  rcases deferBit_cases c e with ⟨-, hd⟩ | ⟨hne, hd⟩
  · rw [hd]
    exact ⟨by decide, h⟩
  · obtain ⟨hl, hu, hr, hp, hready⟩ := h.widths
    rw [hd]
    exact ⟨⟨⟨hl, hu, hr, Nat.lt_of_le_of_ne hp hne, hready⟩, h.sent⟩, rfl⟩

/-- One iteration keeps the path legal and the interval non-empty. -/
theorem encStep_meets {k : RenormCase} (h : e.Legal c) (hlu : e.reg.lower < e.reg.upper)
    (hk : classify c e.reg.lower e.reg.upper = some k) :
    (encStep c k e).Meets
      (fun e' => e'.Legal c ∧ e'.reg.lower < e'.reg.upper ∧ e'.reg.phase = e.reg.phase ∧
        e'.reg.cause = e.reg.cause) (EncPath.MayRaise c) := by
  rcases encStep_cases k h.ready with ⟨e', bits, p, hd, w, hf, hp⟩ | ⟨-, -, hd⟩ | ⟨-, hd⟩
  · obtain ⟨-, hu, -, hpend, -⟩ := h.widths
    obtain ⟨hlt, hle, -⟩ := transform_of_classify hlu hu hk
    have hp' : p ≤ c.pendingMax := by
      rcases hp with ⟨-, hp, -⟩ | ⟨-, hp, -⟩ | ⟨-, hne, hp, -⟩ <;> omega
    rw [hd]
    refine ⟨w.legal h ?_ ?_ ?_ ?_, ?_, ?_, ?_⟩ <;> rw [hf]
    exacts [(hlt.trans_le hle).le, hle, hp', hlt]
  · rw [hd]
    exact ⟨by decide, h⟩
  · rw [hd]
    trivial

/-- The loop leaves a legal path on which `classify` stops. -/
theorem encRenorm_meets (fuel : Nat) (h : e.Legal c) (hlu : e.reg.lower < e.reg.upper) :
    (encRenorm c fuel e).Meets
      (fun e' => e'.Legal c ∧ classify c e'.reg.lower e'.reg.upper = none ∧
        e'.reg.phase = e.reg.phase ∧ e'.reg.cause = e.reg.cause) (EncPath.MayRaise c) := by
  induction fuel generalizing e with
  | zero => trivial
  | succ fuel ih =>
    cases hk : classify c e.reg.lower e.reg.upper with
    | none =>
      rw [encRenorm_stop hk]
      exact ⟨h, hk, rfl, rfl⟩
    | some k =>
      rw [encRenorm_iterate hk]
      refine meets_andThen (encStep_meets h hlu hk) fun _ e' ⟨h', hlu', hph, hca⟩ => ?_
      rw [← hph, ← hca]
      exact ih h' hlu'

/-! ### The commands -/

/-- ENC.PUT from an open stream: the invariant again, or a fault of ENC. -/
theorem encPutSymbol_meets {pl pu pt : Nat} (h : e.Rests c) (ha : e.reg.phase = .active)
    (hp : ProbOk c pl pu pt) :
    (encPutSymbol c pl pu pt e).Meets (EncPath.Rests c) (EncPath.MayRaise c) := by
  obtain ⟨⟨-, -, hr, hpend, hready⟩, -, -, -, hopen, -⟩ := h.inv
  obtain ⟨hlt, hle⟩ := narrow_bounds (hopen ha) hp
  obtain ⟨-, -, hu, -, -, -⟩ := hopen ha
  have hn : (e.narrow pl pu pt).Legal c :=
    ⟨⟨(hlt.le.trans hle).trans hu, hle.trans hu, hr, hpend, hready⟩, h.sent⟩
  refine meets_andThen (encRenorm_meets _ hn hlt) fun _ e' ⟨h', hstop, hph, hca⟩ => ?_
  have hact : e'.reg.phase = .active := hph.trans ha
  have hnone : e'.reg.cause = none := hca.trans h.noFault
  obtain ⟨hl', hu', -, hp', hready'⟩ := h'.widths
  refine ⟨⟨⟨hl', hu', (Nat.sub_le _ _).trans hu', hp', hready'⟩, ?_, ?_, ?_,
    fun _ => intervalOk_of_classify_eq_none hu' hstop, ?_⟩, hnone, h'.sent⟩ <;> simp [hact, hnone]

/-- The final bits leave no bit deferred. -/
theorem encFinalBits_meets (h : e.Legal c) :
    (encFinalBits c e).Meets
      (fun e' => e'.Legal c ∧ e'.reg.pending = 0 ∧ e'.reg.cause = e.reg.cause)
      (EncPath.MayRaise c) := by
  unfold encFinalBits
  split
  case isTrue h0 =>
    obtain ⟨-, hp⟩ := h0
    split
    · exact emitWithPending_meets _ h
    · exact ⟨h, hp, rfl⟩
  split
  case isTrue h0 =>
    obtain ⟨-, hp⟩ := h0
    split
    · exact emitWithPending_meets _ h
    · exact ⟨h, hp, rfl⟩
  split
  · refine meets_andThen (deferBit_meets h) fun _ e' ⟨h', hca⟩ => ?_
    rw [← hca]
    exact emitWithPending_meets _ h'
  · exact emitWithPending_meets _ h

/-- Flush leaves an empty buffer, and a short unit of legal form. -/
theorem encFlush_meets (h : e.Legal c) {Q : StreamFault → EncPath → Prop} :
    (encFlush e).Meets
      (fun e' => e'.Legal c ∧ e'.reg.pending = e.reg.pending ∧ e'.reg.cause = e.reg.cause ∧
        e'.reg.fill = 0 ∧ e'.reg.buf = 0) Q := by
  obtain ⟨hl, hu, hr, hp, hfill, hbuf⟩ := h.widths
  rcases encFlush_cases c e with ⟨e', hd, hf, hcase, -, -⟩ | ⟨-, hd⟩
  · rw [hd]
    have hfill' : e'.reg.fill = 0 := by rw [hf]
    have hrest : e'.reg.buf = 0 ∧ ∀ u ∈ e'.sink.units, u.Sent c := by
      rcases hcase with ⟨h0, rfl⟩ | ⟨hpos, hbuf', hunits⟩
      · rw [h0] at hbuf
        obtain ⟨hlt, hmod⟩ := hbuf
        exact ⟨by simpa [Nat.mod_eq_of_lt hlt] using hmod, h.sent⟩
      · rw [hunits]
        exact ⟨hbuf', List.forall_mem_append.2
          ⟨h.sent, List.forall_mem_singleton.2 ⟨hpos, hfill.le, hbuf⟩⟩⟩
    obtain ⟨hbuf', hsent⟩ := hrest
    refine ⟨⟨⟨?_, ?_, ?_, ?_, ?_, ?_⟩, hsent⟩, ?_, ?_, hfill', hbuf'⟩
    case refine_5 => rw [hfill']; exact c.buf_pos
    case refine_6 => rw [hbuf']; exact bufferOk_zero c _
    all_goals rw [hf]
    exacts [hl, hu, hr, hp]
  · rw [hd]
    trivial

/-- ENC.FINISH from an open stream: an idle encoder with nothing left in it, or a fault of ENC. -/
theorem encFinishStream_meets (h : e.Legal c) (hc : e.reg.cause = none) :
    (encFinishStream c e).Meets (EncPath.Rests c) (EncPath.MayRaise c) := by
  refine meets_andThen (encFinalBits_meets h) fun _ e1 ⟨h1, hp1, hc1⟩ => ?_
  refine meets_andThen (encFlush_meets h1) fun _ e2 ⟨h2, hp2, hc2, hf2, hb2⟩ => ?_
  have hnone : e2.reg.cause = none := hc2.trans (hc1.trans hc)
  refine ⟨⟨h2.widths, ?_⟩, hnone, h2.sent⟩
  simp [hnone, hp2, hp1, hf2, hb2]

/-- ENC.START leaves the whole interval and an empty buffer. -/
theorem encOpened_inv (c : Config) : (Enc.opened c).Inv c := by
  refine ⟨⟨Nat.zero_le _, le_rfl, le_rfl, Nat.zero_le _, c.buf_pos, bufferOk_zero c 0⟩,
    ?_, ?_, ?_, fun _ => intervalOk_full c, ?_⟩ <;> simp [Enc.opened]

theorem encReset_inv (c : Config) : Enc.reset.Inv c := by
  refine ⟨⟨Nat.zero_le _, Nat.zero_le _, Nat.zero_le _, Nat.zero_le _, c.buf_pos,
    bufferOk_zero c 0⟩, ?_⟩
  simp [Enc.reset]

/-- A stream fault of ENC leaves the invariant: in FAULT only the widths and the cause matter. -/
theorem EncPath.MayRaise.inv {f : StreamFault} (h : e.MayRaise c f) :
    Enc.Inv c { e.reg with phase := .fault, cause := some f } := by
  obtain ⟨hf, hl⟩ := h
  refine ⟨hl.widths, ?_⟩
  simp [hf]

end Sys2Proof.Machine
end

section
/-!
DEC keeps its registers within their widths through every primitive, and its invariant through every
command (`10_state.md` rules R27 to R33, `42_decoder.md` rule R137).
-/
namespace Sys2Proof.Machine

variable {c : Config} {d d' : DecPath}

/-- What holds of DEC and the Source within a command as well: the widths, and words that fit the port. -/
structure DecPath.Legal (c : Config) (d : DecPath) : Prop where
  widths : d.reg.Widths c
  fits : ∀ r ∈ d.source.replies, r.fitsPort c = true

/-- Where DEC may raise a stream fault: one of its own (rule R171), with everything in its width. -/
structure DecPath.MayRaise (c : Config) (f : StreamFault) (d : DecPath) : Prop where
  own : f ≠ .epending
  legal : d.Legal c

/-- What a command of DEC that ends OK leaves: the invariant, and no fault. -/
structure DecPath.Rests (c : Config) (d : DecPath) : Prop where
  inv : d.reg.Inv c
  noFault : d.reg.cause = none
  fits : ∀ r ∈ d.source.replies, r.fitsPort c = true

/-- Only the window and the registers of the input differ. -/
abbrev ShiftFrame (d d' : DecPath) : Prop :=
  d'.reg = { d.reg with
    window := d'.reg.window, exhausted := d'.reg.exhausted, buf := d'.reg.buf, left := d'.reg.left }

theorem DecPath.Legal.ready (h : d.Legal c) : d.Ready c := by
  obtain ⟨-, -, -, -, hleft, hbuf, hex, -⟩ := h.widths
  exact ⟨hleft, hbuf, hex, h.fits⟩

/-! ### The primitives -/

/-- Where reading a bit raises a fault, it is ESOURCE, and only a reply has been used up. -/
theorem nextBit_eq_raised {f : StreamFault} (h : d.Legal c) (hr : nextBit c d = .raised f d') :
    f = .esource ∧ d'.Legal c ∧ d'.reg = d.reg := by
  rcases nextBit_cases h.ready with ⟨b, e, hd, -⟩ | ⟨w, n, rest, -, -, hs, -, hd⟩ | ⟨-, -, -, hd⟩
  · rw [hd] at hr
    cases hr
  · rw [hd] at hr
    cases hr
    have hfits := h.fits
    rw [hs] at hfits
    exact ⟨rfl, ⟨h.widths, (List.forall_mem_cons.1 hfits).2⟩, rfl⟩
  · rw [hd] at hr
    cases hr

/-- A shift keeps the path legal where the window it makes fits its register. -/
theorem shiftWindow_meets {off : Nat} (h : d.Legal c)
    (hw : 2 * (d.reg.window - off) + 1 < c.rangeMax) :
    (shiftWindow c off d).Meets
      (fun d' => d'.Legal c ∧ ShiftFrame d d' ∧
        ∃ b : Bool, d'.reg.window = 2 * (d.reg.window - off) + b.toNat) (DecPath.MayRaise c) := by
  rcases shiftWindow_cases off h.ready with ⟨b, d', -, r, hs⟩ | ⟨d', hn, hs⟩ | ⟨-, hs⟩
  · obtain ⟨hl, hu, hr, -, -, -, -, ht, hsc⟩ := h.widths
    obtain ⟨hleft, hbuf, hex, hfits⟩ := r.ready
    have hwin : 2 * (d.reg.window - off) + b.toNat < c.rangeMax := by
      have := b.toNat_le
      omega
    have hf := r.frame
    rw [hs]
    refine ⟨⟨⟨?_, ?_, ?_, hwin, hleft, hbuf, hex, ?_, ?_⟩, hfits⟩, ?_, b, rfl⟩
    case refine_6 => simp only [ShiftFrame]; rw [hf]
    all_goals rw [hf]
    exacts [hl, hu, hr, ht, hsc]
  · obtain ⟨-, hl, -⟩ := nextBit_eq_raised h hn
    rw [hs]
    exact ⟨by decide, hl⟩
  · rw [hs]
    trivial

/-- Filling a window of `m` bits with `n` more keeps it within its register. -/
theorem fillWindow_meets {m n : Nat} (h : d.Legal c) (hw : d.reg.window < 2 ^ m)
    (hn : m + n ≤ c.rangeBits) :
    (fillWindow c n d).Meets (fun d' => d'.Legal c ∧ ShiftFrame d d') (DecPath.MayRaise c) := by
  induction n generalizing m d with
  | zero => exact ⟨h, rfl⟩
  | succ n ih =>
    have hlt : 2 * d.reg.window + 1 < 2 ^ (m + 1) := by rw [pow_succ]; omega
    have hle : 2 ^ (m + 1) ≤ c.rangeMax := Nat.pow_le_pow_right (by decide) (by omega)
    refine meets_andThen (shiftWindow_meets h (hlt.trans_le hle)) fun _ d1 ⟨h1, hf1, b, hb⟩ => ?_
    have hw1 : d1.reg.window < 2 ^ (m + 1) := by
      have := b.toNat_le
      omega
    have hrec := ih h1 hw1 (by omega)
    rw [ShiftFrame] at hf1
    simp only [ShiftFrame] at hrec ⊢
    rw [hf1] at hrec
    exact hrec

/-- The interval holds the window, within a command of DEC (rule R137). -/
structure DecPath.Inside (c : Config) (d : DecPath) : Prop where
  legal : d.Legal c
  lower_le : d.reg.lower ≤ d.reg.window
  lt_upper : d.reg.window < d.reg.upper

/-- One iteration keeps the window inside the interval. -/
theorem decStep_meets {k : RenormCase} (h : d.Inside c)
    (hk : classify c d.reg.lower d.reg.upper = some k) :
    (decStep c k d).Meets (fun d' => d'.Inside c ∧ d'.reg.cause = d.reg.cause)
      (DecPath.MayRaise c) := by
  obtain ⟨hlegal, hlw, hwu⟩ := h
  obtain ⟨-, hu, hr, hw, hleft, hbuf, hex, ht, hsc⟩ := hlegal.widths
  have hlu := hlw.trans_lt hwu
  obtain ⟨hoff, -⟩ := window_of_classify hlu hu hk
  obtain ⟨hlt, hle, -⟩ := transform_of_classify hlu hu hk
  have hlegal' : (d.transform c k).Legal c :=
    ⟨⟨(hlt.trans_le hle).le, hle, hr, hw, hleft, hbuf, hex, ht, hsc⟩, hlegal.fits⟩
  have hfit : 2 * (d.reg.window - caseOffset c k) + 1 < c.rangeMax := by
    rw [transformBound_eq] at hle
    omega
  refine meets_mono (shiftWindow_meets hlegal' hfit) fun d' ⟨h', hf, b, hb⟩ => ?_
  have hbit := b.toNat_le
  rw [decPath_transform_window] at hb
  refine ⟨⟨h', ?_, ?_⟩, ?_⟩ <;> rw [hf]
  · simp only [decPath_transform_lower, transformBound_eq]
    omega
  · simp only [decPath_transform_upper, transformBound_eq]
    omega
  · rfl

/-- The loop leaves the window inside an interval on which `classify` stops. -/
theorem decRenorm_meets (fuel : Nat) (h : d.Inside c) :
    (decRenorm c fuel d).Meets
      (fun d' => d'.Inside c ∧ classify c d'.reg.lower d'.reg.upper = none ∧
        d'.reg.cause = d.reg.cause) (DecPath.MayRaise c) := by
  induction fuel generalizing d with
  | zero => trivial
  | succ fuel ih =>
    cases hk : classify c d.reg.lower d.reg.upper with
    | none =>
      rw [decRenorm_stop hk]
      exact ⟨h, hk, rfl⟩
    | some k =>
      rw [decRenorm_iterate hk]
      refine meets_andThen (decStep_meets h hk) fun _ d' ⟨h', hca⟩ => ?_
      rw [← hca]
      exact ih h'

/-! ### The commands -/

/-- A legal, open, unlatched DEC without a fault meets the invariant. -/
theorem decInv_of_active {r : Dec} (hw : r.Widths c) (hp : r.phase = .active) (hc : r.cause = none)
    (hi : IntervalOk c r.lower r.upper r.range) (hl : r.lower ≤ r.window) (hu : r.window < r.upper) :
    r.Inv c :=
  ⟨hw, by simp [hc], by simp [hp, hc], fun _ => ⟨hi, hl, hu⟩, by simp [hp]⟩

/-- Narrow keeps the window inside the interval, because the latched value was the window's
(rule R137). -/
theorem decNarrow_inside {pl pu pt : Nat} (h : d.Rests c) (hs : d.reg.phase = .scaled)
    (hn : NarrowOk c d.reg pl pu pt) : (d.narrow pl pu pt).Inside c := by
  obtain ⟨⟨-, -, hr, hw, hrest⟩, -, -, hopen, hlatch⟩ := h.inv
  obtain ⟨hi, hlw, hwu⟩ := hopen (.inr hs)
  obtain ⟨ht, -, hval⟩ := hlatch hs
  obtain ⟨hp, rfl, hpl, hpu⟩ := hn
  obtain ⟨hlt, hle⟩ := narrow_bounds hi hp
  have hpos := freqMax_lt_range hi
  obtain ⟨-, -, hu, -, -, -⟩ := hi
  rw [hval] at hpl hpu
  obtain ⟨hin, hout⟩ := narrow_contains_window (by omega) ht hpl hpu
  refine ⟨⟨⟨(hlt.le.trans hle).trans hu, hle.trans hu, hr, hw, hrest⟩, h.fits⟩, ?_, ?_⟩
  · show d.reg.lower + d.reg.range * pl / d.reg.total ≤ d.reg.window
    omega
  · show d.reg.window < d.reg.lower + d.reg.range * pu / d.reg.total
    omega

/-- DEC.NARROW from a scaled stream: the invariant again, or a fault of DEC. -/
theorem decNarrowSymbol_meets {pl pu pt : Nat} (h : d.Rests c) (hs : d.reg.phase = .scaled)
    (hn : NarrowOk c d.reg pl pu pt) :
    (decNarrowSymbol c pl pu pt d).Meets (DecPath.Rests c) (DecPath.MayRaise c) := by
  refine meets_andThen (decRenorm_meets _ (decNarrow_inside h hs hn))
    fun _ d' ⟨⟨h', hlw, hwu⟩, hstop, hca⟩ => ?_
  have hnone : d'.reg.cause = none := hca.trans h.noFault
  obtain ⟨hl, hu, -, hrest⟩ := h'.widths
  have hi := intervalOk_of_classify_eq_none hu hstop
  exact ⟨decInv_of_active ⟨hl, hu, (Nat.sub_le _ _).trans hu, hrest⟩ rfl hnone hi hlw hwu, hnone,
    h'.fits⟩

/-- DEC.START from any registers: the invariant, or a fault of DEC. -/
theorem decOpenStream_meets (hfits : ∀ r ∈ d.source.replies, r.fitsPort c = true) :
    (decOpenStream c d).Meets (DecPath.Rests c) (DecPath.MayRaise c) := by
  have hpos : 0 < c.rangeMax := by simp [Config.rangeMax]
  have hcleared : DecPath.Legal c { d with reg := Dec.cleared c d.reg } :=
    ⟨⟨Nat.zero_le _, le_rfl, le_rfl, hpos, Nat.zero_le _, bufferOk_zero c 0, fun _ => rfl,
      Nat.zero_le _, Nat.zero_le _⟩, hfits⟩
  refine meets_andThen (fillWindow_meets (m := 0) hcleared (by simp [Dec.cleared]) (by simp))
    fun _ d' ⟨h', hf⟩ => ?_
  have hlower : d'.reg.lower = 0 := by rw [hf]; rfl
  have hupper : d'.reg.upper = c.rangeMax := by rw [hf]; rfl
  have hrange : d'.reg.range = c.rangeMax := by rw [hf]; rfl
  have hnone : d'.reg.cause = none := by rw [hf]; rfl
  obtain ⟨-, -, -, hw, -⟩ := h'.widths
  refine ⟨decInv_of_active h'.widths rfl hnone ?_ ?_ ?_, hnone, h'.fits⟩
  · rw [decPath_setPhase_lower, decPath_setPhase_upper, decPath_setPhase_range, hlower, hupper, hrange]
    exact intervalOk_full c
  · rw [decPath_setPhase_lower, hlower]
    exact Nat.zero_le _
  · rw [decPath_setPhase_upper, hupper]
    exact hw

/-- DEC.SCALE on an open stream latches the value of the present window. -/
theorem decLatch_inv {r : Dec} {total : Nat} (h : r.Inv c) (ho : r.Open) (ht : TotalOk c total) :
    (r.latch total).Inv c := by
  obtain ⟨⟨hl, hu, hr, hw, hleft, hbuf, hex, -, -⟩, hce, hpc, hopen, -⟩ := h
  obtain ⟨hi, hlw, hwu⟩ := hopen ho
  obtain ⟨hpos, hmax⟩ := ht
  have hoff : r.window - r.lower < r.range := by
    obtain ⟨-, -, -, hrange, -⟩ := hi
    omega
  have hlt : scaledValue r total < total := freqScale_lt_total hpos hoff
  have hnone : r.cause = none := by
    rcases ho with hp | hp <;> simpa [hp] using hpc
  exact ⟨⟨hl, hu, hr, hw, hleft, hbuf, hex, hmax, (hlt.trans_le hmax).le⟩, hce,
    by simp [Dec.latch, hnone], fun _ => ⟨hi, hlw, hwu⟩, fun _ => ⟨hpos, hlt, rfl⟩⟩

theorem decReset_inv (c : Config) : Dec.reset.Inv c := by
  have hpos : 0 < c.rangeMax := by simp [Config.rangeMax]
  refine ⟨⟨Nat.zero_le _, Nat.zero_le _, Nat.zero_le _, hpos, Nat.zero_le _, bufferOk_zero c 0,
    fun _ => rfl, Nat.zero_le _, Nat.zero_le _⟩, ?_⟩
  simp [Dec.reset]

/-- A stream fault of DEC leaves the invariant: in FAULT only the widths and the cause matter. -/
theorem DecPath.MayRaise.inv {f : StreamFault} (h : d.MayRaise c f) :
    Dec.Inv c { d.reg with phase := .fault, cause := some f } := by
  obtain ⟨hf, hl⟩ := h
  refine ⟨hl.widths, ?_⟩
  simp [hf]

end Sys2Proof.Machine
end

section
/-!
The invariant of the whole block: at reset, by every command and by every step (`10_state.md` rules R32
to R36, `60_exceptions.md` rule R182).
-/
namespace Sys2Proof.Machine

variable {s t : State}

/-! ### What the ends of a command keep -/

/-- A response keeps the invariant where an error carries the value 0 (rule R79). -/
theorem State.Inv.respond (h : s.Inv) {k : Code} {v : Nat} (hv : k ≠ .ok → v = 0) :
    (s.respond k v).Inv :=
  { h with
    responses := List.forall_mem_append.2 ⟨h.responses, List.forall_mem_singleton.2
      fun hk => by simp [hv hk]⟩ }

theorem State.Inv.error (h : s.Inv) (k : Code) : (s.respond k 0).Inv := h.respond fun _ => rfl

theorem State.Inv.withInbox (h : s.Inv) (rest : List HostEvent) :
    State.Inv { s with inbox := rest } := { h with }

theorem State.Inv.withEncPath (h : s.Inv) {e : EncPath} (he : e.Rests s.cfg) :
    (s.withEncPath e).Inv :=
  { h with enc := he.inv, sink := he.sent, encRecorded := by simp [he.noFault, causeRecorded] }

theorem State.Inv.withDecPath (h : s.Inv) {d : DecPath} (hd : d.Rests s.cfg) :
    (s.withDecPath d).Inv :=
  { h with dec := hd.inv, source := hd.fits, decRecorded := by simp [hd.noFault, causeRecorded] }

/-- The record only grows, so a recorded cause stays recorded. -/
theorem causeRecorded_append {fs gs : List FaultRecord} {u : UnitName} {f : Option StreamFault}
    (h : causeRecorded fs u f = true) : causeRecorded (fs ++ gs) u f = true := by
  cases f with
  | none => rfl
  | some f =>
    simp only [causeRecorded, decide_eq_true_eq] at h ⊢
    exact List.mem_append_left _ h

theorem causeRecorded_last (fs : List FaultRecord) (u : UnitName) (f : StreamFault) :
    causeRecorded (fs ++ [⟨u, f⟩]) u (some f) = true := by simp [causeRecorded]

theorem State.Inv.raiseEnc (h : s.Inv) {f : StreamFault} {e : EncPath} (he : e.MayRaise s.cfg f) :
    ((s.withEncPath e).raiseEnc f).Inv where
  enc := he.inv
  dec := h.dec
  sink := he.legal.sent
  source := h.source
  responses := (h.error f.toCode).responses
  faults := by
    refine List.forall_mem_append.2 ⟨h.faults, List.forall_mem_singleton.2 ?_⟩
    cases f with
    | esource => exact absurd rfl he.own
    | emodel | epending => rfl
  encRecorded := causeRecorded_last _ _ _
  decRecorded := causeRecorded_append h.decRecorded

theorem State.Inv.raiseDec (h : s.Inv) {f : StreamFault} {d : DecPath} (hd : d.MayRaise s.cfg f) :
    ((s.withDecPath d).raiseDec f).Inv where
  enc := h.enc
  dec := hd.inv
  sink := h.sink
  source := hd.legal.fits
  responses := (h.error f.toCode).responses
  faults := by
    refine List.forall_mem_append.2 ⟨h.faults, List.forall_mem_singleton.2 ?_⟩
    cases f with
    | epending => exact absurd rfl hd.own
    | emodel | esource => rfl
  encRecorded := causeRecorded_append h.encRecorded
  decRecorded := causeRecorded_last _ _ _

theorem State.Inv.endEnc (h : s.Inv) {r : Run EncPath Unit}
    (hr : r.Meets (EncPath.Rests s.cfg) (EncPath.MayRaise s.cfg)) (ht : s.endEnc r = .next t) :
    t.Inv := by
  rcases endEnc_eq_next ht with ⟨e, rfl, rfl⟩ | ⟨f, e, rfl, rfl⟩
  · exact (h.withEncPath hr).error .ok
  · exact h.raiseEnc hr

theorem State.Inv.endDec (h : s.Inv) {r : Run DecPath Unit}
    (hr : r.Meets (DecPath.Rests s.cfg) (DecPath.MayRaise s.cfg)) (ht : s.endDec r = .next t) :
    t.Inv := by
  rcases endDec_eq_next ht with ⟨d, rfl, rfl⟩ | ⟨f, d, rfl, rfl⟩
  · exact (h.withDecPath hr).error .ok
  · exact h.raiseDec hr

/-- EMODEL is raised on the registers as they stand. -/
theorem State.Inv.encEmodel (h : s.Inv) : (s.raiseEnc .emodel).Inv := by
  obtain ⟨hw, -⟩ := h.enc
  exact h.raiseEnc (e := s.encPath) ⟨by decide, hw, h.sink⟩

theorem State.Inv.decEmodel (h : s.Inv) : (s.raiseDec .emodel).Inv := by
  obtain ⟨hw, -⟩ := h.dec
  exact h.raiseDec (d := s.decPath) ⟨by decide, hw, h.source⟩

/-! ### What holds where a command finds its stream open -/

theorem State.Inv.encActive (h : s.Inv) (ho : openStreamCheck s.enc.phase = none) :
    s.enc.phase = .active ∧ s.encPath.Rests s.cfg := by
  obtain ⟨-, hns, -, hpc, -⟩ := h.enc
  have ha : s.enc.phase = .active := (openStreamCheck_eq_none.1 ho).resolve_right hns
  exact ⟨ha, h.enc, by simpa [ha] using hpc, h.sink⟩

theorem State.Inv.decScaled (h : s.Inv) (hs : s.dec.phase = .scaled) : s.decPath.Rests s.cfg := by
  obtain ⟨-, -, hpc, -⟩ := h.dec
  exact ⟨h.dec, by simpa [hs] using hpc, h.source⟩

/-! ### The commands -/

/-- Every command keeps the invariant of the whole block. -/
theorem exec_keeps_inv {i : Instr} (h : s.Inv) (ht : exec i s = .next t) : t.Inv := by
  cases i with
  | nop =>
    cases ht
    exact h.error .ok
  | rdreg n =>
    obtain ⟨k, v, rfl, hv⟩ := exec_rdreg_eq_next ht
    exact h.respond hv
  | encStart =>
    rw [exec_encStart] at ht
    cases ht
    exact (h.withEncPath ⟨encOpened_inv s.cfg, rfl, h.sink⟩).error .ok
  | encPut pl pu pt =>
    rcases exec_encPut_eq_next ht with ⟨k, rfl⟩ | rfl | ⟨ho, hp, ht⟩
    · exact h.error k
    · exact h.encEmodel
    · obtain ⟨ha, hr⟩ := h.encActive ho
      exact h.endEnc (encPutSymbol_meets hr ha hp) ht
  | encFinish =>
    rcases exec_encFinish_eq_next ht with ⟨k, rfl⟩ | ⟨ho, ht⟩
    · exact h.error k
    · obtain ⟨-, hr⟩ := h.encActive ho
      obtain ⟨hw, -⟩ := hr.inv
      exact h.endEnc (encFinishStream_meets ⟨hw, hr.sent⟩ hr.noFault) ht
  | decStart => exact h.endDec (decOpenStream_meets h.source) ht
  | decScale total =>
    rcases exec_decScale_eq_next ht with ⟨k, rfl⟩ | rfl | ⟨ho, htot, rfl⟩
    · exact h.error k
    · exact h.decEmodel
    · have hd := decLatch_inv h.dec (openStreamCheck_eq_none.1 ho) htot
      have hs : State.Inv { s with dec := s.dec.latch total } := { h with dec := hd }
      exact hs.respond fun hk => absurd rfl hk
  | decNarrow pl pu pt =>
    rcases exec_decNarrow_eq_next ht with ⟨k, rfl⟩ | rfl | ⟨hs, hp, ht⟩
    · exact h.error k
    · exact h.decEmodel
    · exact h.endDec (decNarrowSymbol_meets (h.decScaled hs) hs hp) ht
  | fscale v range total =>
    obtain ⟨k, v, rfl, hv⟩ := exec_fscale_eq_next ht
    exact h.respond hv

/-! ### Reset and the step -/

theorem State.Inv.afterReset (h : s.Inv) : s.afterReset.Inv :=
  { h with enc := encReset_inv s.cfg, dec := decReset_inv s.cfg, encRecorded := rfl, decRecorded := rfl }

theorem resetOf_inv (c : Config) : (State.resetOf c).Inv where
  enc := encReset_inv c
  dec := decReset_inv c
  sink := List.forall_mem_nil _
  source := List.forall_mem_nil _
  responses := List.forall_mem_nil _
  faults := List.forall_mem_nil _
  encRecorded := rfl
  decRecorded := rfl

/-- Settles O12: the reset registers meet the invariant at every parameter set, and the records are empty. -/
theorem resetMeetsTheInvariant : Obligations.ResetMeetsTheInvariant :=
  ⟨resetOf_inv _, resetOf_inv⟩

/-- Settles O11, by the four ways of a step; a command's is `exec_keeps_inv`. -/
theorem stepKeepsTheInvariant : Obligations.StepKeepsTheInvariant := by
  intro s t h ht
  rcases step_eq_next ht with rfl | ⟨rest, rfl⟩ | ⟨rest, i, ht⟩ | ⟨rest, rfl⟩
  · exact h
  · exact (h.withInbox rest).afterReset
  · exact exec_keeps_inv (h.withInbox rest) ht
  · exact (h.withInbox rest).error .eillegal

/-- Settles O13: ENC.START writes every register of ENC, and DEC.START clears DEC before it reads. -/
theorem startsEstablishTheInvariant : Obligations.StartsEstablishTheInvariant := by
  refine ⟨fun s t ht => ?_, fun s t hfits ht => ?_⟩
  · rw [exec_encStart] at ht
    cases ht
    exact encOpened_inv s.cfg
  · have hmeets := decOpenStream_meets (c := s.cfg) (d := s.decPath) hfits
    rcases endDec_eq_next ht with ⟨d, hr, rfl⟩ | ⟨f, d, hr, rfl⟩
    · rw [hr] at hmeets
      exact hmeets.inv
    · rw [hr] at hmeets
      exact hmeets.inv

end Sys2Proof.Machine
end

section
/-!
How far the renormalization loop can go: each iteration doubles the interval, which never exceeds
`RANGE_MAX` (`40_interval.md` rule R105).
-/
namespace Sys2Proof.Machine

variable {c : Config} {fuel l u : Nat} {k : RenormCase}

/-- A non-empty interval which `fuel` doublings would take beyond `RANGE_MAX`. -/
structure Converges (c : Config) (fuel l u : Nat) : Prop where
  nonempty : l < u
  le_max : u ≤ c.rangeMax
  outgrows : c.rangeMax < (u - l) * 2 ^ fuel

theorem not_converges_zero : ¬ Converges c 0 l u := by
  intro h
  have h1 := h.le_max
  have h2 := h.outgrows
  omega

/-- An iteration doubles the interval, so one doubling less is needed. -/
theorem Converges.transform (h : Converges c (fuel + 1) l u) (hk : classify c l u = some k) :
    Converges c fuel (transformBound c k l) (transformBound c k u) := by
  obtain ⟨hlt, hle, hwidth⟩ := transform_of_classify h.nonempty h.le_max hk
  refine ⟨hlt, hle, ?_⟩
  have hout := h.outgrows
  rw [hwidth]
  calc c.rangeMax < (u - l) * 2 ^ (fuel + 1) := hout
    _ = 2 * (u - l) * 2 ^ fuel := by rw [pow_succ]; ring

/-- The loop's fuel is enough after any legal Narrow. -/
theorem converges_narrow {r pl pu pt : Nat} (h : IntervalOk c l u r) (hp : ProbOk c pl pu pt) :
    Converges c (c.rangeBits + 1) (l + r * pl / pt) (l + r * pu / pt) := by
  obtain ⟨hlt, hle⟩ := narrow_bounds h hp
  obtain ⟨-, -, hu, -, -, -⟩ := h
  refine ⟨hlt, hle.trans hu, ?_⟩
  calc c.rangeMax < 2 ^ (c.rangeBits + 1) := Nat.pow_lt_pow_right (by decide) (Nat.lt_succ_self _)
    _ ≤ (l + r * pu / pt - (l + r * pl / pt)) * 2 ^ (c.rangeBits + 1) :=
      Nat.le_mul_of_pos_left _ (by omega)

end Sys2Proof.Machine
end

section
/-!
Two decoders on the same input bits: how the Source cuts them into units, and how many filler bits it
sends itself, changes nothing but the registers of the input (`20_memory.md` rules R54 and R64).
-/
namespace Sys2Proof.Machine

variable {c : Config} {d d' : DecPath} {s s' : State}

/-! ### Reading from a Source that keeps its contract -/

/-- DEC can go on reading bits: its buffer is ready, and the Source answers every call legally. -/
structure DecPath.Reads (c : Config) (d : DecPath) : Prop where
  ready : d.Ready c
  keeps : d.source.KeepsContract c

theorem DecPath.Reads.nextBit (h : d.Reads c) :
    ∃ b e, nextBit c d = .done b e ∧ ReadBit c d e b ∧ e.Reads c := by
  rcases nextBit_cases h.ready with ⟨b, e, hd, hr⟩ | ⟨w, n, rest, -, -, hs, hn, -⟩ |
      ⟨-, -, ⟨rest, hs⟩, -⟩
  · exact ⟨b, e, hd, hr, hr.ready, fun r hm => h.keeps r (hr.replies.subset hm)⟩
  · have hk := h.keeps (.reply w n) (by simp [hs])
    simp only [SourceReply.keepsContract, decide_eq_true_eq] at hk
    omega
  · have hk := h.keeps .never (by simp [hs])
    simp [SourceReply.keepsContract] at hk

/-! ### The primitives -/

/-- Two decoders with the same bits to come, up to trailing ones, and the same registers, but for the
phase and the registers of the input. -/
structure SameStream (c : Config) (d d' : DecPath) : Prop where
  reads : d.Reads c
  reads' : d'.Reads c
  unread : ∀ k, (d.unread c).getD k true = (d'.unread c).getD k true
  frame : d'.reg = { d.reg with
    phase := d'.reg.phase, exhausted := d'.reg.exhausted, buf := d'.reg.buf, left := d'.reg.left }

/-- Both read the same bit, so both windows stay equal. -/
theorem SameStream.shiftWindow (h : SameStream c d d') (off : Nat) :
    ∃ e e', shiftWindow c off d = .done () e ∧ shiftWindow c off d' = .done () e' ∧
      SameStream c e e' ∧ ShiftFrame d e := by
  obtain ⟨b, e, hd, hr, he⟩ := h.reads.nextBit
  obtain ⟨b', e', hd', hr', he'⟩ := h.reads'.nextBit
  have hbit : b' = b := by
    rw [hr.bit, hr'.bit, List.headD_eq_head?_getD, List.headD_eq_head?_getD, List.head?_eq_getElem?,
      List.head?_eq_getElem?, ← List.getD_eq_getElem?_getD, ← List.getD_eq_getElem?_getD]
    exact (h.unread 0).symm
  have hf := h.frame
  have hfe := hr.frame
  have hfe' := hr'.frame
  subst hbit
  simp only [Machine.shiftWindow, hd, hd', andThen_done]
  refine ⟨_, _, rfl, rfl, ⟨⟨he.ready, he.keeps⟩, ⟨he'.ready, he'.keeps⟩, fun k => ?_, ?_⟩, ?_⟩
  · show (e.unread c).getD k true = (e'.unread c).getD k true
    have := h.unread (k + 1)
    rw [hr.unread, hr'.unread]
    simpa [List.getD_eq_getElem?_getD] using this
  · simp only
    rw [hfe', hfe, hf]
  · simp only [ShiftFrame]
    rw [hfe]

theorem SameStream.fillWindow (h : SameStream c d d') (n : Nat) :
    ∃ e e', fillWindow c n d = .done () e ∧ fillWindow c n d' = .done () e' ∧ SameStream c e e' := by
  induction n generalizing d d' with
  | zero => exact ⟨d, d', rfl, rfl, h⟩
  | succ n ih =>
    obtain ⟨e, e', he, he', hs, -⟩ := h.shiftWindow 0
    simp only [Machine.fillWindow, he, he', andThen_done]
    exact ih hs

/-- Writing both decoders alike, but for the phase and the registers of the input, keeps them alike. -/
theorem SameStream.withReg (h : SameStream c d d') {r r' : Dec}
    (hr : r.exhausted = d.reg.exhausted ∧ r.buf = d.reg.buf ∧ r.left = d.reg.left)
    (hr' : r'.exhausted = d'.reg.exhausted ∧ r'.buf = d'.reg.buf ∧ r'.left = d'.reg.left)
    (hf : r' = { r with
      phase := r'.phase, exhausted := r'.exhausted, buf := r'.buf, left := r'.left }) :
    SameStream c ⟨r, d.source⟩ ⟨r', d'.source⟩ := by
  obtain ⟨hx, hb, hl⟩ := hr
  obtain ⟨hx', hb', hl'⟩ := hr'
  have hreads := h.reads
  have hreads' := h.reads'
  refine ⟨⟨?_, hreads.keeps⟩, ⟨?_, hreads'.keeps⟩, ?_, hf⟩
  · simpa only [DecPath.Ready, hx, hb, hl] using hreads.ready
  · simpa only [DecPath.Ready, hx', hb', hl'] using hreads'.ready
  · simpa only [DecPath.unread, hx, hb, hl, hx', hb', hl'] using h.unread

theorem SameStream.transform (h : SameStream c d d') (k : RenormCase) :
    SameStream c (d.transform c k) (d'.transform c k) :=
  h.withReg ⟨rfl, rfl, rfl⟩ ⟨rfl, rfl, rfl⟩ (by rw [h.frame])

theorem SameStream.narrow (h : SameStream c d d') (pl pu pt : Nat) :
    SameStream c (d.narrow pl pu pt) (d'.narrow pl pu pt) :=
  h.withReg ⟨rfl, rfl, rfl⟩ ⟨rfl, rfl, rfl⟩ (by rw [h.frame])

theorem SameStream.updateRange (h : SameStream c d d') :
    SameStream c d.updateRange d'.updateRange :=
  h.withReg ⟨rfl, rfl, rfl⟩ ⟨rfl, rfl, rfl⟩ (by rw [h.frame])

theorem SameStream.setPhase (h : SameStream c d d') (p : Phase) :
    SameStream c (d.setPhase p) (d'.setPhase p) :=
  h.withReg ⟨rfl, rfl, rfl⟩ ⟨rfl, rfl, rfl⟩ (by rw [h.frame])

theorem SameStream.decRenorm {fuel : Nat} (h : SameStream c d d')
    (hc : Converges c fuel d.reg.lower d.reg.upper) :
    ∃ e e', decRenorm c fuel d = .done () e ∧ decRenorm c fuel d' = .done () e' ∧
      SameStream c e e' := by
  induction fuel generalizing d d' with
  | zero => exact absurd hc not_converges_zero
  | succ fuel ih =>
    have hl : d'.reg.lower = d.reg.lower := by rw [h.frame]
    have hu : d'.reg.upper = d.reg.upper := by rw [h.frame]
    cases hk : classify c d.reg.lower d.reg.upper with
    | none =>
      rw [decRenorm_stop hk, decRenorm_stop (hl ▸ hu ▸ hk)]
      exact ⟨d, d', rfl, rfl, h⟩
    | some k =>
      obtain ⟨e, e', he, he', hs, hf⟩ := (h.transform k).shiftWindow (caseOffset c k)
      rw [decRenorm_iterate hk, decRenorm_iterate (hl ▸ hu ▸ hk), decStep, decStep, he, he']
      refine ih hs ?_
      rw [hf]
      exact hc.transform hk

/-! ### The commands -/

/-- Two blocks that have answered alike and whose decoders go on alike. -/
structure SameDecoding (s s' : State) : Prop where
  cfg : s'.cfg = s.cfg
  responses : s'.responses = s.responses
  phase : s'.dec.phase = s.dec.phase
  stream : SameStream s.cfg s.decPath s'.decPath
  inv : s.dec.Inv s.cfg

theorem SameDecoding.respond (h : SameDecoding s s') (k : Code) (v : Nat) :
    SameDecoding (s.respond k v) (s'.respond k v) :=
  { h with responses := by simp [h.responses] }

theorem SameDecoding.emodel (h : SameDecoding s s') :
    SameDecoding (s.raiseDec .emodel) (s'.raiseDec .emodel) := by
  obtain ⟨hw, -⟩ := h.inv
  obtain ⟨-, -, -, hfits⟩ := h.stream.reads.ready
  have hf := h.stream.frame
  have hinv : (s.raiseDec .emodel).dec.Inv s.cfg :=
    DecPath.MayRaise.inv (d := s.decPath) ⟨by decide, hw, hfits⟩
  refine ⟨h.cfg, by simp [h.responses], rfl, ?_, hinv⟩
  refine h.stream.withReg ⟨rfl, rfl, rfl⟩ ⟨rfl, rfl, rfl⟩ ?_
  simp only [decPath_reg, raiseDec_dec] at hf ⊢
  rw [hf]

/-- Both blocks end a command of DEC with OK. -/
theorem SameDecoding.ended (hcfg : s'.cfg = s.cfg) (hres : s'.responses = s.responses)
    (hd : SameStream s.cfg d d') (hphase : d'.reg.phase = d.reg.phase) (hinv : d.reg.Inv s.cfg) :
    SameDecoding ((s.withDecPath d).respond .ok 0) ((s'.withDecPath d').respond .ok 0) :=
  ⟨hcfg, by simp [hres], hphase, hd, hinv⟩

theorem SameDecoding.scaledValue_eq (h : SameDecoding s s') {total : Nat} :
    scaledValue s'.dec total = scaledValue s.dec total := by
  have hf := h.stream.frame
  simp only [decPath_reg] at hf
  rw [hf]
  rfl

theorem SameDecoding.latch (h : SameDecoding s s') {total : Nat} (ho : s.dec.Open)
    (ht : TotalOk s.cfg total) :
    SameDecoding { s with dec := s.dec.latch total } { s' with dec := s'.dec.latch total } := by
  have hf := h.stream.frame
  simp only [decPath_reg] at hf
  refine ⟨h.cfg, h.responses, rfl, ?_, decLatch_inv h.inv ho ht⟩
  refine h.stream.withReg ⟨rfl, rfl, rfl⟩ ⟨rfl, rfl, rfl⟩ ?_
  simp only [Dec.latch, h.scaledValue_eq]
  rw [hf]

theorem SameDecoding.decScale (h : SameDecoding s s') (total : Nat) :
    ∃ t t', exec (.decScale total) s = .next t ∧ exec (.decScale total) s' = .next t' ∧
      SameDecoding t t' := by
  cases hk : openStreamCheck s.dec.phase with
  | some k =>
    rw [exec_decScale_notOpen hk, exec_decScale_notOpen (h.phase ▸ hk)]
    exact ⟨_, _, rfl, rfl, h.respond k 0⟩
  | none =>
    by_cases ht : TotalOk s.cfg total
    · rw [exec_decScale_runs hk ht, exec_decScale_runs (h.phase ▸ hk) (h.cfg ▸ ht), h.scaledValue_eq]
      exact ⟨_, _, rfl, rfl, (h.latch (openStreamCheck_eq_none.1 hk) ht).respond _ _⟩
    · rw [exec_decScale_emodel hk ht, exec_decScale_emodel (h.phase ▸ hk) (h.cfg ▸ ht)]
      exact ⟨_, _, rfl, rfl, h.emodel⟩

theorem SameDecoding.narrowOk_iff (h : SameDecoding s s') {pl pu pt : Nat} :
    NarrowOk s'.cfg s'.dec pl pu pt ↔ NarrowOk s.cfg s.dec pl pu pt := by
  have hf := h.stream.frame
  simp only [decPath_reg] at hf
  rw [h.cfg, hf]

theorem SameDecoding.decNarrow (h : SameDecoding s s') (pl pu pt : Nat) :
    ∃ t t', exec (.decNarrow pl pu pt) s = .next t ∧ exec (.decNarrow pl pu pt) s' = .next t' ∧
      SameDecoding t t' := by
  cases hk : scaledStepCheck s.dec.phase with
  | some k =>
    rw [exec_decNarrow_notScaled hk, exec_decNarrow_notScaled (h.phase ▸ hk)]
    exact ⟨_, _, rfl, rfl, h.respond k 0⟩
  | none =>
    by_cases hn : NarrowOk s.cfg s.dec pl pu pt
    · have hs := scaledStepCheck_eq_none.1 hk
      obtain ⟨-, -, hpc, hopen, -⟩ := h.inv
      obtain ⟨-, -, -, hfits⟩ := h.stream.reads.ready
      have hrests : s.decPath.Rests s.cfg := ⟨h.inv, by simpa [hs] using hpc, hfits⟩
      obtain ⟨hi, -⟩ := hopen (.inr hs)
      have hmeets := decNarrowSymbol_meets hrests hs hn
      obtain ⟨e, e', he, he', hsame⟩ :=
        (h.stream.narrow pl pu pt).decRenorm (converges_narrow hi hn.1)
      rw [exec_decNarrow_runs hk hn,
        exec_decNarrow_runs (h.phase ▸ hk) (h.narrowOk_iff.2 hn), h.cfg]
      simp only [decNarrowSymbol, he, he', andThen_done, meets_done] at hmeets ⊢
      exact ⟨_, _, rfl, rfl, .ended h.cfg h.responses (hsame.updateRange.setPhase .active) rfl
        hmeets.inv⟩
    · rw [exec_decNarrow_emodel hk hn,
        exec_decNarrow_emodel (h.phase ▸ hk) (fun h' => hn (h.narrowOk_iff.1 h'))]
      exact ⟨_, _, rfl, rfl, h.emodel⟩

/-- DEC.START makes the decoders alike, whatever their registers held. -/
theorem exec_decStart_sameDecoding (hcfg : s'.cfg = s.cfg) (hres : s'.responses = s.responses)
    (hfits : ∀ r ∈ s.source.replies, r.fitsPort s.cfg = true) (hkeeps : s.source.KeepsContract s.cfg)
    (hfits' : ∀ r ∈ s'.source.replies, r.fitsPort s.cfg = true)
    (hkeeps' : s'.source.KeepsContract s.cfg)
    (hbits : ∀ k, (inputBits s.cfg s.source.replies).getD k true =
      (inputBits s.cfg s'.source.replies).getD k true) :
    ∃ t t', exec .decStart s = .next t ∧ exec .decStart s' = .next t' ∧ SameDecoding t t' := by
  have hsame : SameStream s.cfg ⟨Dec.cleared s.cfg s.dec, s.source⟩
      ⟨Dec.cleared s.cfg s'.dec, s'.source⟩ :=
    ⟨⟨⟨Nat.zero_le _, bufferOk_zero _ _, fun _ => rfl, hfits⟩, hkeeps⟩,
      ⟨⟨Nat.zero_le _, bufferOk_zero _ _, fun _ => rfl, hfits'⟩, hkeeps'⟩, hbits, rfl⟩
  obtain ⟨e, e', he, he', hs⟩ := hsame.fillWindow s.cfg.rangeBits
  have hmeets := decOpenStream_meets (d := s.decPath) hfits
  rw [exec_decStart, exec_decStart, hcfg]
  simp only [decOpenStream, decPath_reg, decPath_source, he, he', andThen_done, meets_done]
    at hmeets ⊢
  exact ⟨_, _, rfl, rfl, .ended hcfg hres (hs.setPhase .active) rfl hmeets.inv⟩

/-- Any DEC.SCALE and DEC.NARROW commands keep the decoders alike. -/
theorem SameDecoding.runCommands (h : SameDecoding s s') {commands : List Instr}
    (hc : ∀ i ∈ commands, i.opcode = 0x21 ∨ i.opcode = 0x22) :
    ∃ t t', runCommands commands s = .next t ∧ runCommands commands s' = .next t' ∧
      SameDecoding t t' := by
  induction commands generalizing s s' with
  | nil => exact ⟨s, s', rfl, rfl, h⟩
  | cons i rest ih =>
    obtain ⟨hi, hrest⟩ := List.forall_mem_cons.1 hc
    have hstep : ∃ t t', exec i s = .next t ∧ exec i s' = .next t' ∧ SameDecoding t t' := by
      cases i with
      | decScale total => exact h.decScale total
      | decNarrow pl pu pt => exact h.decNarrow pl pu pt
      | _ => simp [Instr.opcode] at hi
    obtain ⟨t, t', ht, ht', hs⟩ := hstep
    simp only [Machine.runCommands, ht, ht']
    exact ih hs hrest

/-- Settles O55: DEC.START makes the two decoders alike, and every later command keeps them so. -/
theorem decodingIgnoresTheCutIntoUnits : Obligations.DecodingIgnoresTheCutIntoUnits := by
  intro commands s s' hcfg hres hfits hkeeps hfits' hkeeps' hbits hc
  rw [← hcfg] at hfits' hkeeps' hbits
  obtain ⟨u, u', hu, hu', hs⟩ :=
    exec_decStart_sameDecoding hcfg.symm hres.symm hfits hkeeps hfits' hkeeps' hbits
  obtain ⟨t, t', ht, ht', hst⟩ := hs.runCommands hc
  refine ⟨t, t', by simpa only [runCommands, hu] using ht, by simpa only [runCommands, hu'] using ht',
    hst.responses.symm, ?_⟩
  have hphase := hst.phase
  have hf := hst.stream.frame
  simp only [decPath_reg] at hf
  rwa [hphase] at hf

end Sys2Proof.Machine
end

section
/-!
The ports' primitives: where they have no step (`20_memory.md` rule R57), and the input bit stream
(rules R53 and R58).
-/
namespace Sys2Proof.Machine

variable {c : Config} {d : DecPath} {e : EncPath}

/-! ### Where a primitive has no step -/

theorem handOver_eq_stuck_iff {n : Nat} :
    handOver n e = .stuck .sinkNeverAccepts ↔ e.sink.room = some 0 := by
  rcases handOver_cases n e with ⟨k, hk, hd⟩ | ⟨hr, hs⟩
  · obtain ⟨-, -, hne⟩ := sinkAccept_eq_some hk
    simp [hd, hne]
  · simp [hs, hr]

theorem putBit_eq_stuck_iff (b : Bool) :
    putBit c b e = .stuck .sinkNeverAccepts ↔ e.reg.fill + 1 = c.bufBits ∧ e.sink.room = some 0 := by
  by_cases hf : e.reg.fill + 1 = c.bufBits
  · simp [putBit, hf, handOver_eq_stuck_iff]
  · simp [putBit, hf]

theorem encFlush_eq_stuck_iff :
    encFlush e = .stuck .sinkNeverAccepts ↔ 0 < e.reg.fill ∧ e.sink.room = some 0 := by
  by_cases hf : 0 < e.reg.fill
  · simp only [encFlush, hf, if_true, handOver_eq_stuck_iff, true_and]
  · simp [encFlush, hf]

theorem nextBit_eq_stuck_iff :
    nextBit c d = .stuck .sourceNeverReplies ↔
      d.reg.exhausted = false ∧ d.reg.left = 0 ∧ ∃ rest, d.source.replies = .never :: rest := by
  cases hx : d.reg.exhausted with
  | true => simp [nextBit, hx]
  | false =>
    by_cases hl : d.reg.left = 0
    · rcases sourceFill_cases d.source with ⟨hr, hf⟩ | ⟨w, n, rest, hr, hf⟩ | ⟨rest, hr, hf⟩
      · simp [nextBit, hx, hl, hf, hr]
      · by_cases hn : c.bufBits < n
        · simp [nextBit, hx, hl, hf, hr, hn]
        · by_cases h0 : n = 0 <;> simp [nextBit, hx, hl, hf, hr, hn, h0, takeBufferedBit]
      · simp [nextBit, hx, hl, hf, hr]
    · simp [nextBit, hx, hl, takeBufferedBit]

/-- Settles O59, primitive by primitive. -/
theorem stalledTransactionsStopTheirPrimitive : Obligations.StalledTransactionsStopTheirPrimitive :=
  fun _ => ⟨fun b _ => putBit_eq_stuck_iff b, fun _ => encFlush_eq_stuck_iff,
    fun _ => nextBit_eq_stuck_iff⟩

/-! ### The input bit stream -/

/-- Units with a count from 1 to `BUF_BITS` add their valid bits, in order. -/
theorem inputBits_units_append {units : List BitUnit} (rest : List SourceReply)
    (h : ∀ u ∈ units, 1 ≤ u.count ∧ u.count ≤ c.bufBits) :
    inputBits c (units.map (fun u => .reply u.word u.count) ++ rest) =
      outputBits c units ++ inputBits c rest := by
  induction units with
  | nil => rfl
  | cons u units ih =>
    obtain ⟨⟨h1, hn⟩, hunits⟩ := List.forall_mem_cons.1 h
    rw [List.map_cons, List.cons_append, inputBits_unit _ _ h1 hn, ih hunits, ← List.append_assoc]
    rfl

theorem topBits_eq_mul_div (w n : Nat) :
    topBits c w n = 2 ^ (c.bufBits - n) * (w / 2 ^ (c.bufBits - n)) := by
  have := Nat.div_add_mod w (2 ^ (c.bufBits - n))
  simp only [topBits]
  omega

theorem topBits_congr {w w' n : Nat} (h : w / 2 ^ (c.bufBits - n) = w' / 2 ^ (c.bufBits - n)) :
    topBits c w n = topBits c w' n := by
  rw [topBits_eq_mul_div, topBits_eq_mul_div, h]

/-- Only the valid bits of a unit count. -/
theorem inputBits_reply_congr {w w' n : Nat} (rest : List SourceReply) (hn : n ≤ c.bufBits)
    (h : w / 2 ^ (c.bufBits - n) = w' / 2 ^ (c.bufBits - n)) :
    inputBits c (.reply w n :: rest) = inputBits c (.reply w' n :: rest) := by
  simp only [inputBits, ← topBitList_topBits (w := w) hn, ← topBitList_topBits (w := w') hn,
    topBits_congr h]

/-- NextBit masks a word that it takes, so the bits below the valid ones change nothing (rule R132). -/
theorem nextBit_reply_congr {w w' n : Nat} (rest : List SourceReply)
    (hx : d.reg.exhausted = false) (hl : d.reg.left = 0)
    (h : w / 2 ^ (c.bufBits - n) = w' / 2 ^ (c.bufBits - n)) :
    nextBit c { d with source := ⟨.reply w n :: rest, d.source.fills⟩ } =
      nextBit c { d with source := ⟨.reply w' n :: rest, d.source.fills⟩ } := by
  simp [nextBit, hx, hl, sourceFill, topBits_congr h]

/-- Settles O60, clause by clause. -/
theorem inputStreamIsTheValidBitsInOrder : Obligations.InputStreamIsTheValidBitsInOrder :=
  fun _ => ⟨fun _ rest h => inputBits_units_append rest h, fun w _ rest h => inputBits_end w rest h,
    fun _ _ _ rest _ hn h =>
      ⟨inputBits_reply_congr rest hn h, fun hx hl => nextBit_reply_congr rest hx hl h⟩⟩

end Sys2Proof.Machine
end

section
/-!
The units that commands append to the Sink's record (`20_memory.md` rules R52, R54 and R56).
-/
namespace Sys2Proof.Machine

variable {c : Config} {e e₀ : EncPath} {s t : State}

/-- Both conditions on the end of a run can be weakened. -/
theorem meets_imp {σ α : Type} {r : Run σ α} {P P' : σ → Prop} {Q Q' : StreamFault → σ → Prop}
    (h : r.Meets P Q) (hP : ∀ u, P u → P' u) (hQ : ∀ f u, Q f u → Q' f u) : r.Meets P' Q' := by
  cases r with
  | done a u => exact hP u h
  | raised f u => exact hQ f u h
  | stuck f => trivial

/-! ### A command that has not flushed has written bits, in full units -/

/-- Some bits were written since `e₀`, every unit handed over being full. -/
def WroteSome (c : Config) (e₀ e : EncPath) : Prop := ∃ bits, Wrote c e₀ e bits

theorem WroteSome.ready (h : WroteSome c e₀ e) : e.Ready c := by
  obtain ⟨bits, w⟩ := h
  exact w.ready

theorem WroteSome.trans {e' : EncPath} {bits : List Bool} (h : WroteSome c e₀ e)
    (w : Wrote c e e' bits) : WroteSome c e₀ e' := by
  obtain ⟨bits₀, w₀⟩ := h
  exact ⟨_, w₀.trans w⟩

/-- Only the counter, the phase or the interval differs. -/
theorem WroteSome.congr {e' : EncPath} (h : WroteSome c e₀ e) (hb : e'.reg.buf = e.reg.buf)
    (hf : e'.reg.fill = e.reg.fill) (hs : e'.sink = e.sink) : WroteSome c e₀ e' := by
  obtain ⟨bits, w⟩ := h
  exact ⟨bits, w.congr hb hf hs⟩

/-- A run that goes on, or raises a stream fault, with only full units handed over since `e₀`. -/
abbrev Run.WritesSome (c : Config) (e₀ : EncPath) (r : Run EncPath Unit) : Prop :=
  r.Meets (WroteSome c e₀) fun _ => WroteSome c e₀

theorem emitWithPending_writesSome (b : Bool) (h : WroteSome c e₀ e) :
    (emitWithPending c b e).WritesSome c e₀ := by
  rcases emitWithPending_cases b h.ready with ⟨e', hd, w, -⟩ | ⟨-, hs⟩
  · rw [hd]
    exact h.trans w
  · rw [hs]
    trivial

theorem deferBit_writesSome (h : WroteSome c e₀ e) : (deferBit c e).WritesSome c e₀ := by
  rcases deferBit_cases c e with ⟨-, hd⟩ | ⟨-, hd⟩
  · rw [hd]
    exact h
  · rw [hd]
    exact h.congr rfl rfl rfl

theorem encStep_writesSome (k : RenormCase) (h : WroteSome c e₀ e) :
    (encStep c k e).WritesSome c e₀ := by
  rcases encStep_cases k h.ready with ⟨e', bits, p, hd, w, -⟩ | ⟨-, -, hd⟩ | ⟨-, hd⟩
  · rw [hd]
    exact h.trans w
  · rw [hd]
    exact h
  · rw [hd]
    trivial

theorem encRenorm_writesSome (fuel : Nat) (h : WroteSome c e₀ e) :
    (encRenorm c fuel e).WritesSome c e₀ := by
  induction fuel generalizing e with
  | zero => trivial
  | succ fuel ih =>
    cases hk : classify c e.reg.lower e.reg.upper with
    | none =>
      rw [encRenorm_stop hk]
      exact h
    | some k =>
      rw [encRenorm_iterate hk]
      exact meets_andThen (encStep_writesSome k h) fun _ e' h' => ih h'

theorem encPutSymbol_writesSome (pl pu pt : Nat) (h : e.Ready c) :
    (encPutSymbol c pl pu pt e).WritesSome c e := by
  have hn : WroteSome c e (e.narrow pl pu pt) := ⟨[], (Wrote.refl h).congr rfl rfl rfl⟩
  exact meets_andThen (encRenorm_writesSome _ hn) fun _ e' h' => h'.congr rfl rfl rfl

theorem encFinalBits_writesSome (h : e.Ready c) : (encFinalBits c e).WritesSome c e := by
  have h₀ : WroteSome c e e := ⟨[], Wrote.refl h⟩
  unfold encFinalBits
  split
  · split
    · exact emitWithPending_writesSome _ h₀
    · exact h₀
  split
  · split
    · exact emitWithPending_writesSome _ h₀
    · exact h₀
  split
  · exact meets_andThen (deferBit_writesSome h₀) fun _ e' h' => emitWithPending_writesSome _ h'
  · exact emitWithPending_writesSome _ h₀

/-! ### Full units, then at most one short one -/

/-- A unit with every bit valid, of a word that fits the port. -/
abbrev BitUnit.Full (c : Config) (u : BitUnit) : Prop := u.count = c.bufBits ∧ u.word < 2 ^ c.bufBits

/-- A unit with some bits valid, but not all, and the others 0 (rule R52). -/
abbrev BitUnit.Short (c : Config) (u : BitUnit) : Prop :=
  1 ≤ u.count ∧ u.count < c.bufBits ∧ u.word < 2 ^ c.bufBits ∧
    u.word % 2 ^ (c.bufBits - u.count) = 0

/-- The record grew from `old` to `new` by full units and then at most one short one. -/
def AppendsUnits (c : Config) (old new : List BitUnit) : Prop :=
  ∃ full short : List BitUnit, new = old ++ full ++ short ∧
    (∀ u ∈ full, u.Full c) ∧ (∀ u ∈ short, u.Short c) ∧ short.length ≤ 1

/-- The record grew from `old` to `new` by full units. -/
def AppendsFull (c : Config) (old new : List BitUnit) : Prop :=
  ∃ full : List BitUnit, new = old ++ full ∧ ∀ u ∈ full, u.Full c

theorem WroteSome.appendsFull (h : WroteSome c e₀ e) : AppendsFull c e₀.sink.units e.sink.units := by
  obtain ⟨bits, w⟩ := h
  obtain ⟨new, hunits, hnew, -⟩ := w.units
  refine ⟨new, hunits, fun u hu => ?_⟩
  obtain ⟨⟨-, -, hword, -⟩, hcount⟩ := hnew u hu
  exact ⟨hcount, hword⟩

theorem AppendsFull.appendsUnits {old new : List BitUnit} (h : AppendsFull c old new) :
    AppendsUnits c old new := by
  obtain ⟨full, hnew, hfull⟩ := h
  exact ⟨full, [], by simpa using hnew, hfull, by simp, by simp⟩

/-- Flush hands over what is left of a buffer that is not full. -/
theorem encFlush_appendsUnits (h : WroteSome c e₀ e) {Q : StreamFault → EncPath → Prop} :
    (encFlush e).Meets (fun e' => AppendsUnits c e₀.sink.units e'.sink.units) Q := by
  obtain ⟨full, hunits, hfull⟩ := h.appendsFull
  obtain ⟨hfill, hword, hmod⟩ := h.ready
  rcases encFlush_cases c e with ⟨e', hd, -, hcase, -, -⟩ | ⟨-, hd⟩
  · rw [hd]
    rcases hcase with ⟨-, rfl⟩ | ⟨hpos, -, hlast⟩
    · exact h.appendsFull.appendsUnits
    · exact ⟨full, [⟨e.reg.buf, e.reg.fill⟩], by rw [hlast, hunits], hfull,
        List.forall_mem_singleton.2 ⟨hpos, hfill, hword, hmod⟩, le_rfl⟩
  · rw [hd]
    trivial

theorem encFinishStream_appendsUnits (h : e.Ready c) :
    (encFinishStream c e).Meets (fun e' => AppendsUnits c e.sink.units e'.sink.units)
      fun _ e' => AppendsUnits c e.sink.units e'.sink.units := by
  have hfinal := meets_imp (encFinalBits_writesSome h) (fun _ h' => h')
    fun _ _ h' => h'.appendsFull.appendsUnits
  exact meets_andThen hfinal fun _ e' h' => meets_andThen (encFlush_appendsUnits h') fun _ _ h'' => h''

/-! ### The commands -/

theorem endEnc_sink {r : Run EncPath Unit} {P : List BitUnit → Prop}
    (hr : r.Meets (fun e => P e.sink.units) fun _ e => P e.sink.units) (ht : s.endEnc r = .next t) :
    P t.sink.units := by
  rcases endEnc_eq_next ht with ⟨e, rfl, rfl⟩ | ⟨f, e, rfl, rfl⟩
  · exact hr
  · exact hr

/-- Only ENC.PUT and ENC.FINISH reach the Sink. -/
theorem exec_sink_eq {i : Instr} (hput : i.opcode ≠ 0x11) (hfinish : i.opcode ≠ 0x12)
    (ht : exec i s = .next t) : t.sink = s.sink := by
  by_cases hi : i.opcode / 16 = 1
  · cases i with
    | encStart =>
      rw [exec_encStart] at ht
      cases ht
      rfl
    | encPut pl pu pt => exact absurd rfl hput
    | encFinish => exact absurd rfl hfinish
    | _ => simp [Instr.opcode] at hi
  · obtain ⟨-, -, hsink, -⟩ := commandsReachOnlyTheirUnit i s t ht
    exact (hsink hi).2

theorem exec_encPut_appendsFull {pl pu pt : Nat} (h : s.encPath.Ready s.cfg)
    (ht : exec (.encPut pl pu pt) s = .next t) : AppendsFull s.cfg s.sink.units t.sink.units := by
  have hsame : AppendsFull s.cfg s.sink.units s.sink.units := ⟨[], by simp, by simp⟩
  rcases exec_encPut_eq_next ht with ⟨k, rfl⟩ | rfl | ⟨-, -, ht⟩
  · exact hsame
  · exact hsame
  · exact endEnc_sink (meets_imp (encPutSymbol_writesSome pl pu pt h)
      (fun _ h' => h'.appendsFull) fun _ _ h' => h'.appendsFull) ht

theorem exec_encFinish_appendsUnits (h : s.encPath.Ready s.cfg)
    (ht : exec .encFinish s = .next t) : AppendsUnits s.cfg s.sink.units t.sink.units := by
  rcases exec_encFinish_eq_next ht with ⟨k, rfl⟩ | ⟨-, ht⟩
  · exact AppendsFull.appendsUnits ⟨[], by simp, by simp⟩
  · exact endEnc_sink (encFinishStream_appendsUnits h) ht

/-- Settles O48: the two commands that reach the Sink, one by one. -/
theorem sinkGetsFullUnitsThenOneShort : Obligations.SinkGetsFullUnitsThenOneShort := by
  intro i s t h ht
  obtain ⟨⟨-, -, -, -, hready⟩, -⟩ := h.enc
  cases i with
  | encPut pl pu pt =>
    obtain ⟨full, hunits, hfull⟩ := exec_encPut_appendsFull hready ht
    exact ⟨full, [], by simpa using hunits, hfull, by simp, by simp, fun _ => rfl,
      fun hne => absurd rfl hne⟩
  | encFinish =>
    obtain ⟨full, short, hunits, hfull, hshort, hlen⟩ := exec_encFinish_appendsUnits hready ht
    exact ⟨full, short, hunits, hfull, hshort, hlen, fun hne => absurd rfl hne,
      fun _ hne => absurd rfl hne⟩
  | _ =>
    have hsink := exec_sink_eq (by simp [Instr.opcode]) (by simp [Instr.opcode]) ht
    exact ⟨[], [], by simp [hsink], by simp, by simp, by simp, fun _ => rfl, fun _ _ => rfl⟩

end Sys2Proof.Machine
end

section
/-!
A port that stalls for ever: a command answers what it answers where the port completes every
transaction, or has no step (`20_memory.md` rules R57 and R58).
-/
namespace Sys2Proof.Machine

/-! ### A run on a port that completes, and the same run on one that stalls -/

/-- How one port stalls. The state `σ` of its unit holds the port as one that always completes. -/
structure Stall (σ : Type) where
  /-- How many transactions the port has completed. -/
  used : σ → Nat
  /-- How many it completes before it stalls for ever. -/
  bound : Nat
  /-- The same state, with the port as one that stalls. -/
  stall : σ → σ
  /-- What a run answers that meets the stall. -/
  fault : Fault

section
variable {σ α β : Type} {p : Stall σ} {I J : σ → Prop} {m : Nat}

/-- What a run that ends as `r` on the completing port is on the one that stalls. -/
def Stall.outcome (p : Stall σ) (r : Run σ α) : Run σ α :=
  match r with
  | .done a u => if p.used u ≤ p.bound then .done a (p.stall u) else .stuck p.fault
  | .raised f u => if p.used u ≤ p.bound then .raised f (p.stall u) else .stuck p.fault
  | .stuck f => .stuck f

/-- The run has a step, and has used `m` or more of the port; where it goes on, the unit meets `I`. -/
def Stall.Completes (p : Stall σ) (I : σ → Prop) (m : Nat) (r : Run σ α) : Prop :=
  match r with
  | .done _ u => I u ∧ m ≤ p.used u
  | .raised _ u => m ≤ p.used u
  | .stuck _ => False

/-- `r` is a run on the completing port from where `m` of it was used, and `r'` the same run on the one
that stalls. -/
structure Stall.Limits (p : Stall σ) (I : σ → Prop) (m : Nat) (r r' : Run σ α) : Prop where
  completes : p.Completes I m r
  outcome : m ≤ p.bound → r' = p.outcome r

/-- Nothing of the port is used. -/
theorem Stall.limits_pure (p : Stall σ) (a : α) (u : σ) (hI : I u) :
    p.Limits I (p.used u) (.done a u) (.done a (p.stall u)) :=
  ⟨⟨hI, le_rfl⟩, fun hm => by simp [Stall.outcome, hm]⟩

theorem Stall.limits_raise (p : Stall σ) (f : StreamFault) (u : σ) :
    p.Limits I (p.used u) (.raised f u : Run σ α) (.raised f (p.stall u)) :=
  ⟨le_rfl, fun hm => by simp [Stall.outcome, hm]⟩

/-- Both runs branch alike. -/
theorem Stall.limits_ite {q : Prop} [Decidable q] {r₁ r₂ r₁' r₂' : Run σ α}
    (h₁ : q → p.Limits I m r₁ r₁') (h₂ : ¬ q → p.Limits I m r₂ r₂') :
    p.Limits I m (if q then r₁ else r₂) (if q then r₁' else r₂') := by
  by_cases hq : q
  · simpa only [hq, if_true] using h₁ hq
  · simpa only [hq, if_false] using h₂ hq

theorem Stall.Completes.mono {m' : Nat} {r : Run σ α} (h : p.Completes I m r) (hm : m' ≤ m) :
    p.Completes I m' r := by
  cases r with
  | done a u => exact ⟨h.1, hm.trans h.2⟩
  | raised f u => exact hm.trans h
  | stuck f => exact h

/-- A run that has already used more than the port allows has no step on the one that stalls. -/
theorem Stall.Completes.outcome_of_lt {r : Run σ α} (h : p.Completes I m r) (hm : p.bound < m) :
    p.outcome r = .stuck p.fault := by
  cases r with
  | done a u =>
    obtain ⟨-, hu⟩ := h
    exact if_neg (by omega)
  | raised f u => exact if_neg (hm.trans_le h).not_ge
  | stuck f => exact absurd h id

/-- A run that stalls in its first part stalls, and one that does not goes on as before. -/
theorem Stall.Limits.andThen {r r' : Run σ α} {k k' : α → σ → Run σ β} (h : p.Limits I m r r')
    (hk : ∀ a u, I u → p.Limits J (p.used u) (k a u) (k' a (p.stall u))) :
    p.Limits J m (r.andThen k) (r'.andThen k') := by
  obtain ⟨hc, hr'⟩ := h
  cases r with
  | done a u =>
    obtain ⟨hI, hmu⟩ := hc
    obtain ⟨hck, hrk⟩ := hk a u hI
    refine ⟨hck.mono hmu, fun hm => ?_⟩
    rw [hr' hm, andThen_done, Stall.outcome]
    by_cases hu : p.used u ≤ p.bound
    · rw [if_pos hu, andThen_done, hrk hu]
    · rw [if_neg hu, andThen_stuck, hck.outcome_of_lt (not_le.1 hu)]
  | raised f u =>
    refine ⟨hc, fun hm => ?_⟩
    rw [hr' hm, andThen_raised, Stall.outcome, Stall.outcome]
    by_cases hu : p.used u ≤ p.bound
    · rw [if_pos hu, andThen_raised, if_pos hu]
    · rw [if_neg hu, andThen_stuck, if_neg hu]
  | stuck f => exact absurd hc id

end

/-! ### ENC beside a Sink that accepts so many units -/

section
variable {c : Config} {n l u : Nat} {e : EncPath}

/-- The Sink accepts `n` units in all, and then never one again. -/
def Sink.limited (n : Nat) (k : Sink) : Sink := { k with room := some (n - k.units.length) }

/-- The stall of a Sink that accepts `n` units in all. -/
def sinkStall (n : Nat) : Stall EncPath where
  used e := e.sink.units.length
  bound := n
  stall e := { e with sink := e.sink.limited n }
  fault := .sinkNeverAccepts

/-- ENC within a command beside a Sink that accepts every unit, its interval from `l` to `u`. -/
structure EncPath.Runs (l u : Nat) (e : EncPath) : Prop where
  accepts : e.sink.Accepts
  lower : e.reg.lower = l
  upper : e.reg.upper = u

theorem handOver_limits (m : Nat) (h : e.Runs l u) :
    (sinkStall n).Limits (EncPath.Runs l u) e.sink.units.length (handOver m e)
      (handOver m ((sinkStall n).stall e)) := by
  obtain ⟨ha, hl, hu⟩ := h
  have hd : handOver m e = .done ()
      ⟨{ e.reg with buf := 0, fill := 0 }, ⟨e.sink.units ++ [⟨e.reg.buf, m⟩], none⟩⟩ := by
    simp [handOver, sinkAccept_of_accepts ha]
  rw [hd]
  refine ⟨⟨⟨rfl, hl, hu⟩, by simp [sinkStall]⟩, fun hm => ?_⟩
  simp only [sinkStall, Sink.limited, Stall.outcome, List.length_append, List.length_singleton]
    at hm ⊢
  by_cases hroom : e.sink.units.length + 1 ≤ n
  · obtain ⟨j, hj⟩ : ∃ j, n - e.sink.units.length = j + 1 :=
      Nat.exists_eq_succ_of_ne_zero (by omega)
    have hj' : n - (e.sink.units.length + 1) = j := by omega
    simp [handOver, sinkAccept, hj, hj', hroom]
  · have hj : n - e.sink.units.length = 0 := by omega
    simp [handOver, sinkAccept, hj, hroom]

/-- The bit placed in the buffer, before it is seen whether the buffer is full (rule R111). -/
def EncPath.place (c : Config) (b : Bool) (e : EncPath) : EncPath :=
  { e with reg := { e.reg with
      buf := e.reg.buf + b.toNat * 2 ^ (c.bufBits - 1 - e.reg.fill)
      fill := e.reg.fill + 1 } }

theorem putBit_eq (b : Bool) : putBit c b e =
    if (e.place c b).reg.fill = c.bufBits then handOver c.bufBits (e.place c b)
    else .done () (e.place c b) := rfl

theorem putBit_limits (b : Bool) (h : e.Runs l u) :
    (sinkStall n).Limits (EncPath.Runs l u) e.sink.units.length (putBit c b e)
      (putBit c b ((sinkStall n).stall e)) := by
  have hplace : (e.place c b).Runs l u := ⟨h.accepts, h.lower, h.upper⟩
  rw [putBit_eq, putBit_eq]
  exact Stall.limits_ite (fun _ => handOver_limits _ hplace)
    fun _ => (sinkStall n).limits_pure () _ hplace

theorem putCopies_limits (b : Bool) (m : Nat) (h : e.Runs l u) :
    (sinkStall n).Limits (EncPath.Runs l u) e.sink.units.length (putCopies c b m e)
      (putCopies c b m ((sinkStall n).stall e)) := by
  induction m generalizing e with
  | zero => exact (sinkStall n).limits_pure () e h
  | succ m ih => exact (putBit_limits b h).andThen fun _ e' h' => ih h'

theorem emitWithPending_limits (b : Bool) (h : e.Runs l u) :
    (sinkStall n).Limits (EncPath.Runs l u) e.sink.units.length (emitWithPending c b e)
      (emitWithPending c b ((sinkStall n).stall e)) :=
  (putBit_limits b h).andThen fun _ _ h1 => (putCopies_limits _ _ h1).andThen fun _ e2 h2 =>
    (sinkStall n).limits_pure () (e2.setPending 0) ⟨h2.accepts, h2.lower, h2.upper⟩

theorem deferBit_limits (h : e.Runs l u) :
    (sinkStall n).Limits (EncPath.Runs l u) e.sink.units.length (deferBit c e)
      (deferBit c ((sinkStall n).stall e)) := by
  have hset : (e.setPending (e.reg.pending + 1)).Runs l u := ⟨h.accepts, h.lower, h.upper⟩
  exact Stall.limits_ite (fun _ => (sinkStall n).limits_raise _ e)
    fun _ => (sinkStall n).limits_pure () _ hset

theorem encTransform_limits (k : RenormCase) (h : e.Runs l u) :
    (sinkStall n).Limits (EncPath.Runs (transformBound c k l) (transformBound c k u))
      e.sink.units.length (.done () (e.transform c k))
      (.done () (((sinkStall n).stall e).transform c k)) :=
  (sinkStall n).limits_pure () (e.transform c k) ⟨h.accepts, by simp [h.lower], by simp [h.upper]⟩

theorem encStep_limits (k : RenormCase) (h : e.Runs l u) :
    (sinkStall n).Limits (EncPath.Runs (transformBound c k l) (transformBound c k u))
      e.sink.units.length (encStep c k e) (encStep c k ((sinkStall n).stall e)) := by
  cases k with
  | e1 => exact (emitWithPending_limits _ h).andThen fun _ _ h' => encTransform_limits _ h'
  | e2 => exact (emitWithPending_limits _ h).andThen fun _ _ h' => encTransform_limits _ h'
  | e3 => exact (deferBit_limits h).andThen fun _ _ h' => encTransform_limits _ h'

theorem encRenorm_limits {fuel : Nat} (h : e.Runs l u) (hc : Converges c fuel l u) :
    (sinkStall n).Limits (fun e => e.sink.Accepts) e.sink.units.length (encRenorm c fuel e)
      (encRenorm c fuel ((sinkStall n).stall e)) := by
  induction fuel generalizing e l u with
  | zero => exact absurd hc not_converges_zero
  | succ fuel ih =>
    obtain ⟨ha, rfl, rfl⟩ := h
    cases hk : classify c e.reg.lower e.reg.upper with
    | none =>
      rw [encRenorm_stop hk, encRenorm_stop (e := (sinkStall n).stall e) hk]
      exact (sinkStall n).limits_pure () e ha
    | some k =>
      rw [encRenorm_iterate hk, encRenorm_iterate (e := (sinkStall n).stall e) hk]
      exact (encStep_limits k ⟨ha, rfl, rfl⟩).andThen fun _ _ h' => ih h' (hc.transform hk)

theorem encPutSymbol_limits {pl pu pt : Nat} (ha : e.sink.Accepts)
    (hi : IntervalOk c e.reg.lower e.reg.upper e.reg.range) (hp : ProbOk c pl pu pt) :
    (sinkStall n).Limits (fun _ => True) e.sink.units.length (encPutSymbol c pl pu pt e)
      (encPutSymbol c pl pu pt ((sinkStall n).stall e)) :=
  (encRenorm_limits (e := e.narrow pl pu pt) ⟨ha, rfl, rfl⟩ (converges_narrow hi hp)).andThen
    fun _ e' _ => (sinkStall n).limits_pure () e'.updateRange trivial

/-- The three cases of rule R118 look at registers only. -/
theorem encFinalBits_limits (h : e.Runs l u) :
    (sinkStall n).Limits (EncPath.Runs l u) e.sink.units.length (encFinalBits c e)
      (encFinalBits c ((sinkStall n).stall e)) := by
  have hnone := (sinkStall n).limits_pure () e h
  refine Stall.limits_ite (fun _ => Stall.limits_ite (fun _ => emitWithPending_limits _ h) fun _ => hnone)
    fun _ => Stall.limits_ite (fun _ => Stall.limits_ite (fun _ => emitWithPending_limits _ h)
      fun _ => hnone) fun _ => Stall.limits_ite (fun _ => ?_) fun _ => emitWithPending_limits _ h
  exact (deferBit_limits h).andThen fun _ _ h' => emitWithPending_limits _ h'

theorem encFlush_limits (h : e.Runs l u) :
    (sinkStall n).Limits (EncPath.Runs l u) e.sink.units.length (encFlush e)
      (encFlush ((sinkStall n).stall e)) :=
  Stall.limits_ite (fun _ => handOver_limits _ h) fun _ => (sinkStall n).limits_pure () e h

theorem encFinishStream_limits (ha : e.sink.Accepts) :
    (sinkStall n).Limits (fun _ => True) e.sink.units.length (encFinishStream c e)
      (encFinishStream c ((sinkStall n).stall e)) :=
  (encFinalBits_limits ⟨ha, rfl, rfl⟩).andThen fun _ _ h1 => (encFlush_limits h1).andThen fun _ e2 _ =>
    (sinkStall n).limits_pure () e2.close trivial

end

/-! ### DEC beside a Source that gives so many replies -/

section
variable {c : Config} {n l u : Nat} {rest : List SourceReply} {d : DecPath}

/-- After its replies the Source never replies again; `rest` stands behind the stall. -/
def Source.stalled (rest : List SourceReply) (q : Source) : Source :=
  { q with replies := q.replies ++ .never :: rest }

/-- The stall of a Source that answers `n` calls in all. -/
def sourceStall (n : Nat) (rest : List SourceReply) : Stall DecPath where
  used d := d.source.fills
  bound := n
  stall d := { d with source := d.source.stalled rest }
  fault := .sourceNeverReplies

/-- The Source completes every transaction, and its replies last until the call number `n`. -/
structure Source.LastsTo (n : Nat) (q : Source) : Prop where
  answers : q.Answers
  count : q.fills ≤ n → q.fills + q.replies.length = n

theorem Source.LastsTo.lt_of_nil {fills : Nat} (h : Source.LastsTo n ⟨[], fills⟩) : n < fills + 1 := by
  have hcount := h.count
  simp only [List.length_nil] at hcount
  omega

theorem Source.LastsTo.of_nil {fills : Nat} (h : Source.LastsTo n ⟨[], fills⟩) :
    Source.LastsTo n ⟨[], fills + 1⟩ :=
  ⟨h.answers, fun hle => absurd h.lt_of_nil (not_lt.2 hle)⟩

theorem Source.LastsTo.succ_le {r : SourceReply} {replies : List SourceReply} {fills : Nat}
    (h : Source.LastsTo n ⟨r :: replies, fills⟩) (hle : fills ≤ n) : fills + 1 ≤ n := by
  have hcount := h.count hle
  simp only [List.length_cons] at hcount
  omega

theorem Source.LastsTo.tail {r : SourceReply} {replies : List SourceReply} {fills : Nat}
    (h : Source.LastsTo n ⟨r :: replies, fills⟩) : Source.LastsTo n ⟨replies, fills + 1⟩ := by
  refine ⟨fun hm => h.answers (List.mem_cons_of_mem r hm), fun hle => ?_⟩
  have hcount := h.count ((Nat.le_succ fills).trans hle)
  simp only [List.length_cons] at hcount ⊢
  omega

/-- DEC within a command beside a Source whose replies last until call `n`, its interval from `l` to
`u`. -/
structure DecPath.Runs (n l u : Nat) (d : DecPath) : Prop where
  lasts : d.source.LastsTo n
  lower : d.reg.lower = l
  upper : d.reg.upper = u

theorem takeBufferedBit_limits (h : d.Runs n l u) :
    (sourceStall n rest).Limits (DecPath.Runs n l u) d.source.fills (takeBufferedBit c d)
      (takeBufferedBit c ((sourceStall n rest).stall d)) := by
  have htaken : DecPath.Runs n l u { d with reg := { d.reg with
      buf := (d.reg.buf * 2) % 2 ^ c.bufBits, left := d.reg.left - 1 } } :=
    ⟨h.lasts, h.lower, h.upper⟩
  exact (sourceStall n rest).limits_pure _ _ htaken

/-- What NextBit does with a unit that the Source has returned (rules R131 and R132). -/
def takeUnit (c : Config) (d : DecPath) (v : BitUnit) : Run DecPath Bool :=
  if c.bufBits < v.count then .raised .esource d
  else if v.count = 0 then .done true { d with reg := { d.reg with exhausted := true } }
  else takeBufferedBit c
    { d with reg := { d.reg with buf := topBits c v.word v.count, left := v.count } }

/-- NextBit where it has to call the Source (rule R131). -/
def callSource (c : Config) (d : DecPath) : Run DecPath Bool :=
  match sourceFill d.source with
  | none => .stuck .sourceNeverReplies
  | some (v, q) => takeUnit c { d with source := q } v

theorem nextBit_eq (d : DecPath) : nextBit c d =
    if d.reg.exhausted = true then .done true d
    else if d.reg.left = 0 then callSource c d else takeBufferedBit c d := rfl

theorem takeUnit_limits (v : BitUnit) (h : d.Runs n l u) :
    (sourceStall n rest).Limits (DecPath.Runs n l u) d.source.fills (takeUnit c d v)
      (takeUnit c ((sourceStall n rest).stall d) v) := by
  have hend : DecPath.Runs n l u { d with reg := { d.reg with exhausted := true } } :=
    ⟨h.lasts, h.lower, h.upper⟩
  have hunit : DecPath.Runs n l u
      { d with reg := { d.reg with buf := topBits c v.word v.count, left := v.count } } :=
    ⟨h.lasts, h.lower, h.upper⟩
  exact Stall.limits_ite (fun _ => (sourceStall n rest).limits_raise _ d) fun _ =>
    Stall.limits_ite (fun _ => (sourceStall n rest).limits_pure _ _ hend)
      fun _ => takeBufferedBit_limits hunit

/-- A call uses up a reply, or goes beyond the last one, where the other Source stalls. -/
theorem callSource_limits (h : d.Runs n l u) :
    (sourceStall n rest).Limits (DecPath.Runs n l u) d.source.fills (callSource c d)
      (callSource c ((sourceStall n rest).stall d)) := by
  obtain ⟨hlasts, hl, hu⟩ := h
  obtain ⟨reg, ⟨replies, fills⟩⟩ := d
  cases replies with
  | nil =>
    have hnext : DecPath.Runs n l u ⟨reg, ⟨[], fills + 1⟩⟩ := ⟨hlasts.of_nil, hl, hu⟩
    obtain ⟨hc, -⟩ := takeUnit_limits (c := c) (rest := rest) ⟨0, 0⟩ hnext
    exact ⟨hc.mono (Nat.le_succ fills), fun _ => (hc.outcome_of_lt hlasts.lt_of_nil).symm⟩
  | cons reply replies =>
    cases reply with
    | never => exact absurd List.mem_cons_self hlasts.answers
    | reply w k =>
      have hnext : DecPath.Runs n l u ⟨reg, ⟨replies, fills + 1⟩⟩ := ⟨hlasts.tail, hl, hu⟩
      obtain ⟨hc, ho⟩ := takeUnit_limits (c := c) (rest := rest) ⟨w, k⟩ hnext
      exact ⟨hc.mono (Nat.le_succ fills), fun hm => ho (hlasts.succ_le hm)⟩

theorem nextBit_limits (h : d.Runs n l u) :
    (sourceStall n rest).Limits (DecPath.Runs n l u) d.source.fills (nextBit c d)
      (nextBit c ((sourceStall n rest).stall d)) := by
  rw [nextBit_eq, nextBit_eq]
  exact Stall.limits_ite (fun _ => (sourceStall n rest).limits_pure _ d h) fun _ =>
    Stall.limits_ite (fun _ => callSource_limits h) fun _ => takeBufferedBit_limits h

theorem shiftWindow_limits (off : Nat) (h : d.Runs n l u) :
    (sourceStall n rest).Limits (DecPath.Runs n l u) d.source.fills (shiftWindow c off d)
      (shiftWindow c off ((sourceStall n rest).stall d)) := by
  refine (nextBit_limits h).andThen fun b d' h' => ?_
  have hshifted : DecPath.Runs n l u { d' with reg := { d'.reg with
      window := 2 * (d'.reg.window - off) + b.toNat } } := ⟨h'.lasts, h'.lower, h'.upper⟩
  exact (sourceStall n rest).limits_pure () _ hshifted

theorem fillWindow_limits (m : Nat) (h : d.Runs n l u) :
    (sourceStall n rest).Limits (DecPath.Runs n l u) d.source.fills (fillWindow c m d)
      (fillWindow c m ((sourceStall n rest).stall d)) := by
  induction m generalizing d with
  | zero => exact (sourceStall n rest).limits_pure () d h
  | succ m ih => exact (shiftWindow_limits 0 h).andThen fun _ _ h' => ih h'

theorem decStep_limits (k : RenormCase) (h : d.Runs n l u) :
    (sourceStall n rest).Limits (DecPath.Runs n (transformBound c k l) (transformBound c k u))
      d.source.fills (decStep c k d) (decStep c k ((sourceStall n rest).stall d)) :=
  shiftWindow_limits (d := d.transform c k) _ ⟨h.lasts, by simp [h.lower], by simp [h.upper]⟩

theorem decRenorm_limits {fuel : Nat} (h : d.Runs n l u) (hc : Converges c fuel l u) :
    (sourceStall n rest).Limits (fun _ => True) d.source.fills (decRenorm c fuel d)
      (decRenorm c fuel ((sourceStall n rest).stall d)) := by
  induction fuel generalizing d l u with
  | zero => exact absurd hc not_converges_zero
  | succ fuel ih =>
    obtain ⟨hlasts, rfl, rfl⟩ := h
    cases hk : classify c d.reg.lower d.reg.upper with
    | none =>
      rw [decRenorm_stop hk, decRenorm_stop (d := (sourceStall n rest).stall d) hk]
      exact (sourceStall n rest).limits_pure () d trivial
    | some k =>
      rw [decRenorm_iterate hk, decRenorm_iterate (d := (sourceStall n rest).stall d) hk]
      exact (decStep_limits k ⟨hlasts, rfl, rfl⟩).andThen fun _ _ h' => ih h' (hc.transform hk)

theorem decNarrowSymbol_limits {pl pu pt : Nat} (hq : d.source.LastsTo n)
    (hi : IntervalOk c d.reg.lower d.reg.upper d.reg.range) (hp : ProbOk c pl pu pt) :
    (sourceStall n rest).Limits (fun _ => True) d.source.fills (decNarrowSymbol c pl pu pt d)
      (decNarrowSymbol c pl pu pt ((sourceStall n rest).stall d)) :=
  (decRenorm_limits (d := d.narrow pl pu pt) ⟨hq, rfl, rfl⟩ (converges_narrow hi hp)).andThen
    fun _ d' _ => (sourceStall n rest).limits_pure () (d'.updateRange.setPhase .active) trivial

theorem decOpenStream_limits (hq : d.source.LastsTo n) :
    (sourceStall n rest).Limits (fun _ => True) d.source.fills (decOpenStream c d)
      (decOpenStream c ((sourceStall n rest).stall d)) :=
  (fillWindow_limits (d := ⟨Dec.cleared c d.reg, d.source⟩) _ ⟨hq, rfl, rfl⟩).andThen
    fun _ d' _ => (sourceStall n rest).limits_pure () (d'.setPhase .active) trivial

end

/-! ### The commands -/

section
variable {s t : State} {i : Instr}

/-- The block with a Sink that accepts `n` units in all. -/
def State.sinkLimited (n : Nat) (s : State) : State := { s with sink := s.sink.limited n }

/-- The block with a Source that never replies after its replies. -/
def State.sourceStalled (rest : List SourceReply) (s : State) : State :=
  { s with source := s.source.stalled rest }

/-- What ENC's command answers beside a Sink that accepts every unit, and beside one that accepts `n`. -/
def SinkLimits (n : Nat) (r r' : Host.Outcome State Fault Refusal) : Prop :=
  ∃ t, r = .next t ∧
    r' = if t.sink.units.length ≤ n then .next (t.sinkLimited n) else .fault .sinkNeverAccepts

/-- What DEC's command answers beside a Source that completes every call, and beside one that stalls
after call `n`. -/
def SourceLimits (n : Nat) (rest : List SourceReply) (r r' : Host.Outcome State Fault Refusal) : Prop :=
  ∃ t, r = .next t ∧
    r' = if t.source.fills ≤ n then .next (t.sourceStalled rest) else .fault .sourceNeverReplies

theorem endEnc_sinkLimits {n : Nat} {I : EncPath → Prop} {r r' : Run EncPath Unit}
    (h : (sinkStall n).Limits I s.sink.units.length r r') (hn : s.sink.units.length ≤ n) :
    SinkLimits n (s.endEnc r) ((s.sinkLimited n).endEnc r') := by
  obtain ⟨hc, ho⟩ := h
  rw [ho hn]
  cases r with
  | done a e => exact ⟨_, rfl, apply_ite (State.endEnc _) _ _ _⟩
  | raised f e => exact ⟨_, rfl, apply_ite (State.endEnc _) _ _ _⟩
  | stuck f => exact absurd hc id

theorem endDec_sourceLimits {n : Nat} {rest : List SourceReply} {I : DecPath → Prop}
    {r r' : Run DecPath Unit} (h : (sourceStall n rest).Limits I s.source.fills r r')
    (hn : s.source.fills ≤ n) :
    SourceLimits n rest (s.endDec r) ((s.sourceStalled rest).endDec r') := by
  obtain ⟨hc, ho⟩ := h
  rw [ho hn]
  cases r with
  | done a e => exact ⟨_, rfl, apply_ite (State.endDec _) _ _ _⟩
  | raised f e => exact ⟨_, rfl, apply_ite (State.endDec _) _ _ _⟩
  | stuck f => exact absurd hc id

theorem sinkLimits_next {n : Nat} (hn : t.sink.units.length ≤ n) :
    SinkLimits n (.next t) (.next (t.sinkLimited n)) := ⟨t, rfl, (if_pos hn).symm⟩

theorem sourceLimits_next {n : Nat} {rest : List SourceReply} (hn : t.source.fills ≤ n) :
    SourceLimits n rest (.next t) (.next (t.sourceStalled rest)) := ⟨t, rfl, (if_pos hn).symm⟩

/-- A command that has no step beside the limited Sink has been stopped by it. -/
theorem SinkLimits.eq_of_fault {n : Nat} {r : Host.Outcome State Fault Refusal} {f : Fault}
    (h : SinkLimits n r (.fault f)) : f = .sinkNeverAccepts := by
  obtain ⟨t, -, ht⟩ := h
  split at ht
  · cases ht
  · cases ht
    rfl

theorem SourceLimits.eq_of_fault {n : Nat} {rest : List SourceReply}
    {r : Host.Outcome State Fault Refusal} {f : Fault} (h : SourceLimits n rest r (.fault f)) :
    f = .sourceNeverReplies := by
  obtain ⟨t, -, ht⟩ := h
  split at ht
  · cases ht
  · cases ht
    rfl

theorem exec_encPut_sinkLimits {n pl pu pt : Nat} (h : s.enc.Inv s.cfg) (ha : s.sink.Accepts)
    (hn : s.sink.units.length ≤ n) :
    SinkLimits n (exec (.encPut pl pu pt) s) (exec (.encPut pl pu pt) (s.sinkLimited n)) := by
  cases hk : openStreamCheck s.enc.phase with
  | some k =>
    rw [exec_encPut_notOpen hk, exec_encPut_notOpen (s := s.sinkLimited n) hk]
    exact sinkLimits_next (t := s.respond k 0) hn
  | none =>
    by_cases hp : ProbOk s.cfg pl pu pt
    · obtain ⟨-, hns, -, -, hopen, -⟩ := h
      have hi := hopen ((openStreamCheck_eq_none.1 hk).resolve_right hns)
      rw [exec_encPut_runs hk hp, exec_encPut_runs (s := s.sinkLimited n) hk hp]
      exact endEnc_sinkLimits (encPutSymbol_limits (e := s.encPath) ha hi hp) hn
    · rw [exec_encPut_emodel hk hp, exec_encPut_emodel (s := s.sinkLimited n) hk hp]
      exact sinkLimits_next (t := s.raiseEnc .emodel) hn

theorem exec_encFinish_sinkLimits {n : Nat} (ha : s.sink.Accepts) (hn : s.sink.units.length ≤ n) :
    SinkLimits n (exec .encFinish s) (exec .encFinish (s.sinkLimited n)) := by
  cases hk : openStreamCheck s.enc.phase with
  | some k =>
    rw [exec_encFinish_notOpen hk, exec_encFinish_notOpen (s := s.sinkLimited n) hk]
    exact sinkLimits_next (t := s.respond k 0) hn
  | none =>
    rw [exec_encFinish_runs hk, exec_encFinish_runs (s := s.sinkLimited n) hk]
    exact endEnc_sinkLimits (encFinishStream_limits (e := s.encPath) ha) hn

/-- Every command of ENC beside a Sink that accepts every unit, and beside one that accepts `n`. -/
theorem exec_sinkLimits {n : Nat} (hi : i.opcode / 16 = 1) (h : s.enc.Inv s.cfg)
    (ha : s.sink.Accepts) (hn : s.sink.units.length ≤ n) :
    SinkLimits n (exec i s) (exec i (s.sinkLimited n)) := by
  cases i with
  | encStart =>
    exact sinkLimits_next (t := (s.withEncPath ⟨Enc.opened s.cfg, s.sink⟩).respond .ok 0) hn
  | encPut pl pu pt => exact exec_encPut_sinkLimits h ha hn
  | encFinish => exact exec_encFinish_sinkLimits ha hn
  | _ => simp [Instr.opcode] at hi

theorem exec_decScale_sourceLimits {n total : Nat} {rest : List SourceReply}
    (hn : s.source.fills ≤ n) :
    SourceLimits n rest (exec (.decScale total) s) (exec (.decScale total) (s.sourceStalled rest)) := by
  cases hk : openStreamCheck s.dec.phase with
  | some k =>
    rw [exec_decScale_notOpen hk, exec_decScale_notOpen (s := s.sourceStalled rest) hk]
    exact sourceLimits_next (t := s.respond k 0) hn
  | none =>
    by_cases ht : TotalOk s.cfg total
    · rw [exec_decScale_runs hk ht, exec_decScale_runs (s := s.sourceStalled rest) hk ht]
      exact sourceLimits_next
        (t := State.respond { s with dec := s.dec.latch total } .ok (scaledValue s.dec total)) hn
    · rw [exec_decScale_emodel hk ht, exec_decScale_emodel (s := s.sourceStalled rest) hk ht]
      exact sourceLimits_next (t := s.raiseDec .emodel) hn

theorem exec_decNarrow_sourceLimits {n pl pu pt : Nat} {rest : List SourceReply}
    (h : s.dec.Inv s.cfg) (hq : s.source.LastsTo n) (hn : s.source.fills ≤ n) :
    SourceLimits n rest (exec (.decNarrow pl pu pt) s)
      (exec (.decNarrow pl pu pt) (s.sourceStalled rest)) := by
  cases hk : scaledStepCheck s.dec.phase with
  | some k =>
    rw [exec_decNarrow_notScaled hk, exec_decNarrow_notScaled (s := s.sourceStalled rest) hk]
    exact sourceLimits_next (t := s.respond k 0) hn
  | none =>
    by_cases hp : NarrowOk s.cfg s.dec pl pu pt
    · obtain ⟨-, -, -, hopen, -⟩ := h
      obtain ⟨hi, -⟩ := hopen (.inr (scaledStepCheck_eq_none.1 hk))
      rw [exec_decNarrow_runs hk hp, exec_decNarrow_runs (s := s.sourceStalled rest) hk hp]
      exact endDec_sourceLimits (decNarrowSymbol_limits (d := s.decPath) hq hi hp.1) hn
    · rw [exec_decNarrow_emodel hk hp, exec_decNarrow_emodel (s := s.sourceStalled rest) hk hp]
      exact sourceLimits_next (t := s.raiseDec .emodel) hn

/-- Every command of DEC beside a Source that completes every call, and beside one that stalls after
call `n`. -/
theorem exec_sourceLimits {n : Nat} {rest : List SourceReply} (hi : i.opcode / 16 = 2)
    (h : s.dec.Inv s.cfg) (hq : s.source.LastsTo n) (hn : s.source.fills ≤ n) :
    SourceLimits n rest (exec i s) (exec i (s.sourceStalled rest)) := by
  cases i with
  | decStart => exact endDec_sourceLimits (decOpenStream_limits (d := s.decPath) hq) hn
  | decScale total => exact exec_decScale_sourceLimits hn
  | decNarrow pl pu pt => exact exec_decNarrow_sourceLimits h hq hn
  | _ => simp [Instr.opcode] at hi

/-- ENC beside a Sink that accepts `r` more units. -/
theorem exec_of_room {r : Nat} (hi : i.opcode / 16 = 1) (h : s.enc.Inv s.cfg)
    (hr : s.sink.room = some r) :
    SinkLimits (s.sink.units.length + r) (exec i { s with sink := { s.sink with room := none } })
      (exec i s) := by
  have hs : State.sinkLimited (s.sink.units.length + r)
      { s with sink := { s.sink with room := none } } = s := by
    simp only [State.sinkLimited, Sink.limited, Nat.add_sub_cancel_left, ← hr]
  have hlimits := exec_sinkLimits (s := { s with sink := { s.sink with room := none } })
    (n := s.sink.units.length + r) hi h rfl (Nat.le_add_right _ _)
  rwa [hs] at hlimits

/-- DEC beside a Source that never replies after the replies `good`. -/
theorem exec_of_stall {good rest : List SourceReply} (hi : i.opcode / 16 = 2) (h : s.dec.Inv s.cfg)
    (hgood : SourceReply.never ∉ good) (hr : s.source.replies = good ++ .never :: rest) :
    SourceLimits (s.source.fills + good.length) rest
      (exec i { s with source := { s.source with replies := good } }) (exec i s) := by
  have hs : State.sourceStalled rest { s with source := { s.source with replies := good } } = s := by
    simp only [State.sourceStalled, Source.stalled, ← hr]
  have hlimits := exec_sourceLimits (s := { s with source := { s.source with replies := good } })
    (n := s.source.fills + good.length) (rest := rest) hi h ⟨hgood, fun _ => rfl⟩
    (Nat.le_add_right _ _)
  rwa [hs] at hlimits

/-! ### The fault a command answers -/

theorem sinkNeverAccepts_of_exec_eq_fault {f : Fault} (hi : i.opcode / 16 = 1) (h : s.enc.Inv s.cfg)
    (hf : exec i s = .fault f) : f = .sinkNeverAccepts ∧ s.sink.room ≠ none := by
  cases hr : s.sink.room with
  | none =>
    obtain ⟨t, ht, -⟩ := exec_sinkLimits hi h hr le_rfl
    rw [hf] at ht
    cases ht
  | some r =>
    have hlimits := exec_of_room hi h hr
    rw [hf] at hlimits
    exact ⟨hlimits.eq_of_fault, Option.some_ne_none r⟩

theorem sourceNeverReplies_of_exec_eq_fault {f : Fault} (hi : i.opcode / 16 = 2)
    (h : s.dec.Inv s.cfg) (hf : exec i s = .fault f) :
    f = .sourceNeverReplies ∧ SourceReply.never ∈ s.source.replies := by
  by_cases hm : SourceReply.never ∈ s.source.replies
  · obtain ⟨good, rest, hr, hgood⟩ := List.eq_append_cons_of_mem hm
    have hlimits := exec_of_stall hi h hgood hr
    rw [hf] at hlimits
    exact ⟨hlimits.eq_of_fault, hm⟩
  · obtain ⟨t, ht, -⟩ :=
      exec_sourceLimits (rest := []) hi h ⟨hm, fun _ => rfl⟩ (Nat.le_add_right _ _)
    rw [hf] at ht
    cases ht

/-- The commands of neither unit always answer. -/
theorem unit_of_exec_eq_fault {f : Fault} (hf : exec i s = .fault f) :
    i.opcode / 16 = 1 ∨ i.opcode / 16 = 2 := by
  cases i with
  | nop => cases hf
  | rdreg n =>
    cases hn : csr s n with
    | none =>
      rw [exec_rdreg_unassigned hn] at hf
      cases hf
    | some v =>
      rw [exec_rdreg_assigned hn] at hf
      cases hf
  | fscale v range total =>
    by_cases hd : FscaleDomain s.cfg v range total
    · rw [exec_fscale_inDomain hd] at hf
      cases hf
    · rw [exec_fscale_outOfDomain hd] at hf
      cases hf
  | encStart | encPut | encFinish => exact .inl (by simp [Instr.opcode])
  | decStart | decScale | decNarrow => exact .inr (by simp [Instr.opcode])

/-! ### A stall at the first call -/

theorem fillWindow_of_stalled {c : Config} {d : DecPath} {m : Nat} (hm : 0 < m)
    (h : nextBit c d = .stuck .sourceNeverReplies) :
    fillWindow c m d = .stuck .sourceNeverReplies := by
  obtain ⟨m, rfl⟩ := Nat.exists_eq_succ_of_ne_zero hm.ne'
  simp only [fillWindow, shiftWindow, h, andThen_stuck]

theorem exec_decStart_of_stalled {rest : List SourceReply}
    (hr : s.source.replies = .never :: rest) : exec .decStart s = .fault .sourceNeverReplies := by
  have hbits : 0 < s.cfg.rangeBits := by
    have := s.cfg.freq_le_range
    omega
  have hstuck : nextBit s.cfg ⟨Dec.cleared s.cfg s.dec, s.source⟩ = .stuck .sourceNeverReplies :=
    nextBit_eq_stuck_iff.2 ⟨rfl, rfl, rest, hr⟩
  rw [exec_decStart, decOpenStream, decPath_reg, decPath_source, fillWindow_of_stalled hbits hstuck]
  rfl

theorem exec_encFinish_of_full (ha : s.enc.phase = .active) (hl : s.enc.lower = 0)
    (hu : s.enc.upper = s.cfg.rangeMax) (hp : s.enc.pending = 0) (hf : 0 < s.enc.fill)
    (hr : s.sink.room = some 0) : exec .encFinish s = .fault .sinkNeverAccepts := by
  have hfinal : encFinalBits s.cfg s.encPath = .done () s.encPath := by
    simp [encFinalBits, hl, hu, hp]
  have hflush : encFlush s.encPath = .stuck .sinkNeverAccepts := encFlush_eq_stuck_iff.2 ⟨hf, hr⟩
  rw [exec_encFinish_runs (openStreamCheck_eq_none.2 (.inl ha)), encFinishStream, hfinal, andThen_done,
    hflush]
  rfl

/-- Settles O15: each unit's command beside a completing port and beside one that stalls. -/
theorem stalledPortsHaveNoStep : Obligations.StalledPortsHaveNoStep := by
  refine ⟨fun i s f h hf => ?_, fun i s r h hi hr => exec_of_room hi h.enc hr,
    fun i s good rest h hi hgood hr => exec_of_stall hi h.dec hgood hr,
    fun s rest hr => exec_decStart_of_stalled hr,
    fun s ha hl hu hp hf hr => exec_encFinish_of_full ha hl hu hp hf hr⟩
  rcases unit_of_exec_eq_fault hf with hi | hi
  · obtain ⟨hfault, hroom⟩ := sinkNeverAccepts_of_exec_eq_fault hi h.enc hf
    exact .inl ⟨hfault, hi, hroom⟩
  · obtain ⟨hfault, hnever⟩ := sourceNeverReplies_of_exec_eq_fault hi h.dec hf
    exact .inr ⟨hfault, hi, hnever⟩

end

end Sys2Proof.Machine
end

section
/-!
The fields of a packet as quotients and remainders of its value (`30_encoding.md` rules R70 and R71), and
the decoder beside the encoder (rules R73 to R77).
-/
namespace Sys2Proof

/-! ### The fields of a packet -/

theorem packetOp_eq (p : Packet) : packetOp p = p.toNat % 2 ^ 8 := by
  simp [packetOp]

theorem packetRsv_eq (p : Packet) : packetRsv p = p.toNat / 2 ^ 8 % 2 ^ 56 := by
  simp [packetRsv, Nat.shiftRight_eq_div_pow]

theorem packetA_eq (p : Packet) : packetA p = p.toNat / 2 ^ 64 % 2 ^ 64 := by
  simp [packetA, Nat.shiftRight_eq_div_pow]

theorem packetB_eq (p : Packet) : packetB p = p.toNat / 2 ^ 128 % 2 ^ 64 := by
  simp [packetB, Nat.shiftRight_eq_div_pow]

/-- C is the top field: nothing stands above it. -/
theorem packetC_eq (p : Packet) : packetC p = p.toNat / 2 ^ 192 := by
  have hp := p.isLt
  simp only [packetC, BitVec.extractLsb'_toNat, Nat.shiftRight_eq_div_pow]
  omega

theorem packetA_lt (p : Packet) : packetA p < 2 ^ 64 := (p.extractLsb' 64 64).isLt

theorem packetB_lt (p : Packet) : packetB p < 2 ^ 64 := (p.extractLsb' 128 64).isLt

theorem packetC_lt (p : Packet) : packetC p < 2 ^ 64 := (p.extractLsb' 192 64).isLt

/-- W0 holds OP below RSV. -/
theorem toNat_mod_two_pow_64 (p : Packet) : p.toNat % 2 ^ 64 = packetOp p + 2 ^ 8 * packetRsv p := by
  rw [packetOp_eq, packetRsv_eq]
  omega

/-! ### Packets made of parts -/

theorem toNat_append_eq {m n : Nat} (x : BitVec m) (y : BitVec n) :
    (x ++ y).toNat = x.toNat * 2 ^ n + y.toNat := by
  rw [BitVec.toNat_append, ← Nat.shiftLeft_add_eq_or_of_lt y.isLt, Nat.shiftLeft_eq]

theorem toNat_packetOfWords (w0 w1 w2 w3 : Word) :
    (packetOfWords w0 w1 w2 w3).toNat =
      w0.toNat + 2 ^ 64 * w1.toNat + 2 ^ 128 * w2.toNat + 2 ^ 192 * w3.toNat := by
  simp only [packetOfWords, toNat_append_eq]
  omega

/-- The encoder's packet in the four words of rule R71. -/
theorem packetOfFields_eq_packetOfWords (op a b c : Nat) :
    packetOfFields op a b c =
      packetOfWords (BitVec.ofNat 64 (op % 2 ^ 8)) (BitVec.ofNat 64 a) (BitVec.ofNat 64 b)
        (BitVec.ofNat 64 c) := by
  apply BitVec.eq_of_toNat_eq
  rw [toNat_packetOfWords]
  simp only [packetOfFields, toNat_append_eq, BitVec.toNat_ofNat]
  omega

/-! ### The decoder -/

theorem decode_of_rsv_ne_zero {p : Packet} (h : packetRsv p ≠ 0) :
    decode p = .error (.reservedField (packetRsv p)) := if_pos h

theorem decode_of_rsv_eq_zero {p : Packet} (h : packetRsv p = 0) :
    decode p = commandOf (packetOp p) (packetA p) (packetB p) (packetC p) := if_neg (not_not.2 h)

/-- A packet whose W0 is an OP with RSV 0 is looked up with its three other words. -/
theorem decode_packetOfWords {w0 : Word} (h : w0.toNat < 2 ^ 8) (w1 w2 w3 : Word) :
    decode (packetOfWords w0 w1 w2 w3) = commandOf w0.toNat w1.toNat w2.toNat w3.toNat := by
  have hp := toNat_packetOfWords w0 w1 w2 w3
  have h1 := w1.isLt
  have h2 := w2.isLt
  have h3 := w3.isLt
  have hrsv : packetRsv (packetOfWords w0 w1 w2 w3) = 0 := by
    rw [packetRsv_eq]
    omega
  have hop : packetOp (packetOfWords w0 w1 w2 w3) = w0.toNat := by
    rw [packetOp_eq]
    omega
  have ha : packetA (packetOfWords w0 w1 w2 w3) = w1.toNat := by
    rw [packetA_eq]
    omega
  have hb : packetB (packetOfWords w0 w1 w2 w3) = w2.toNat := by
    rw [packetB_eq]
    omega
  have hc : packetC (packetOfWords w0 w1 w2 w3) = w3.toNat := by
    rw [packetC_eq]
    omega
  rw [decode_of_rsv_eq_zero hrsv, hop, ha, hb, hc]

/-- Everything the look-up of OP can answer: the opcode's command, of which an ignored operand is no part
(written 0 by the assembler). -/
theorem commandOf_eq_ok {op a b c : Nat} {i : Instr} (h : commandOf op a b c = .ok i) :
    i.opcode = op ∧ (i.operands = (a, b, c) ∨ i.operands = (a, 0, 0) ∨ i.operands = (0, 0, 0)) := by
  unfold commandOf at h
  split at h <;> cases h <;> simp [Instr.opcode, Instr.operands]

/-! ### The round trips -/

theorem fitsOperand_iff {v : Nat} : fitsOperand v = true ↔ v < 2 ^ 64 := decide_eq_true_iff

/-- An operand that is not written is 0, which fits. -/
theorem wellFormed_iff (i : Instr) :
    i.wellFormed = true ↔
      i.operands.1 < 2 ^ 64 ∧ i.operands.2.1 < 2 ^ 64 ∧ i.operands.2.2 < 2 ^ 64 := by
  cases i <;> simp [Instr.wellFormed, Instr.operands, fitsOperand_iff, and_assoc]

theorem opcode_lt (i : Instr) : i.opcode < 2 ^ 8 := by
  cases i <;> simp [Instr.opcode]

/-- A command is its opcode with its operands. -/
theorem commandOf_opcode_operands (i : Instr) :
    commandOf i.opcode i.operands.1 i.operands.2.1 i.operands.2.2 = .ok i := by
  cases i <;> rfl

/-- Settles O5: the packet's words are the opcode and the operands, which no word cuts. -/
theorem decodeEncodeRoundTrip : Obligations.DecodeEncodeRoundTrip := by
  intro i hi
  obtain ⟨ha, hb, hc⟩ := (wellFormed_iff i).1 hi
  have hop := opcode_lt i
  have hword : i.opcode % 2 ^ 8 % 2 ^ 64 = i.opcode := by omega
  rw [encode, packetOfFields_eq_packetOfWords, decode_packetOfWords]
  · simp only [BitVec.toNat_ofNat, hword, Nat.mod_eq_of_lt ha, Nat.mod_eq_of_lt hb, Nat.mod_eq_of_lt hc,
      commandOf_opcode_operands]
  · simpa only [BitVec.toNat_ofNat, hword] using hop

/-- Settles O4, row by row of rule R74's table: W0 is below 2^8, so the look-up of OP answers. -/
theorem commandsReadTheirOperandsOnly : Obligations.CommandsReadTheirOperandsOnly := by
  intro a b c
  refine ⟨?_, ?_, ?_, ?_, ?_, ?_, ?_, ?_, ?_⟩ <;> exact decode_packetOfWords (by decide) a b c

/-- A packet that decodes has RSV 0, and its OP and operands are looked up. -/
theorem decode_eq_ok {p : Packet} {i : Instr} (h : decode p = .ok i) :
    packetRsv p = 0 ∧ commandOf (packetOp p) (packetA p) (packetB p) (packetC p) = .ok i := by
  by_cases hr : packetRsv p = 0
  · exact ⟨hr, decode_of_rsv_eq_zero hr ▸ h⟩
  · rw [decode_of_rsv_ne_zero hr] at h
    cases h

theorem wellFormed_of_decode_eq_ok {p : Packet} {i : Instr} (h : decode p = .ok i) :
    i.wellFormed = true := by
  rw [wellFormed_iff]
  rcases (commandOf_eq_ok (decode_eq_ok h).2).2 with hi | hi | hi
  · rw [hi]
    exact ⟨packetA_lt p, packetB_lt p, packetC_lt p⟩
  · rw [hi]
    exact ⟨packetA_lt p, Nat.two_pow_pos 64, Nat.two_pow_pos 64⟩
  · rw [hi]
    decide

theorem packetRsv_encode (i : Instr) : packetRsv (encode i) = 0 :=
  Laws.PacketFields.packetRsv_packetOfFields _ _ _ _

theorem packetOp_encode (i : Instr) : packetOp (encode i) = i.opcode :=
  (Laws.PacketFields.packetOp_packetOfFields _ _ _ _).trans (Nat.mod_eq_of_lt (opcode_lt i))

/-- Settles O6: the operands are fields of 64 bits, both packets have the command's OP and RSV 0, and a
well-formed command comes back from its packet. -/
theorem decodedCommandsAreWellFormed : Obligations.DecodedCommandsAreWellFormed := by
  intro p i h
  have hwf := wellFormed_of_decode_eq_ok h
  obtain ⟨hrsv, hi⟩ := decode_eq_ok h
  refine ⟨hwf, ?_, decodeEncodeRoundTrip i hwf⟩
  rw [toNat_mod_two_pow_64, toNat_mod_two_pow_64, packetRsv_encode, packetOp_encode, hrsv,
    (commandOf_eq_ok hi).1]

end Sys2Proof

namespace Sys2Proof.Machine

/-! ### The step on a packet -/

variable {s : State} {p : Packet} {rest : List HostEvent}

theorem step_illegalPacket {e : DecodeError} (h : s.inbox = .command p :: rest)
    (hp : decode p = .error e) :
    step s = .next (State.illegalPacket { s with inbox := rest }) := by
  simp only [step, h, hp]

/-- Settles O3: RSV first, then the look-up of OP, each answer of which is a branch of the statement. -/
theorem everyPacketIsDecodedByItsFields : Obligations.EveryPacketIsDecodedByItsFields := by
  intro s p rest h
  simp only [← packetOp_eq, ← packetRsv_eq, ← packetA_eq, ← packetB_eq, ← packetC_eq]
  by_cases hr : packetRsv p = 0
  · rw [if_neg (not_not.2 hr)]
    have hp := decode_of_rsv_eq_zero hr
    generalize packetOp p = op at hp ⊢
    unfold commandOf at hp
    split at hp
    case h_10 =>
      -- `op` differs from the nine opcodes, so the statement's chain ends in its last branch
      rw [step_illegalPacket h hp]
      simp_all [State.illegalPacket, State.respond]
    all_goals exact step_command h hp
  · rw [if_pos hr]
    exact step_illegalPacket h (decode_of_rsv_ne_zero hr)

end Sys2Proof.Machine
end

section
/-!
The one response of a command and its layout (`30_encoding.md` rule R79, `60_exceptions.md` rule R171).
-/
namespace Sys2Proof.Machine

variable {s t : State}

/-! ### What a command answers -/

/-- One response was appended, with VALUE 0. -/
def AnswersZero (s t : State) : Prop := ∃ k, t.responses = s.responses ++ [⟨k, 0⟩]

/-- One response was appended, with VALUE 0 where its CODE is an error. -/
def AnswersValue (s t : State) : Prop :=
  ∃ r, t.responses = s.responses ++ [r] ∧ (r.code ≠ .ok → r.value = 0)

theorem answersZero_endEnc {r : Run EncPath Unit} (h : s.endEnc r = .next t) : AnswersZero s t := by
  rcases endEnc_eq_next h with ⟨e, -, rfl⟩ | ⟨f, e, -, rfl⟩
  · exact ⟨.ok, rfl⟩
  · exact ⟨f.toCode, rfl⟩

theorem answersZero_endDec {r : Run DecPath Unit} (h : s.endDec r = .next t) : AnswersZero s t := by
  rcases endDec_eq_next h with ⟨d, -, rfl⟩ | ⟨f, d, -, rfl⟩
  · exact ⟨.ok, rfl⟩
  · exact ⟨f.toCode, rfl⟩

theorem answersValue_respond {k : Code} {v : Nat} (hv : k ≠ .ok → v = 0) :
    AnswersValue s (s.respond k v) :=
  ⟨_, rfl, fun hk => congrArg (BitVec.ofNat 64) (hv hk)⟩

theorem exec_decScale_answersValue {total : Nat} (h : exec (.decScale total) s = .next t) :
    AnswersValue s t := by
  rcases exec_decScale_eq_next h with ⟨k, rfl⟩ | rfl | ⟨-, -, rfl⟩
  · exact answersValue_respond fun _ => rfl
  · exact ⟨_, rfl, fun _ => rfl⟩
  · exact ⟨_, rfl, fun hk => absurd rfl hk⟩

/-- RDREG, DEC.SCALE and FSCALE answer a value; every other command answers VALUE 0. -/
theorem exec_answers {i : Instr} (h : exec i s = .next t) :
    AnswersZero s t ∨
    ((i.opcode = 0x01 ∨ i.opcode = 0x21 ∨ i.opcode = 0x30) ∧ AnswersValue s t) := by
  cases i with
  | nop =>
    cases h
    exact .inl ⟨.ok, rfl⟩
  | rdreg n =>
    obtain ⟨k, v, rfl, hv⟩ := exec_rdreg_eq_next h
    exact .inr ⟨.inl rfl, answersValue_respond hv⟩
  | encStart =>
    rw [exec_encStart] at h
    cases h
    exact .inl ⟨.ok, rfl⟩
  | encPut pl pu pt =>
    rcases exec_encPut_eq_next h with ⟨k, rfl⟩ | rfl | ⟨-, -, h⟩
    · exact .inl ⟨k, rfl⟩
    · exact .inl ⟨.emodel, rfl⟩
    · exact .inl (answersZero_endEnc h)
  | encFinish =>
    rcases exec_encFinish_eq_next h with ⟨k, rfl⟩ | ⟨-, h⟩
    · exact .inl ⟨k, rfl⟩
    · exact .inl (answersZero_endEnc h)
  | decStart => exact .inl (answersZero_endDec h)
  | decScale total => exact .inr ⟨.inr (.inl rfl), exec_decScale_answersValue h⟩
  | decNarrow pl pu pt =>
    rcases exec_decNarrow_eq_next h with ⟨k, rfl⟩ | rfl | ⟨-, -, h⟩
    · exact .inl ⟨k, rfl⟩
    · exact .inl ⟨.emodel, rfl⟩
    · exact .inl (answersZero_endDec h)
  | fscale v range total =>
    obtain ⟨k, v, rfl, hv⟩ := exec_fscale_eq_next h
    exact .inr ⟨.inr (.inr rfl), answersValue_respond hv⟩

/-! ### The layout of a response -/

theorem Code.toNat_lt (k : Code) : k.toNat < 2 ^ 8 := by cases k <;> decide

/-- VALUE stands above the 8 bits of CODE. -/
theorem toNat_responseBits (r : Response) : r.bits.toNat = r.code.toNat + 2 ^ 8 * r.value.toNat := by
  have hk := r.code.toNat_lt
  simp only [Response.bits, toNat_append_eq, BitVec.toNat_ofNat]
  omega

/-- Settles O17, by what each command answers and the layout of the 72 bits. -/
theorem everyCommandGivesOneResponse : Obligations.EveryCommandGivesOneResponse := by
  refine ⟨fun i s t h => ?_, toNat_responseBits, by decide⟩
  rcases exec_answers h with ⟨k, hk⟩ | ⟨hi, r, hr, hv⟩
  · exact ⟨_, hk, fun _ => rfl, fun _ _ _ => rfl⟩
  · refine ⟨r, hr, hv, fun hrdreg hscale hfscale => ?_⟩
    rcases hi with hi | hi | hi
    · exact absurd hi hrdreg
    · exact absurd hi hscale
    · exact absurd hi hfscale

end Sys2Proof.Machine
end

section
/-!
The assembler on the lines rule R80 of `30_encoding.md` writes: numbers are read back from their digits,
and a mnemonic with operands after it is taken apart into just these texts.
-/
namespace Sys2Proof.Machine

/-! ### Numbers -/

theorem exists_digitChar_of_mem_toDigits {b n : Nat} {c : Char} (hb : 1 < b) (hc : c ∈ Nat.toDigits b n) :
    ∃ d < b, c = Nat.digitChar d := by
  induction n using Nat.strong_induction_on with
  | _ n ih =>
    by_cases hn : n < b
    · rw [Nat.toDigits_of_lt_base hn, List.mem_singleton] at hc
      exact ⟨n, hn, hc⟩
    · rw [Nat.toDigits_of_base_le hb (not_lt.1 hn), List.mem_append, List.mem_singleton] at hc
      rcases hc with hc | hc
      · exact ih _ (Nat.div_lt_self (by omega) hb) hc
      · exact ⟨n % b, Nat.mod_lt _ (by omega), hc⟩

/-- The digits of `n` are read back as `n`, in a base whose digits are read back one by one. -/
theorem readDigits_toDigits {b : Nat} (hb : 1 < b)
    (hdigit : ∀ d < b, digitValue b (Nat.digitChar d) = some d) (n : Nat) :
    readDigits b 0 (Nat.toDigits b n) = some n := by
  induction n using Nat.strong_induction_on with
  | _ n ih =>
    by_cases hn : n < b
    · simp [Nat.toDigits_of_lt_base hn, readDigits, hdigit n hn]
    · have hlast := hdigit (n % b) (Nat.mod_lt _ (by omega))
      rw [Nat.toDigits_of_base_le hb (not_lt.1 hn), readDigits_append,
        ih _ (Nat.div_lt_self (by omega) hb)]
      simp [readDigits, hlast, Nat.div_add_mod]

theorem readNumber_hexadecimal (n : Nat) : readNumber ('0' :: 'x' :: Nat.toDigits 16 n) = some n := by
  simp only [readNumber, if_neg Nat.toDigits_ne_nil]
  exact readDigits_toDigits (by decide) digitValue_digitChar.2 n

/-- A text without `x` is no hexadecimal number. -/
theorem readNumber_of_notMem_x {text : List Char} (hne : text ≠ []) (hx : 'x' ∉ text) :
    readNumber text = readDigits 10 0 text := by
  unfold readNumber
  split
  · exact absurd rfl hne
  · simp at hx
  · rfl

theorem readNumber_decimal (n : Nat) : readNumber (Nat.toDigits 10 n) = some n := by
  rw [readNumber_of_notMem_x Nat.toDigits_ne_nil, readDigits_toDigits (by decide) digitValue_digitChar.1]
  intro hx
  obtain ⟨d, hd, hc⟩ := exists_digitChar_of_mem_toDigits (by decide) hx
  obtain ⟨-, -, -, hne⟩ := digitChar_isPlain d (by omega)
  exact hne hc.symm

/-! ### Tokens -/

/-- A text that holds neither a blank nor a mark of the syntax: a mnemonic, a name or a number. -/
abbrev IsToken (text : List Char) : Prop :=
  text ≠ [] ∧ ∀ c ∈ text, isBlank c = false ∧ c ≠ ',' ∧ c ≠ ';'

theorem isToken_decimal (n : Nat) : IsToken (Nat.toDigits 10 n) := by
  refine ⟨Nat.toDigits_ne_nil, fun c hc => ?_⟩
  obtain ⟨d, hd, rfl⟩ := exists_digitChar_of_mem_toDigits (by decide) hc
  obtain ⟨hblank, hcomma, hcomment, -⟩ := digitChar_isPlain d (by omega)
  exact ⟨hblank, hcomma, hcomment⟩

theorem dropWhile_isBlank_token {x : List Char} (hx : IsToken x) (rest : List Char) :
    (x ++ rest).dropWhile isBlank = x ++ rest := by
  obtain ⟨hne, hplain⟩ := hx
  obtain ⟨c, x, rfl⟩ := List.exists_cons_of_ne_nil hne
  exact List.dropWhile_cons_of_neg (by simp [hplain c])

/-- A text that begins and ends with a token has no blanks around it. -/
theorem trimBlanks_of_tokens {text x y l r : List Char} (hx : IsToken x) (hy : IsToken y)
    (hl : text = x ++ r) (hr : text = l ++ y) : trimBlanks text = text := by
  have hy' : IsToken y.reverse := ⟨by simpa using hy.1, by simpa using hy.2⟩
  have hfront : text.dropWhile isBlank = text := by rw [hl, dropWhile_isBlank_token hx]
  have hback : text.reverse.dropWhile isBlank = text.reverse := by
    rw [hr, List.reverse_append, dropWhile_isBlank_token hy']
  rw [trimBlanks, hfront, hback, List.reverse_reverse]

theorem trimBlanks_space (text : List Char) : trimBlanks (' ' :: text) = trimBlanks text := rfl

theorem trimBlanks_space_token {x : List Char} (hx : IsToken x) : trimBlanks (' ' :: x) = x := by
  rw [trimBlanks_space, trimBlanks_of_tokens (l := []) hx hx (List.append_nil x).symm rfl]

/-! ### The operand field -/

/-- Operands after the first, each with the comma and the space before it. -/
def operandTail : List (List Char) → List Char
  | [] => []
  | y :: rest => ',' :: ' ' :: y ++ operandTail rest

/-- Operands as a line has them after its mnemonic: a space before each, a comma between two. -/
def operandField : List (List Char) → List Char
  | [] => []
  | x :: rest => ' ' :: x ++ operandTail rest

/-- Text without a comma goes to the first part. -/
theorem splitAtCommas_append {text rest part : List Char} {parts : List (List Char)}
    (h : ',' ∉ text) (hrest : splitAtCommas rest = part :: parts) :
    splitAtCommas (text ++ rest) = (text ++ part) :: parts := by
  induction text with
  | nil => exact hrest
  | cons c text ih =>
    rw [List.mem_cons, not_or] at h
    rw [List.cons_append, splitAtCommas, if_neg (Ne.symm h.1), ih h.2]
    rfl

theorem comma_notMem_space_token {x : List Char} (hx : IsToken x) : ',' ∉ ' ' :: x := by
  rw [List.mem_cons, not_or]
  exact ⟨by decide, fun hc => (hx.2 _ hc).2.1 rfl⟩

/-- The commas of a line stand between its operands only. -/
theorem splitAtCommas_operandTail {text : List Char} {operands : List (List Char)} (htext : ',' ∉ text)
    (h : ∀ y ∈ operands, IsToken y) :
    splitAtCommas (text ++ operandTail operands) = text :: operands.map (' ' :: ·) := by
  induction operands generalizing text with
  | nil => simpa [operandTail] using splitAtCommas_append htext (rest := []) rfl
  | cons y operands ih =>
    obtain ⟨hy, hrest⟩ := List.forall_mem_cons.1 h
    have hcomma : splitAtCommas (operandTail (y :: operands)) =
        [] :: (y :: operands).map (' ' :: ·) := by
      rw [operandTail, List.cons_append, splitAtCommas, if_pos rfl, ih (comma_notMem_space_token hy) hrest]
      rfl
    simpa using splitAtCommas_append htext hcomma

/-- A token with operands after it still ends with a token. -/
theorem exists_token_suffix_operandTail {x : List Char} {operands : List (List Char)} (hx : IsToken x)
    (h : ∀ y ∈ operands, IsToken y) : ∃ l y, IsToken y ∧ x ++ operandTail operands = l ++ y := by
  induction operands generalizing x with
  | nil => exact ⟨[], x, hx, List.append_nil x⟩
  | cons y operands ih =>
    obtain ⟨hy, hrest⟩ := List.forall_mem_cons.1 h
    obtain ⟨l, z, hz, heq⟩ := ih hy hrest
    exact ⟨x ++ ',' :: ' ' :: l, z, hz, by simp [operandTail, heq]⟩

theorem exists_token_suffix_operandField {x : List Char} {operands : List (List Char)} (hx : IsToken x)
    (h : ∀ y ∈ operands, IsToken y) : ∃ l y, IsToken y ∧ x ++ operandField operands = l ++ y := by
  cases operands with
  | nil => exact ⟨[], x, hx, List.append_nil x⟩
  | cons y operands =>
    obtain ⟨hy, hrest⟩ := List.forall_mem_cons.1 h
    obtain ⟨l, z, hz, heq⟩ := exists_token_suffix_operandTail hy hrest
    exact ⟨x ++ ' ' :: l, z, hz, by simp [operandField, heq]⟩

/-- The operand field is read as the operands written there. -/
theorem operandTexts_operandField {operands : List (List Char)} (h : ∀ y ∈ operands, IsToken y) :
    operandTexts (operandField operands) = operands := by
  cases operands with
  | nil => rfl
  | cons x operands =>
    obtain ⟨hx, hrest⟩ := List.forall_mem_cons.1 h
    obtain ⟨l, z, hz, heq⟩ := exists_token_suffix_operandTail hx hrest
    have htrim : trimBlanks (operandField (x :: operands)) = x ++ operandTail operands := by
      rw [operandField, List.cons_append, trimBlanks_space, trimBlanks_of_tokens hx hz rfl heq]
    have hne : x ++ operandTail operands ≠ [] := List.append_ne_nil_of_left_ne_nil hx.1 _
    have hparts : splitAtCommas (operandField (x :: operands)) = (x :: operands).map (' ' :: ·) :=
      splitAtCommas_operandTail (comma_notMem_space_token hx) hrest
    rw [operandTexts, htrim, if_neg hne, hparts, List.map_map]
    exact (List.map_congr_left fun y hy => trimBlanks_space_token (h y hy)).trans (List.map_id _)

/-! ### Lines -/

theorem comment_notMem_operandTail {operands : List (List Char)} (h : ∀ y ∈ operands, IsToken y) :
    ';' ∉ operandTail operands := by
  induction operands with
  | nil => exact List.not_mem_nil
  | cons y operands ih =>
    obtain ⟨hy, hrest⟩ := List.forall_mem_cons.1 h
    simpa [operandTail, ih hrest] using fun hc => (hy.2 _ hc).2.2 rfl

theorem comment_notMem_operandField {operands : List (List Char)} (h : ∀ y ∈ operands, IsToken y) :
    ';' ∉ operandField operands := by
  cases operands with
  | nil => exact List.not_mem_nil
  | cons y operands =>
    obtain ⟨hy, hrest⟩ := List.forall_mem_cons.1 h
    simpa [operandField, comment_notMem_operandTail hrest] using fun hc => (hy.2 _ hc).2.2 rfl

theorem stripComment_of_notMem {line : List Char} (h : ';' ∉ line) : stripComment line = line :=
  List.takeWhile_eq_self_iff.2 fun c hc => by
    simpa using fun heq : c = ';' => h (heq ▸ hc)

/-- The mnemonic ends at the first blank, or with the line. -/
theorem takeWhile_operandField (operands : List (List Char)) :
    (operandField operands).takeWhile (fun c => !isBlank c) = [] := by
  cases operands <;> rfl

/-- A line of a mnemonic and operands is taken apart into these. -/
theorem assembleLine_append {mnemonic : List Char} {operands : List (List Char)}
    (hm : IsToken mnemonic) (h : ∀ y ∈ operands, IsToken y) :
    assembleLine (mnemonic ++ operandField operands) =
      (commandOfText mnemonic operands).filter Instr.wellFormed := by
  obtain ⟨l, z, hz, heq⟩ := exists_token_suffix_operandField hm h
  have hcomment : ';' ∉ mnemonic ++ operandField operands := by
    rw [List.mem_append, not_or]
    exact ⟨fun hc => (hm.2 _ hc).2.2 rfl, comment_notMem_operandField h⟩
  have hmnemonic : (mnemonic ++ operandField operands).takeWhile (fun c => !isBlank c) = mnemonic := by
    rw [List.takeWhile_append_of_pos fun c hc => by simp [hm.2 c hc], takeWhile_operandField,
      List.append_nil]
  simp only [assembleLine, stripComment_of_notMem hcomment, trimBlanks_of_tokens hm hz rfl heq, hmnemonic,
    List.drop_left, operandTexts_operandField h]

/-! ### The lines of the nine commands -/

/-- The mnemonics of rule R75. -/
def mnemonic : Instr → String
  | .nop => "NOP"
  | .rdreg _ => "RDREG"
  | .encStart => "ENC.START"
  | .encPut _ _ _ => "ENC.PUT"
  | .encFinish => "ENC.FINISH"
  | .decStart => "DEC.START"
  | .decScale _ => "DEC.SCALE"
  | .decNarrow _ _ _ => "DEC.NARROW"
  | .fscale _ _ _ => "FSCALE"

/-- The operands that rule R80's form of a line writes. -/
def writtenOperands : Instr → List Nat
  | .nop | .encStart | .encFinish | .decStart => []
  | .rdreg n => [n]
  | .decScale total => [total]
  | .encPut pl pu pt => [pl, pu, pt]
  | .decNarrow pl pu pt => [pl, pu, pt]
  | .fscale v range total => [v, range, total]

theorem isToken_mnemonic (i : Instr) : IsToken (mnemonic i).toList := by
  cases i <;> simp [mnemonic, IsToken, isBlank]

theorem operandField_singleton (x : List Char) : operandField [x] = ' ' :: x := by
  simp [operandField, operandTail]

theorem operandField_decimals (a b c : Nat) :
    operandField [Nat.toDigits 10 a, Nat.toDigits 10 b, Nat.toDigits 10 c] =
      ' ' :: operandListText a b c := by
  simp [operandListText, operandField, operandTail]

/-- A line is the mnemonic and the operands in decimal. -/
theorem assemblyText_eq (i : Instr) :
    assemblyText i =
      (mnemonic i).toList ++ operandField ((writtenOperands i).map (Nat.toDigits 10)) := by
  cases i with
  | nop => rfl
  | rdreg n => exact congrArg ("RDREG".toList ++ ·) (operandField_singleton _).symm
  | encStart => rfl
  | encPut pl pu pt => exact congrArg ("ENC.PUT".toList ++ ·) (operandField_decimals pl pu pt).symm
  | encFinish => rfl
  | decStart => rfl
  | decScale total => exact congrArg ("DEC.SCALE".toList ++ ·) (operandField_singleton _).symm
  | decNarrow pl pu pt =>
    exact congrArg ("DEC.NARROW".toList ++ ·) (operandField_decimals pl pu pt).symm
  | fscale v range total =>
    exact congrArg ("FSCALE".toList ++ ·) (operandField_decimals v range total).symm

/-- A decimal number has no underscore, and every register's name has one. -/
theorem readRegister_decimal (n : Nat) : readRegister (Nat.toDigits 10 n) = some n := by
  have hname : ∀ x ∈ registerNames, '_' ∈ x.1 := by simp [registerNames]
  have hdigit : ∀ d < 16, Nat.digitChar d ≠ '_' := by decide
  have hlookup : registerNames.lookup (Nat.toDigits 10 n) = none := by
    refine List.lookup_eq_none_iff.2 fun x hx => bne_iff_ne.2 fun heq => ?_
    obtain ⟨d, hd, hc⟩ := exists_digitChar_of_mem_toDigits (by decide) (heq ▸ hname x hx)
    exact hdigit d (by omega) hc.symm
  rw [readRegister, hlookup]
  exact readNumber_decimal n

theorem commandOfText_written (i : Instr) :
    commandOfText (mnemonic i).toList ((writtenOperands i).map (Nat.toDigits 10)) = some i := by
  cases i <;> simp [commandOfText, mnemonic, writtenOperands, readNumber_decimal, readRegister_decimal]

theorem assembleLine_assemblyText (i : Instr) :
    assembleLine (assemblyText i) = if i.wellFormed = true then some i else none := by
  have htokens : ∀ y ∈ (writtenOperands i).map (Nat.toDigits 10), IsToken y :=
    List.forall_mem_map.2 fun n _ => isToken_decimal n
  rw [assemblyText_eq, assembleLine_append (isToken_mnemonic i) htokens, commandOfText_written,
    Option.filter_some]

/-! ### Comments and register names -/

theorem assembleLine_comment (line comment : List Char) :
    assembleLine (line ++ ';' :: comment) = assembleLine line := by
  simp only [assembleLine, stripComment_append_comment]

theorem isToken_of_mem_registerNames : ∀ x ∈ registerNames, IsToken x.1 := by
  simp [registerNames, IsToken, isBlank]

/-- Each name is found in the map, and its number fits an operand. -/
theorem readRegister_of_mem_registerNames : ∀ x ∈ registerNames,
    readRegister x.1 = some x.2 ∧ x.2 < 2 ^ 64 := by decide

/-- The names stand for the assigned numbers of rule R40's map, and no others. -/
theorem registerNames_numbers (s : State) :
    registerNames.map Prod.snd = (registerMap s).map Prod.fst := rfl

theorem csr_ne_none_of_mem_registerNames (s : State) {name : List Char} {n : Nat}
    (h : (name, n) ∈ registerNames) : csr s n ≠ none := by
  have hn : n ∈ (registerMap s).map Prod.fst := registerNames_numbers s ▸ List.mem_map_of_mem h
  obtain ⟨⟨n, v⟩, hx, rfl⟩ := List.mem_map.1 hn
  simp [csr_of_mem_registerMap s _ hx]

theorem assembleLine_rdreg_name {name : List Char} {n : Nat} (h : (name, n) ∈ registerNames) :
    assembleLine ("RDREG ".toList ++ name) = some (.rdreg n) := by
  have htoken : ∀ y ∈ [name], IsToken y :=
    List.forall_mem_singleton.2 (isToken_of_mem_registerNames _ h)
  obtain ⟨hread, hfits⟩ : readRegister name = some n ∧ n < 2 ^ 64 :=
    readRegister_of_mem_registerNames _ h
  have hwf : (Instr.rdreg n).wellFormed = true := fitsOperand_iff.2 hfits
  have hline : "RDREG ".toList ++ name = (mnemonic (.rdreg n)).toList ++ operandField [name] :=
    congrArg ("RDREG".toList ++ ·) (operandField_singleton name).symm
  rw [hline, assembleLine_append (isToken_mnemonic (.rdreg n)) htoken]
  simp [commandOfText, mnemonic, hread, hwf]

/-- Settles O58, clause by clause. -/
theorem assemblyFollowsItsSyntax : Obligations.AssemblyFollowsItsSyntax :=
  ⟨assembleLine_assemblyText, assembleLine_comment, readNumber_hexadecimal,
    fun s _ _ h => ⟨assembleLine_rdreg_name h, csr_ne_none_of_mem_registerNames s h⟩,
    fun _ _ h => (assembleLine_eq_some h).2⟩

/-- Settles O2: the lines and the encoder's packets are computed, and each packet decodes because its
command comes back from it (O5). -/
theorem encodingExamplesDecodeAndEncode : Obligations.EncodingExamplesDecodeAndEncode := by
  intro x hx
  have hrow : assembleLine x.1.toList = some x.2.2 ∧ encode x.2.2 = x.2.1 := by
    revert x hx
    decide
  obtain ⟨hline, hpacket⟩ := hrow
  have hwf := (assembleLine_eq_some hline).2
  exact ⟨hline, hpacket, hpacket ▸ decodeEncodeRoundTrip x.2.2 hwf⟩

end Sys2Proof.Machine
end

section
/-!
The interval primitives: when each renormalization case is chosen, and the bounds Narrow gives
(`40_interval.md` rules R101 to R104, R106 and R109).
-/
namespace Sys2Proof.Machine

variable {c : Config} {l u r pl pu pt : Nat}

/-! ### The choice of a case -/

theorem classify_eq_e1_iff : classify c l u = some .e1 ↔ u ≤ c.half := by
  rcases classify_cases c l u with ⟨e, h⟩ | ⟨e, h, -⟩ | ⟨e, h, -⟩ | ⟨e, h, -⟩ <;> simp [e, h]

theorem classify_eq_e2_iff : classify c l u = some .e2 ↔ c.half < u ∧ c.half ≤ l := by
  rcases classify_cases c l u with ⟨e, h⟩ | ⟨e, h, hl⟩ | ⟨e, -, hl, -⟩ | ⟨e, -, hl, -⟩
  · simp [e, h]
  · simp [e, h, hl]
  all_goals simp [e, hl]

theorem classify_eq_e3_iff : classify c l u = some .e3 ↔
    c.half < u ∧ l < c.half ∧ c.quarter ≤ l ∧ u ≤ c.threeQuarters := by
  rcases classify_cases c l u with ⟨e, h⟩ | ⟨e, -, hl⟩ | ⟨e, h⟩ | ⟨e, -, -, h⟩
  · simp [e, h]
  · simp [e, hl]
  · simp [e, h]
  · simp only [e, reduceCtorEq, false_iff]
    omega

theorem classify_eq_none_iff : classify c l u = none ↔
    c.half < u ∧ l < c.half ∧ (l < c.quarter ∨ c.threeQuarters < u) := by
  rcases classify_cases c l u with ⟨e, h⟩ | ⟨e, -, hl⟩ | ⟨e, -, -, h⟩ | ⟨e, h⟩
  · simp [e, h]
  · simp [e, hl]
  · simp only [e, reduceCtorEq, false_iff]
    omega
  · simp [e, h]

/-- Settles O33, case by case; HALF, QUARTER and the maps are the model's own by definition. -/
theorem renormalizationCasesAndMaps : Obligations.RenormalizationCasesAndMaps :=
  ⟨fun _ _ _ => ⟨classify_eq_e1_iff, classify_eq_e2_iff, classify_eq_e3_iff, classify_eq_none_iff,
    fun _ => ⟨rfl, rfl, rfl⟩⟩, by decide⟩

/-- Settles O36: STOP leaves an interval from below HALF to above it which also reaches out of the
middle half. -/
theorem stopMeansAWideInterval : Obligations.StopMeansAWideInterval := by
  intro c l u h
  have h2 := c.half_eq_two_quarters
  have h3 := c.threeQuarters_eq
  obtain ⟨hu, hl, hor⟩ := classify_eq_none_iff.1 h
  exact ⟨⟨hl, hu⟩, hor, by omega, fun hmax => (Nat.sub_le u l).trans hmax⟩

/-! ### Narrow -/

theorem upper_eq_of_intervalOk (h : IntervalOk c l u r) : u = l + r := by
  obtain ⟨hl, hu, -, hr, -⟩ := h
  omega

/-- A legal total is below the range wherever a unit narrows (rule R109). -/
theorem total_lt_range (h : IntervalOk c l u r) (hp : ProbOk c pl pu pt) : pt < r := by
  obtain ⟨-, -, hmax⟩ := hp
  exact hmax.trans_lt (freqMax_lt_range h)

/-- A step of one in the numerator moves the bound, because the range is no less than the total. -/
theorem narrowed_eq_zero_iff {x t : Nat} (ht : 0 < t) (htr : t ≤ r) : r * x / t = 0 ↔ x = 0 := by
  rw [Nat.div_eq_zero_iff_lt ht]
  constructor
  · intro h
    by_contra hx
    have : r ≤ r * x := Nat.le_mul_of_pos_right r (Nat.pos_of_ne_zero hx)
    omega
  · rintro rfl
    simpa using ht

/-- Only the whole of the total takes the whole range. -/
theorem narrowed_eq_range_iff {x t : Nat} (ht : 0 < t) (hr : 0 < r) (hx : x ≤ t) :
    r * x / t = r ↔ x = t := by
  constructor
  · intro h
    by_contra hne
    have hlt : r * x < r * t := Nat.mul_lt_mul_of_pos_left (lt_of_le_of_ne hx hne) hr
    rw [← Nat.div_lt_iff_lt_mul ht, h] at hlt
    exact lt_irrefl r hlt
  · rintro rfl
    exact Nat.mul_div_cancel r ht

/-- Settles O32: the bounds are `narrow_bounds`, and each end is met exactly where its share of the
range is 0 or the whole. -/
theorem narrowedIntervalStaysInside : Obligations.NarrowedIntervalStaysInside := by
  intro c l u r pl pu pt hi hp nl nu
  obtain ⟨hlt, hle⟩ := narrow_bounds hi hp
  have hr := total_lt_range hi hp
  have hu := upper_eq_of_intervalOk hi
  obtain ⟨hlu, hut, -⟩ := hp
  have ht : 0 < pt := by omega
  have hnl : nl = l ↔ pl = 0 := by
    rw [← narrowed_eq_zero_iff ht hr.le]
    exact Nat.add_eq_left
  have hnu : nu = u ↔ pu = pt := by
    rw [← narrowed_eq_range_iff ht (ht.trans hr) hut, hu]
    exact Nat.add_left_cancel_iff
  exact ⟨⟨Nat.le_add_right _ _, hlt, hle, Nat.sub_pos_of_lt hlt⟩, hnl, hnu,
    fun h0 hpt => ⟨hnl.2 h0, hnu.2 hpt⟩⟩

/-- Narrow's products fit `RANGE_BITS + FREQ_BITS` bits (rule R104). -/
theorem range_mul_lt {x : Nat} (hr : r ≤ c.rangeMax) (hx : x ≤ c.freqMax) :
    r * x < 2 ^ (c.rangeBits + c.freqBits) := by
  have hf := c.succ_freqMax
  calc r * x ≤ c.rangeMax * x := Nat.mul_le_mul_right x hr
    _ < 2 ^ c.rangeBits * 2 ^ c.freqBits :=
      Nat.mul_lt_mul_of_pos_left (by omega) (Nat.two_pow_pos _)
    _ = 2 ^ (c.rangeBits + c.freqBits) := (pow_add _ _ _).symm

/-- Settles O34: the products by their factors, the bounds by `narrow_bounds` and by the window in which
a case is chosen. -/
theorem renormalizationNeverOverflows : Obligations.RenormalizationNeverOverflows := by
  refine ⟨fun c l u r pl pu pt hi hp => ?_, fun c l u k hlu hu hk => ?_⟩
  · obtain ⟨-, hle⟩ := narrow_bounds hi hp
    obtain ⟨-, -, hu, hr, -⟩ := hi
    obtain ⟨hlu, hut, hmax⟩ := hp
    have hrange : r ≤ c.rangeMax := by omega
    exact ⟨range_mul_lt hrange (by omega), range_mul_lt hrange (by omega), hle.trans hu⟩
  · obtain ⟨hoff, -⟩ := window_of_classify hlu hu hk
    obtain ⟨-, hle, hwidth⟩ := transform_of_classify hlu hu hk
    exact ⟨hoff, hle, Nat.pow_lt_pow_right (by decide) (Nat.lt_succ_self _), hwidth⟩

/-- Settles O37: `FREQ_BITS + 2 ≤ RANGE_BITS` puts every total below QUARTER, and the range of a legal
interval lies above QUARTER. -/
theorem totalsStayBelowTheRange : Obligations.TotalsStayBelowTheRange := by
  intro c
  refine ⟨?_, ?_, c.quarter_eq_pow.symm, fun l u r pl pu pt hi hp => ?_, fun l u r total hi ht => ?_⟩
  · rw [← c.succ_freqMax]
    exact Nat.lt_succ_self _
  · rw [← c.quarter_eq_pow]
    exact c.two_pow_freqBits_le_quarter
  · obtain ⟨hlt, -⟩ := narrow_bounds hi hp
    exact ⟨total_lt_range hi hp, hlt⟩
  · obtain ⟨-, hmax⟩ := ht
    exact hmax.trans_lt (freqMax_lt_range hi)

end Sys2Proof.Machine
end

section
/-!
The renormalization loop stops of itself: on an interval that is not empty only a port can keep it from
going on (`40_interval.md` rule R105).
-/
namespace Sys2Proof.Machine

variable {c : Config} {l u : Nat}

/-- The loop's fuel is enough on every interval that is not empty. -/
theorem converges_rangeBits (hlu : l < u) (hu : u ≤ c.rangeMax) :
    Converges c (c.rangeBits + 1) l u := by
  refine ⟨hlu, hu, ?_⟩
  calc c.rangeMax < 2 ^ (c.rangeBits + 1) := Nat.pow_lt_pow_right (by decide) (Nat.lt_succ_self _)
    _ ≤ (u - l) * 2 ^ (c.rangeBits + 1) := Nat.le_mul_of_pos_left _ (Nat.sub_pos_of_lt hlu)

section
variable {σ α : Type} {p : Stall σ} {I : σ → Prop} {m : Nat} {r r' : Run σ α} {f : Fault}

theorem Stall.Completes.ne_stuck (h : p.Completes I m r) : r ≠ .stuck f := by
  rintro rfl
  exact h

/-- A run that has no step on the port that stalls has been stopped by it. -/
theorem Stall.Limits.eq_fault (h : p.Limits I m r (.stuck f)) (hm : m ≤ p.bound) :
    f = p.fault := by
  obtain ⟨hc, ho⟩ := h
  have hout := ho hm
  cases r with
  | done a v =>
    rw [Stall.outcome] at hout
    split at hout
    · cases hout
    · cases hout
      rfl
  | raised g v =>
    rw [Stall.outcome] at hout
    split at hout
    · cases hout
    · cases hout
      rfl
  | stuck g => exact absurd hc id

end

/-- Only the Sink can keep ENC's loop from going on. -/
theorem encRenorm_eq_stuck {e : EncPath} {fuel : Nat} {f : Fault}
    (hc : Converges c fuel e.reg.lower e.reg.upper) (h : encRenorm c fuel e = .stuck f) :
    f = .sinkNeverAccepts := by
  obtain ⟨reg, units, room⟩ := e
  cases room with
  | none =>
    have hlimits := encRenorm_limits (n := 0) (e := ⟨reg, units, none⟩) ⟨rfl, rfl, rfl⟩ hc
    exact absurd h hlimits.completes.ne_stuck
  | some n =>
    have hlimits := encRenorm_limits (n := units.length + n) (e := ⟨reg, units, none⟩)
      ⟨rfl, rfl, rfl⟩ hc
    have hstall : (sinkStall (units.length + n)).stall ⟨reg, units, none⟩ =
        ⟨reg, units, some n⟩ := by
      simp [sinkStall, Sink.limited]
    rw [hstall, h] at hlimits
    exact hlimits.eq_fault (Nat.le_add_right _ _)

/-- Only the Source can keep DEC's loop from going on. -/
theorem decRenorm_eq_stuck {d : DecPath} {fuel : Nat} {f : Fault}
    (hc : Converges c fuel d.reg.lower d.reg.upper) (h : decRenorm c fuel d = .stuck f) :
    f = .sourceNeverReplies := by
  obtain ⟨reg, replies, fills⟩ := d
  by_cases hm : SourceReply.never ∈ replies
  · obtain ⟨good, rest, rfl, hgood⟩ := List.eq_append_cons_of_mem hm
    have hlimits := decRenorm_limits (n := fills + good.length) (rest := rest)
      (d := ⟨reg, good, fills⟩) ⟨⟨hgood, fun _ => rfl⟩, rfl, rfl⟩ hc
    have hstall : (sourceStall (fills + good.length) rest).stall ⟨reg, good, fills⟩ =
        ⟨reg, good ++ .never :: rest, fills⟩ := rfl
    rw [hstall, h] at hlimits
    exact hlimits.eq_fault (Nat.le_add_right _ _)
  · have hlimits := decRenorm_limits (n := fills + replies.length) (rest := [])
      (d := ⟨reg, replies, fills⟩) ⟨⟨hm, fun _ => rfl⟩, rfl, rfl⟩ hc
    exact absurd h hlimits.completes.ne_stuck

/-- Settles O35: the interval doubles in each iteration, so the loop's fuel lasts, and what has no step
has been stopped by the port. -/
theorem renormalizationLoopEnds : Obligations.RenormalizationLoopEnds := by
  refine fun c => ⟨fun e hlu hu h => ?_, fun d hlu hu h => ?_⟩
  · cases encRenorm_eq_stuck (converges_rangeBits hlu hu) h
  · cases decRenorm_eq_stuck (converges_rangeBits hlu hu) h

end Sys2Proof.Machine
end

section
/-!
The range after a symbol: legal in every open unit, and at times larger than before (`40_interval.md`
rule R108).
-/
namespace Sys2Proof.Machine

variable {c : Config} {l u r : Nat} {s t : State}

/-- The range of an open unit is above QUARTER and at most `RANGE_MAX` (rules R32 and R108). -/
theorem range_bounds_of_intervalOk (h : IntervalOk c l u r) : c.quarter < r ∧ r ≤ c.rangeMax := by
  obtain ⟨-, -, hu, hr, hq, -⟩ := h
  exact ⟨hq, hr ▸ (Nat.sub_le u l).trans hu⟩

/-- ENC's registers as ENC.START and ENC.PUT 1, 3, 3 leave them at ARCD-REF: the upper two thirds of the
whole interval. -/
def stateOnUpperTwoThirds : State :=
  { State.reset with enc := ⟨.active, none, 21845, 65536, 43691, 0, 0, 0⟩ }

theorem stateOnUpperTwoThirds_inv : stateOnUpperTwoThirds.Inv :=
  { resetOf_inv .arcdRef with enc := by decide }

/-- Settles O38: the invariant that a command leaves bounds the range, and the upper half of 43691 values
is renormalized to 43692. -/
theorem rangeStaysLegalButCanGrow : Obligations.RangeStaysLegalButCanGrow := by
  refine ⟨fun c l u r pl pu pt hi hp => ?_, fun s t pl pu pt h ht ha => ?_,
    fun s t pl pu pt h ht ha => ?_,
    stateOnUpperTwoThirds, _, stateOnUpperTwoThirds_inv, rfl, rfl, rfl, rfl⟩
  · obtain ⟨-, hle⟩ := narrow_bounds hi hp
    obtain ⟨-, -, -, rfl, -⟩ := hi
    exact tsub_le_tsub hle (Nat.le_add_right _ _)
  · obtain ⟨-, -, -, -, hopen, -⟩ := (exec_keeps_inv h ht).enc
    rw [← exec_cfg ht]
    exact range_bounds_of_intervalOk (hopen ha)
  · obtain ⟨-, -, -, hopen, -⟩ := (exec_keeps_inv h ht).dec
    obtain ⟨hi, -⟩ := hopen (.inl ha)
    rw [← exec_cfg ht]
    exact range_bounds_of_intervalOk hi

end Sys2Proof.Machine
end

section
/-!
The registers that the commands of a unit leave alone in their own unit (`40_interval.md` rule R107,
`41_encoder.md` rules R118 and R121, `42_decoder.md` rules R134 and R135, `60_exceptions.md` rule R174).
-/
namespace Sys2Proof.Machine

/-- `P` holds of the unit however the run ends. -/
abbrev Run.Leaves {σ α : Type} (P : σ → Prop) (r : Run σ α) : Prop := r.Meets P fun _ => P

theorem toCode_ne_ok (f : StreamFault) : f.toCode ≠ .ok := by cases f <;> decide

theorem code_eq_ok_of_responses {s : State} {k : Code} {v : Word}
    (h : s.responses ++ [⟨k, v⟩] = s.responses ++ [⟨.ok, 0⟩]) : k = .ok := by
  have hlast := List.append_cancel_left h
  cases hlast
  rfl

/-! ### ENC -/

section
variable {c : Config} {e : EncPath} {v : Enc}

/-- ENC's registers with those cleared that writing and deferring bits use. -/
def EncPath.held (e : EncPath) : Enc := { e.reg with pending := 0, buf := 0, fill := 0 }

/-- The run leaves every register but the counter and the buffer as `v` has it. -/
abbrev Run.Holds (v : Enc) (r : Run EncPath Unit) : Prop := r.Leaves fun e => e.held = v

theorem handOver_holds (n : Nat) (h : e.held = v) : (handOver n e).Holds v := by
  rcases handOver_cases n e with ⟨k, -, hd⟩ | ⟨-, hs⟩
  · rw [hd]
    exact h
  · rw [hs]
    trivial

theorem putBit_holds (b : Bool) (h : e.held = v) : (putBit c b e).Holds v := by
  have hplace : (e.place c b).held = v := h
  rw [putBit_eq]
  split
  · exact handOver_holds _ hplace
  · exact hplace

theorem putCopies_holds (b : Bool) (n : Nat) (h : e.held = v) : (putCopies c b n e).Holds v := by
  induction n generalizing e with
  | zero => exact h
  | succ n ih => exact meets_andThen (putBit_holds b h) fun _ _ h' => ih h'

theorem emitWithPending_holds (b : Bool) (h : e.held = v) : (emitWithPending c b e).Holds v :=
  meets_andThen (putBit_holds b h) fun _ _ h1 =>
    meets_andThen (putCopies_holds _ _ h1) fun _ _ h2 => h2

theorem deferBit_holds (h : e.held = v) : (deferBit c e).Holds v := by
  rcases deferBit_cases c e with ⟨-, hd⟩ | ⟨-, hd⟩ <;> rw [hd] <;> exact h

theorem encFinalBits_holds (h : e.held = v) : (encFinalBits c e).Holds v := by
  unfold encFinalBits
  split
  · split
    · exact emitWithPending_holds _ h
    · exact h
  split
  · split
    · exact emitWithPending_holds _ h
    · exact h
  split
  · exact meets_andThen (deferBit_holds h) fun _ _ h' => emitWithPending_holds _ h'
  · exact emitWithPending_holds _ h

theorem encFlush_holds (h : e.held = v) : (encFlush e).Holds v := by
  unfold encFlush
  split
  · exact handOver_holds _ h
  · exact h

/-- The interval and the range are as `v` has them. -/
abbrev EncPath.HoldsInterval (v : Enc) (e : EncPath) : Prop :=
  e.reg.lower = v.lower ∧ e.reg.upper = v.upper ∧ e.reg.range = v.range

theorem holdsInterval_of_held (h : e.held = v) : e.HoldsInterval v := h ▸ ⟨rfl, rfl, rfl⟩

/-- ENC.FINISH writes the phase, the counter and the buffer only, before a stream fault is recorded. -/
theorem encFinishStream_holdsInterval (h : e.held = v) :
    (encFinishStream c e).Leaves (EncPath.HoldsInterval v) := by
  have hfinal := meets_imp (encFinalBits_holds (c := c) h) (fun _ h' => h')
    fun _ _ => holdsInterval_of_held
  refine meets_andThen hfinal fun _ e1 h1 => ?_
  have hflush := meets_imp (encFlush_holds h1) (fun _ => holdsInterval_of_held)
    fun _ _ => holdsInterval_of_held
  exact meets_andThen hflush fun _ _ h2 => h2

/-- The phase and the cause are as `v` has them. -/
abbrev EncPath.HoldsStatus (v : Enc) (e : EncPath) : Prop :=
  e.reg.phase = v.phase ∧ e.reg.cause = v.cause

theorem EncPath.HoldsStatus.of_holds {r : Run EncPath Unit} (h : e.HoldsStatus v)
    (hr : r.Holds e.held) : r.Leaves (EncPath.HoldsStatus v) := by
  have hheld : e.held.phase = v.phase ∧ e.held.cause = v.cause := h
  refine meets_imp hr (fun e' h' => ?_) fun _ e' h' => ?_ <;> rw [← h'] at hheld <;> exact hheld

theorem encStep_holdsStatus (k : RenormCase) (h : e.HoldsStatus v) :
    (encStep c k e).Leaves (EncPath.HoldsStatus v) := by
  cases k with
  | e1 => exact meets_andThen (h.of_holds (emitWithPending_holds _ rfl)) fun _ _ h' => h'
  | e2 => exact meets_andThen (h.of_holds (emitWithPending_holds _ rfl)) fun _ _ h' => h'
  | e3 => exact meets_andThen (h.of_holds (deferBit_holds rfl)) fun _ _ h' => h'

theorem encRenorm_holdsStatus (fuel : Nat) (h : e.HoldsStatus v) :
    (encRenorm c fuel e).Leaves (EncPath.HoldsStatus v) := by
  induction fuel generalizing e with
  | zero => trivial
  | succ fuel ih =>
    cases hk : classify c e.reg.lower e.reg.upper with
    | none =>
      rw [encRenorm_stop hk]
      exact h
    | some k =>
      rw [encRenorm_iterate hk]
      exact meets_andThen (encStep_holdsStatus k h) fun _ _ h' => ih h'

theorem encPutSymbol_holdsStatus (pl pu pt : Nat) (h : e.HoldsStatus v) :
    (encPutSymbol c pl pu pt e).Leaves (EncPath.HoldsStatus v) :=
  meets_andThen (encRenorm_holdsStatus (e := e.narrow pl pu pt) _ h) fun _ _ h' => h'

end

/-! ### DEC -/

section
variable {α : Type} {c : Config} {d : DecPath} {v : Dec}

/-- DEC's registers with those cleared that DecStep writes (rule R136). -/
def DecPath.held (d : DecPath) : Dec :=
  { d.reg with lower := 0, upper := 0, window := 0, exhausted := false, buf := 0, left := 0 }

/-- The run leaves every register that DecStep does not write as `v` has it. -/
abbrev Run.HoldsDec (v : Dec) (r : Run DecPath α) : Prop := r.Leaves fun d => d.held = v

theorem takeUnit_holds (w : BitUnit) (h : d.held = v) : (takeUnit c d w).HoldsDec v := by
  unfold takeUnit
  split
  · exact h
  split
  · exact h
  · exact h

theorem callSource_holds (h : d.held = v) : (callSource c d).HoldsDec v := by
  unfold callSource
  split
  · trivial
  · exact takeUnit_holds _ h

theorem nextBit_holds (h : d.held = v) : (nextBit c d).HoldsDec v := by
  rw [nextBit_eq]
  split
  · exact h
  split
  · exact callSource_holds h
  · exact h

theorem decStep_holds (k : RenormCase) (h : d.held = v) : (decStep c k d).HoldsDec v :=
  meets_andThen (nextBit_holds (d := d.transform c k) h) fun _ _ h' => h'

theorem decRenorm_holds (fuel : Nat) (h : d.held = v) : (decRenorm c fuel d).HoldsDec v := by
  induction fuel generalizing d with
  | zero => trivial
  | succ fuel ih =>
    cases hk : classify c d.reg.lower d.reg.upper with
    | none =>
      rw [decRenorm_stop hk]
      exact h
    | some k =>
      rw [decRenorm_iterate hk]
      exact meets_andThen (decStep_holds k h) fun _ _ h' => ih h'

/-- The latches and the cause are as `v` has them. -/
abbrev DecPath.HoldsLatches (v : Dec) (d : DecPath) : Prop :=
  d.reg.total = v.total ∧ d.reg.scaled = v.scaled ∧ d.reg.cause = v.cause

theorem holdsLatches_of_held (h : d.held = v) : d.HoldsLatches v := h ▸ ⟨rfl, rfl, rfl⟩

/-- DEC.NARROW ends in ACTIVE, with the latches and the cause as they were; before a stream fault is
recorded they are so as well. -/
theorem decNarrowSymbol_holdsLatches (pl pu pt : Nat) (h : d.held = v) :
    (decNarrowSymbol c pl pu pt d).Meets (fun d' => d'.HoldsLatches v ∧ d'.reg.phase = .active)
      fun _ => DecPath.HoldsLatches v := by
  have hloop := meets_imp (decRenorm_holds (c := c) (d := d.narrow pl pu pt) (c.rangeBits + 1) h)
    (fun _ => holdsLatches_of_held) fun _ _ => holdsLatches_of_held
  exact meets_andThen hloop fun _ _ h' => ⟨h', rfl⟩

end

/-! ### The commands -/

section
variable {s t : State} {pl pu pt total : Nat}

theorem exec_encFinish_keepsInterval (ht : exec .encFinish s = .next t) :
    t.enc.lower = s.enc.lower ∧ t.enc.upper = s.enc.upper ∧ t.enc.range = s.enc.range := by
  rcases exec_encFinish_eq_next ht with ⟨k, rfl⟩ | ⟨-, ht⟩
  · exact ⟨rfl, rfl, rfl⟩
  · have hkeeps := encFinishStream_holdsInterval (c := s.cfg) (e := s.encPath) rfl
    rcases endEnc_eq_next ht with ⟨e, hr, rfl⟩ | ⟨f, e, hr, rfl⟩
    · rw [hr] at hkeeps
      exact hkeeps
    · rw [hr] at hkeeps
      exact hkeeps

theorem exec_encPut_ok_keepsStatus (ht : exec (.encPut pl pu pt) s = .next t)
    (hok : t.responses = s.responses ++ [⟨.ok, 0⟩]) :
    t.enc.phase = s.enc.phase ∧ t.enc.cause = s.enc.cause := by
  rcases exec_encPut_eq_next ht with ⟨k, rfl⟩ | rfl | ⟨-, -, ht⟩
  · exact ⟨rfl, rfl⟩
  · exact absurd (code_eq_ok_of_responses hok) (toCode_ne_ok _)
  · rcases endEnc_eq_next ht with ⟨e, hr, rfl⟩ | ⟨f, e, -, rfl⟩
    · have hkeeps := encPutSymbol_holdsStatus (c := s.cfg) (e := s.encPath) (v := s.enc)
        pl pu pt ⟨rfl, rfl⟩
      rw [hr] at hkeeps
      exact hkeeps
    · exact absurd (code_eq_ok_of_responses hok) (toCode_ne_ok f)

theorem exec_decScale_keeps (ht : exec (.decScale total) s = .next t) :
    t.source = s.source ∧ t.dec = { s.dec with
      phase := t.dec.phase, cause := t.dec.cause, total := t.dec.total, scaled := t.dec.scaled } := by
  rcases exec_decScale_eq_next ht with ⟨k, rfl⟩ | rfl | ⟨-, -, rfl⟩
  · exact ⟨rfl, rfl⟩
  · exact ⟨rfl, rfl⟩
  · exact ⟨rfl, rfl⟩

theorem exec_decNarrow_keepsLatches (ht : exec (.decNarrow pl pu pt) s = .next t) :
    t.dec.total = s.dec.total ∧ t.dec.scaled = s.dec.scaled := by
  rcases exec_decNarrow_eq_next ht with ⟨k, rfl⟩ | rfl | ⟨-, -, ht⟩
  · exact ⟨rfl, rfl⟩
  · exact ⟨rfl, rfl⟩
  · have hkeeps := decNarrowSymbol_holdsLatches (c := s.cfg) (d := s.decPath) pl pu pt rfl
    rcases endDec_eq_next ht with ⟨d, hr, rfl⟩ | ⟨f, d, hr, rfl⟩
    · rw [hr] at hkeeps
      obtain ⟨⟨htotal, hscaled, -⟩, -⟩ := hkeeps
      exact ⟨htotal, hscaled⟩
    · rw [hr] at hkeeps
      obtain ⟨htotal, hscaled, -⟩ := hkeeps
      exact ⟨htotal, hscaled⟩

/-- DEC.NARROW answers OK only where its primitives ran to their end. -/
theorem exec_decNarrow_answersOk (ht : exec (.decNarrow pl pu pt) s = .next t)
    (hok : t.responses = s.responses ++ [⟨.ok, 0⟩]) :
    ∃ d, decNarrowSymbol s.cfg pl pu pt s.decPath = .done () d ∧
      t = (s.withDecPath d).respond .ok 0 := by
  cases hk : scaledStepCheck s.dec.phase with
  | some k =>
    rw [exec_decNarrow_notScaled hk] at ht
    cases ht
    cases code_eq_ok_of_responses hok
    simp [scaledStepCheck_eq_some] at hk
  | none =>
    by_cases hp : NarrowOk s.cfg s.dec pl pu pt
    · rw [exec_decNarrow_runs hk hp] at ht
      rcases endDec_eq_next ht with hdone | ⟨f, d, -, rfl⟩
      · exact hdone
      · exact absurd (code_eq_ok_of_responses hok) (toCode_ne_ok f)
    · rw [exec_decNarrow_emodel hk hp] at ht
      cases ht
      exact absurd (code_eq_ok_of_responses hok) (toCode_ne_ok _)

theorem exec_decNarrow_ok_active (ht : exec (.decNarrow pl pu pt) s = .next t)
    (hok : t.responses = s.responses ++ [⟨.ok, 0⟩]) :
    t.dec.phase = .active ∧ t.dec.cause = s.dec.cause := by
  obtain ⟨d, hr, rfl⟩ := exec_decNarrow_answersOk ht hok
  have hkeeps := decNarrowSymbol_holdsLatches (c := s.cfg) (d := s.decPath) pl pu pt rfl
  rw [hr] at hkeeps
  obtain ⟨⟨-, -, hcause⟩, hphase⟩ := hkeeps
  exact ⟨hphase, hcause⟩

/-- Settles O23, command by command. -/
theorem commandsKeepTheRegistersTheyDoNotWrite :
    Obligations.CommandsKeepTheRegistersTheyDoNotWrite :=
  fun _ _ => ⟨exec_encFinish_keepsInterval, fun _ _ _ => exec_encPut_ok_keepsStatus,
    fun _ => exec_decScale_keeps, fun _ _ _ ht =>
      ⟨(exec_decNarrow_keepsLatches ht).1, (exec_decNarrow_keepsLatches ht).2,
        exec_decNarrow_ok_active ht⟩⟩

end

end Sys2Proof.Machine
end

section
/-!
The encoder beside a Sink that accepts: what PutBit and EmitWithPending leave, and the registers that
ENC.START opens a stream with (`41_encoder.md` rules R110 to R112).
-/
namespace Sys2Proof.Machine

variable {c : Config} {e : EncPath}

/-- Settles O39: ENC.START writes every register of ENC and answers. -/
theorem encStartOpensAStream : Obligations.EncStartOpensAStream := fun _ => exec_encStart

/-- A Sink that accepts takes the buffer as one more unit. -/
theorem handOver_of_accepts (n : Nat) (ha : e.sink.Accepts) :
    handOver n e = .done ()
      { reg := { e.reg with buf := 0, fill := 0 }
        sink := { e.sink with units := e.sink.units ++ [⟨e.reg.buf, n⟩] } } := by
  simp [handOver, sinkAccept_of_accepts ha, ha]

/-- Settles O40: the bit is placed, and the buffer is handed over exactly where that fills it. -/
theorem putBitPlacesTheNextBit : Obligations.PutBitPlacesTheNextBit := by
  intro c b e ha buf
  have hplace : e.place c b = { e with reg := { e.reg with buf := buf, fill := e.reg.fill + 1 } } := by
    simp only [EncPath.place, buf, Bool.toNat, cond_eq_ite]
  rw [putBit_eq, hplace]
  by_cases hfull : e.reg.fill + 1 = c.bufBits
  · rw [if_pos hfull, if_pos hfull]
    exact handOver_of_accepts _ ha
  · rw [if_neg hfull, if_neg hfull]

/-- The run goes on, having written `bits` and left none deferred; no register changed but the counter
and the buffer. -/
def Run.Emits (c : Config) (e : EncPath) (bits : List Bool) (r : Run EncPath Unit) : Prop :=
  ∃ e', r = .done () e' ∧ Wrote c e e' bits ∧
    e'.reg = { e.reg with pending := 0, buf := e'.reg.buf, fill := e'.reg.fill }

theorem emitWithPending_emits (b : Bool) (h : e.Ready c) (ha : e.sink.Accepts) :
    (emitWithPending c b e).Emits c e (resolvedBits b e.reg.pending) :=
  (emitWithPending_cases b h).resolve_right fun ⟨hna, _⟩ => hna ha

/-- Settles O41, by what EmitWithPending can do beside a Sink that accepts. -/
theorem emitWithPendingWritesTheComplements : Obligations.EmitWithPendingWritesTheComplements := by
  intro c b e hfill hbuf ha
  obtain ⟨e', hd, w, hreg⟩ := emitWithPending_emits b ⟨hfill, hbuf⟩ ha
  exact ⟨e', hd, w.written, hreg⟩

end Sys2Proof.Machine
end

section
/-!
ENC.PUT beside the encoder on lists of bits: the two loops go through the same iterations
(`41_encoder.md` rules R113 to R117).
-/
namespace Sys2Proof.Machine

variable {c : Config} {e e₀ : EncPath} {t t' : EncTrace} {k : RenormCase} {fuel : Nat}

/-! ### One iteration on a list of bits -/

/-- The trace moved through a case that writes the bit `b`. -/
def EncTrace.resolve (c : Config) (k : RenormCase) (b : Bool) (t : EncTrace) : EncTrace :=
  ⟨transformBound c k t.lower, transformBound c k t.upper, 0, t.bits ++ resolvedBits b t.pending⟩

/-- One iteration of `refRenorm`, in the case that `classify` chose. -/
def refStep (c : Config) (k : RenormCase) (t : EncTrace) : Option EncTrace :=
  match k with
  | .e1 => some (t.resolve c .e1 false)
  | .e2 => some (t.resolve c .e2 true)
  | .e3 =>
    if t.pending = c.pendingMax then none
    else some ⟨transformBound c .e3 t.lower, transformBound c .e3 t.upper, t.pending + 1, t.bits⟩

theorem refRenorm_stop (h : classify c t.lower t.upper = none) :
    refRenorm c (fuel + 1) t = some t := by
  obtain ⟨hu, hl, hor⟩ := classify_eq_none_iff.1 h
  rw [refRenorm, if_neg (by omega), if_neg (by omega), if_neg (by omega)]

theorem refRenorm_iterate (h : classify c t.lower t.upper = some k) :
    refRenorm c (fuel + 1) t = (refStep c k t).bind (refRenorm c fuel) := by
  cases k with
  | e1 =>
    rw [refRenorm, if_pos (classify_eq_e1_iff.1 h)]
    rfl
  | e2 =>
    obtain ⟨hu, hl⟩ := classify_eq_e2_iff.1 h
    rw [refRenorm, if_neg (by omega), if_pos hl]
    rfl
  | e3 =>
    obtain ⟨hu, hl, hin⟩ := classify_eq_e3_iff.1 h
    rw [refRenorm, if_neg (by omega), if_neg (by omega), if_pos hin, refStep]
    split <;> rfl

theorem refStep_bounds (h : refStep c k t = some t') :
    t'.lower = transformBound c k t.lower ∧ t'.upper = transformBound c k t.upper := by
  cases k with
  | e1 | e2 =>
    cases h
    exact ⟨rfl, rfl⟩
  | e3 =>
    rw [refStep] at h
    split at h
    · cases h
    · cases h
      exact ⟨rfl, rfl⟩

theorem Converges.refStep (hc : Converges c (fuel + 1) t.lower t.upper)
    (hk : classify c t.lower t.upper = some k) (ht : refStep c k t = some t') :
    Converges c fuel t'.lower t'.upper := by
  obtain ⟨hl, hu⟩ := refStep_bounds ht
  rw [hl, hu]
  exact hc.transform hk

/-! ### The simulation -/

/-- `t` is what became of ENC between `e₀` and `e`: its interval, its counter and the bits written, with
no other register changed but the buffer's. -/
structure Traces (c : Config) (e₀ e : EncPath) (t : EncTrace) : Prop where
  wrote : Wrote c e₀ e t.bits
  reg : e.reg = { e₀.reg with
    lower := t.lower, upper := t.upper, pending := t.pending, buf := e.reg.buf, fill := e.reg.fill }

/-- The run and the reference end alike: both go on, or the run raises EPENDING where the reference
cannot defer a bit. -/
def EndsAs (c : Config) (e₀ : EncPath) : Run EncPath Unit → Option EncTrace → Prop
  | .done _ e, some t => Traces c e₀ e t
  | .raised f _, none => f = .epending
  | _, _ => False

theorem EndsAs.of_some {r : Run EncPath Unit} (h : EndsAs c e₀ r (some t)) :
    ∃ e, r = .done () e ∧ Traces c e₀ e t := by
  cases r with
  | done a e => exact ⟨e, rfl, h⟩
  | raised f e => exact absurd h id
  | stuck f => exact absurd h id

theorem EndsAs.of_none {r : Run EncPath Unit} (h : EndsAs c e₀ r none) :
    ∃ e, r = .raised .epending e := by
  cases r with
  | done a e => exact absurd h id
  | raised f e => exact ⟨e, congrArg (Run.raised · e) h⟩
  | stuck f => exact absurd h id

theorem EndsAs.andThen {r : Run EncPath Unit} {o : Option EncTrace}
    {k : Unit → EncPath → Run EncPath Unit} {g : EncTrace → Option EncTrace} (h : EndsAs c e₀ r o)
    (hk : ∀ e t, o = some t → Traces c e₀ e t → EndsAs c e₀ (k () e) (g t)) :
    EndsAs c e₀ (r.andThen k) (o.bind g) := by
  cases o with
  | some t =>
    obtain ⟨e, rfl, htr⟩ := h.of_some
    exact hk e t rfl htr
  | none =>
    obtain ⟨e, rfl⟩ := h.of_none
    rfl

/-- One iteration of ENC's loop is one iteration of the reference. -/
theorem encStep_endsAs (k : RenormCase) (h : Traces c e₀ e t) (ha : e₀.sink.Accepts) :
    EndsAs c e₀ (encStep c k e) (refStep c k t) := by
  obtain ⟨w, hreg⟩ := h
  have hpend : e.reg.pending = t.pending := by rw [hreg]
  rcases encStep_cases k w.ready with ⟨e', bits, p, hd, w', hreg', hcase⟩ | ⟨rfl, hfull, hd⟩ | ⟨hna, -⟩
  · rw [hd]
    rw [hpend] at hcase
    have hl : e.reg.lower = t.lower := by rw [hreg]
    have hu : e.reg.upper = t.upper := by rw [hreg]
    rw [hl, hu, hreg] at hreg'
    rcases hcase with ⟨rfl, rfl, rfl⟩ | ⟨rfl, rfl, rfl⟩ | ⟨rfl, hroom, rfl, rfl⟩
    · exact ⟨w.trans w', hreg'⟩
    · exact ⟨w.trans w', hreg'⟩
    · rw [refStep, if_neg hroom]
      exact ⟨by simpa using w.trans w', hreg'⟩
  · rw [hd, refStep, if_pos (hpend ▸ hfull)]
    rfl
  · exact absurd (w.room ha) hna

/-- The loops end alike where the interval lets both come to their end. -/
theorem encRenorm_endsAs (h : Traces c e₀ e t) (ha : e₀.sink.Accepts)
    (hc : Converges c fuel t.lower t.upper) :
    EndsAs c e₀ (encRenorm c fuel e) (refRenorm c fuel t) := by
  induction fuel generalizing e t with
  | zero => exact absurd hc not_converges_zero
  | succ fuel ih =>
    have hbounds : classify c e.reg.lower e.reg.upper = classify c t.lower t.upper := by rw [h.reg]
    cases hk : classify c t.lower t.upper with
    | none =>
      rw [encRenorm_stop (hbounds.trans hk), refRenorm_stop hk]
      exact h
    | some k =>
      rw [encRenorm_iterate (hbounds.trans hk), refRenorm_iterate hk]
      exact (encStep_endsAs k h ha).andThen fun e' t' ht' h' => ih h' (hc.refStep hk ht')

/-- The loop of ENC.PUT ends as the reference does. -/
theorem encRenorm_narrow_endsAs {pl pu pt : Nat} (h : e.Ready c) (ha : e.sink.Accepts)
    (hi : IntervalOk c e.reg.lower e.reg.upper e.reg.range) (hp : ProbOk c pl pu pt) :
    EndsAs c e (encRenorm c (c.rangeBits + 1) (e.narrow pl pu pt)) (refPut c e.reg pl pu pt) :=
  encRenorm_endsAs ⟨(Wrote.refl h).congr rfl rfl rfl, rfl⟩ ha (converges_narrow hi hp)

/-- Settles O42: the loop ends as the reference does, and the range is the width of the interval it
leaves. -/
theorem encPutRefinesTheBitListEncoder : Obligations.EncPutRefinesTheBitListEncoder := by
  intro s pl pu pt h hact ha hp
  obtain ⟨⟨-, -, -, -, hready⟩, -, -, -, hopen, -⟩ := h.enc
  have hends := encRenorm_narrow_endsAs (e := s.encPath) hready ha (hopen hact) hp
  have hexec := exec_encPut_runs (openStreamCheck_eq_none.2 (.inl hact)) hp
  rw [encPutSymbol] at hexec
  constructor
  · intro r hr
    obtain ⟨e, hrun, w, hreg⟩ := EndsAs.of_some (hr ▸ hends)
    rw [hrun] at hexec
    refine ⟨e.updateRange.reg, e.sink, hexec, ?_, w.written⟩
    simp only [EncPath.updateRange]
    rw [hreg]
    rfl
  · intro hr
    obtain ⟨e, hrun⟩ := EndsAs.of_none (hr ▸ hends)
    rw [hrun] at hexec
    exact ⟨_, hexec, rfl⟩

end Sys2Proof.Machine
end

section
/-!
Where the counter has room for `RANGE_BITS` more bits, ENC.PUT goes on to its end, and each iteration
adds one bit to those written and those deferred (`41_encoder.md` rule R117).
-/
namespace Sys2Proof.Machine

variable {c : Config} {t : EncTrace} {k : RenormCase}

/-- The bits written since the command began, and those deferred. -/
def EncTrace.moved (t : EncTrace) : Nat := t.bits.length + t.pending

theorem resolvedBits_length (b : Bool) (p : Nat) : (resolvedBits b p).length = p + 1 := by
  simp [resolvedBits]

/-- An iteration with room in the counter goes on, and moves one bit more. -/
theorem refStep_room (k : RenormCase) (h : t.pending < c.pendingMax) :
    ∃ t', refStep c k t = some t' ∧ t'.pending ≤ t.pending + 1 ∧ t'.moved = t.moved + 1 := by
  cases k with
  | e1 | e2 =>
    refine ⟨_, rfl, Nat.zero_le _, ?_⟩
    simp only [EncTrace.moved, EncTrace.resolve, List.length_append, resolvedBits_length]
    omega
  | e3 => exact ⟨_, if_neg h.ne, le_rfl, rfl⟩

/-- The loop comes to its end within `n` iterations, where the interval allows no more and the counter
has room for as many bits. -/
theorem refRenorm_room (n : Nat) (hc : Converges c (n + 1) t.lower t.upper)
    (hroom : t.pending + n ≤ c.pendingMax) :
    ∃ r, refRenorm c (n + 1) t = some r ∧ r.moved ≤ t.moved + n := by
  induction n generalizing t with
  | zero =>
    cases hk : classify c t.lower t.upper with
    | none => exact ⟨t, refRenorm_stop hk, le_rfl⟩
    | some k => exact absurd (hc.transform hk) not_converges_zero
  | succ n ih =>
    cases hk : classify c t.lower t.upper with
    | none => exact ⟨t, refRenorm_stop hk, Nat.le_add_right _ _⟩
    | some k =>
      have hlt : t.pending < c.pendingMax := by omega
      obtain ⟨t', ht', hpend, hmoved⟩ := refStep_room k hlt
      obtain ⟨r, hr, hle⟩ := ih (hc.refStep hk ht') (by omega)
      exact ⟨r, by rw [refRenorm_iterate hk, ht', Option.bind_some, hr], by omega⟩

/-- Settles O43: the reference has a result, of at most `RANGE_BITS` iterations, and ENC.PUT does what it
does; the invariant gives the interval. -/
theorem encPutCompletesWithRoomToDefer : Obligations.EncPutCompletesWithRoomToDefer := by
  intro s pl pu pt h hact ha hp hroom
  obtain ⟨-, -, -, -, hopen, -⟩ := h.enc
  obtain ⟨r, hr, hmoved⟩ := refRenorm_room
    (t := ⟨s.enc.lower + s.enc.range * pl / pt, s.enc.lower + s.enc.range * pu / pt,
      s.enc.pending, []⟩)
    s.cfg.rangeBits (converges_narrow (hopen hact) hp) hroom
  simp only [EncTrace.moved, List.length_nil] at hmoved
  obtain ⟨hok, -⟩ := encPutRefinesTheBitListEncoder s pl pu pt h hact ha hp
  obtain ⟨e, k, hexec, he, hwritten⟩ := hok r hr
  obtain ⟨-, -, -, -, hopen', -⟩ := (exec_keeps_inv h hexec).enc
  have hact' : e.phase = .active := by rw [he, hact]
  have hpend : e.pending = r.pending := by rw [he]
  have hlen := congrArg List.length hwritten
  rw [List.length_append] at hlen
  exact ⟨_, hexec, rfl, hact', hopen' hact', hpend.trans_le (by omega),
    (Nat.le_add_right _ _).trans_eq hlen.symm, hlen.trans_le (by omega)⟩

end Sys2Proof.Machine
end

section
/-!
A certain symbol: Narrow gives the interval again, on which the loop stops at once (`41_encoder.md` rule
R117, `42_decoder.md` rule R143).
-/
namespace Sys2Proof.Machine

variable {c : Config} {l u r pt : Nat}

/-- The interval of an open unit is one on which the loop stops. -/
theorem classify_eq_none_of_intervalOk (h : IntervalOk c l u r) : classify c l u = none := by
  obtain ⟨hl, hu, -, -, -, hor⟩ := h
  exact classify_eq_none_iff.2 ⟨hu, hl, hor⟩

theorem probOk_certain (h1 : 1 ≤ pt) (hmax : pt ≤ c.freqMax) : ProbOk c 0 pt pt := ⟨h1, le_rfl, hmax⟩

theorem narrow_certain (h : IntervalOk c l u r) (h1 : 1 ≤ pt) : narrow l r 0 pt pt = (l, u) := by
  rw [narrow, Nat.mul_zero, Nat.zero_div, Nat.mul_div_cancel r h1, upper_eq_of_intervalOk h, Nat.add_zero]

theorem encPutSymbol_certain {e : EncPath} (h : IntervalOk c e.reg.lower e.reg.upper e.reg.range)
    (h1 : 1 ≤ pt) : encPutSymbol c 0 pt pt e = .done () e := by
  have hn : e.narrow 0 pt pt = e := by rw [EncPath.narrow, narrow_certain h h1]
  have hr : e.updateRange = e := by
    obtain ⟨-, -, -, hr, -⟩ := h
    rw [EncPath.updateRange, ← hr]
  rw [encPutSymbol, hn, encRenorm_stop (classify_eq_none_of_intervalOk h), andThen_done, hr]

theorem decNarrowSymbol_certain {d : DecPath} (h : IntervalOk c d.reg.lower d.reg.upper d.reg.range)
    (h1 : 1 ≤ pt) : decNarrowSymbol c 0 pt pt d = .done () (d.setPhase .active) := by
  have hn : d.narrow 0 pt pt = d := by rw [DecPath.narrow, narrow_certain h h1]
  have hr : d.updateRange = d := by
    obtain ⟨-, -, -, hr, -⟩ := h
    rw [DecPath.updateRange, ← hr]
  rw [decNarrowSymbol, hn, decRenorm_stop (classify_eq_none_of_intervalOk h), andThen_done, hr]

/-- Settles O44: in both units the loop stops at once on the interval as it was. -/
theorem certainSymbolsMoveNoBit : Obligations.CertainSymbolsMoveNoBit := by
  refine ⟨fun s pt h hact h1 hmax => ?_, fun s h hs => ?_⟩
  · obtain ⟨-, -, -, -, hopen, -⟩ := h.enc
    rw [exec_encPut_runs (openStreamCheck_eq_none.2 (.inl hact)) (probOk_certain h1 hmax),
      encPutSymbol_certain (hopen hact) h1]
    rfl
  · obtain ⟨⟨-, -, -, -, -, -, -, hmax, -⟩, -, -, hopen, hlatch⟩ := h.dec
    obtain ⟨h1, hlt, -⟩ := hlatch hs
    obtain ⟨hi, -⟩ := hopen (.inr hs)
    rw [exec_decNarrow_runs (scaledStepCheck_eq_none.2 hs)
        ⟨probOk_certain h1 hmax, rfl, Nat.zero_le _, hlt⟩,
      decNarrowSymbol_certain hi h1]
    rfl

end Sys2Proof.Machine
end

section
/-!
ENC.FINISH beside a Sink that accepts: the bits of rule R121's table, then whatever the buffer holds
(`41_encoder.md` rules R118 to R121).
-/
namespace Sys2Proof.Machine

variable {c : Config} {e : EncPath}

/-- Nothing is written where the counter is 0 already. -/
theorem emits_nil (h : e.Ready c) (hp : e.reg.pending = 0) :
    (Run.done () e).Emits c e [] := ⟨e, rfl, Wrote.refl h, by rw [← hp]⟩

/-- Where neither end of the interval is an end of the whole, one more bit is deferred first. -/
theorem deferThenEmit_emits (h : e.Ready c) (ha : e.sink.Accepts)
    (hroom : e.reg.pending ≠ c.pendingMax) :
    ((deferBit c e).andThen fun _ e' =>
      emitWithPending c (decide (c.quarter ≤ e'.reg.lower)) e').Emits c e
      (resolvedBits (decide (c.quarter ≤ e.reg.lower)) (e.reg.pending + 1)) := by
  obtain ⟨-, hd⟩ := (deferBit_cases c e).resolve_left fun ⟨hfull, _⟩ => hroom hfull
  obtain ⟨e', he', w, hreg⟩ := emitWithPending_emits (c := c)
    (e := e.setPending (e.reg.pending + 1)) (decide (c.quarter ≤ e.reg.lower)) h ha
  have w₀ : Wrote c e (e.setPending (e.reg.pending + 1)) [] := (Wrote.refl h).congr rfl rfl rfl
  rw [hd]
  exact ⟨e', he', w₀.trans w, hreg⟩

/-- The final bits are those of rule R121's table, row by row. -/
theorem encFinalBits_emits (h : e.Ready c) (ha : e.sink.Accepts) (hroom : ¬ FinishOverflows c e.reg) :
    (encFinalBits c e).Emits c e (refFinalBits c e.reg) := by
  have hemit (b : Bool) := emitWithPending_emits b h ha
  by_cases hl : e.reg.lower = 0
  · by_cases hp : e.reg.pending = 0
    · by_cases hu : e.reg.upper = c.rangeMax
      · simpa [encFinalBits, refFinalBits, hl, hp, hu] using emits_nil h hp
      · simpa [encFinalBits, refFinalBits, hl, hp, hu, resolvedBits] using hemit false
    · have hb : ¬ c.quarter ≤ 0 := (Nat.two_pos.trans_le c.two_le_quarter).not_ge
      simpa [encFinalBits, refFinalBits, hl, hp, hb] using hemit false
  · by_cases hu : e.reg.upper = c.rangeMax
    · by_cases hp : e.reg.pending = 0
      · simpa [encFinalBits, refFinalBits, hl, hp, hu, resolvedBits] using hemit true
      · simpa [encFinalBits, refFinalBits, hl, hp, hu] using hemit (decide (c.quarter ≤ e.reg.lower))
    · simpa [encFinalBits, refFinalBits, hl, hu] using
        deferThenEmit_emits h ha fun hfull => hroom ⟨hl, hu, hfull⟩

/-- A ready buffer without a valid bit is 0. -/
theorem buf_eq_zero_of_fill_eq_zero (h : e.Ready c) (hf : e.reg.fill = 0) : e.reg.buf = 0 := by
  obtain ⟨-, hlt, hmod⟩ := h
  rwa [hf, Nat.sub_zero, Nat.mod_eq_of_lt hlt] at hmod

/-- Beside a Sink that accepts, Flush hands over everything written and leaves an empty buffer. -/
theorem encFlush_of_accepts (h : e.Ready c) (ha : e.sink.Accepts) :
    ∃ k : Sink, encFlush e = .done () ⟨{ e.reg with buf := 0, fill := 0 }, k⟩ ∧
      outputBits c k.units = e.written c := by
  rcases encFlush_cases c e with ⟨⟨reg, k⟩, hd, hreg, hcase, hout, -⟩ | ⟨hfull, -⟩
  · have hbuf : reg.buf = 0 := by
      rcases hcase with ⟨hf, rfl⟩ | ⟨-, hbuf, -⟩
      · exact buf_eq_zero_of_fill_eq_zero h hf
      · exact hbuf
    refine ⟨k, ?_, hout⟩
    have hreg' : reg = { e.reg with buf := 0, fill := 0 } := hbuf ▸ hreg
    rw [hd, hreg']
  · exact absurd (ha.symm.trans hfull) nofun

/-- Settles O47: the final bits, then the flush of everything written. -/
theorem encFinishWritesTheFinalBits : Obligations.EncFinishWritesTheFinalBits := by
  intro s h hact ha hroom
  obtain ⟨⟨-, -, -, -, hready⟩, -⟩ := h.enc
  obtain ⟨e, hfinal, w, hreg⟩ := encFinalBits_emits (e := s.encPath) hready ha hroom
  obtain ⟨k, hflush, hout⟩ := encFlush_of_accepts w.ready (w.room ha)
  refine ⟨k, ?_, hout.trans w.written⟩
  rw [exec_encFinish_runs (openStreamCheck_eq_none.2 (.inl hact)), encFinishStream, hfinal,
    andThen_done, hflush, hreg]
  rfl

end Sys2Proof.Machine
end

section
/-!
Two blocks alike in the parameters, ENC and the Sink: every command that both complete leaves them so
(`41_encoder.md` rule R122).
-/
namespace Sys2Proof.Machine

variable {s s' t t' : State}

/-- The two states agree on all that ENC's commands read. -/
structure SameEncoding (s s' : State) : Prop where
  cfg : s.cfg = s'.cfg
  enc : s.enc = s'.enc
  sink : s.sink = s'.sink

theorem SameEncoding.encPath (h : SameEncoding s s') : s.encPath = s'.encPath := by
  rw [State.encPath, State.encPath, h.enc, h.sink]

/-- A command of ENC whose primitives ran alike. -/
theorem SameEncoding.endEnc (h : SameEncoding s s') {r : Run EncPath Unit}
    (ht : s.endEnc r = .next t) (ht' : s'.endEnc r = .next t') : SameEncoding t t' := by
  cases r with
  | done a e =>
    cases ht
    cases ht'
    exact ⟨h.cfg, rfl, rfl⟩
  | raised f e =>
    cases ht
    cases ht'
    exact ⟨h.cfg, rfl, rfl⟩
  | stuck f => cases ht

theorem SameEncoding.encStart (h : SameEncoding s s') (ht : exec .encStart s = .next t)
    (ht' : exec .encStart s' = .next t') : SameEncoding t t' := by
  rw [exec_encStart] at ht ht'
  cases ht
  cases ht'
  exact ⟨h.cfg, congrArg Enc.opened h.cfg, h.sink⟩

theorem SameEncoding.encPut (h : SameEncoding s s') {pl pu pt : Nat}
    (ht : exec (.encPut pl pu pt) s = .next t) (ht' : exec (.encPut pl pu pt) s' = .next t') :
    SameEncoding t t' := by
  cases hk : openStreamCheck s.enc.phase with
  | some k =>
    rw [exec_encPut_notOpen hk] at ht
    rw [exec_encPut_notOpen (h.enc ▸ hk)] at ht'
    cases ht
    cases ht'
    exact ⟨h.cfg, h.enc, h.sink⟩
  | none =>
    by_cases hp : ProbOk s.cfg pl pu pt
    · rw [exec_encPut_runs hk hp] at ht
      rw [exec_encPut_runs (h.enc ▸ hk) (h.cfg ▸ hp), ← h.cfg, ← h.encPath] at ht'
      exact h.endEnc ht ht'
    · rw [exec_encPut_emodel hk hp] at ht
      rw [exec_encPut_emodel (h.enc ▸ hk) (h.cfg ▸ hp)] at ht'
      cases ht
      cases ht'
      exact ⟨h.cfg, by simp only [raiseEnc_enc, h.enc], h.sink⟩

theorem SameEncoding.encFinish (h : SameEncoding s s') (ht : exec .encFinish s = .next t)
    (ht' : exec .encFinish s' = .next t') : SameEncoding t t' := by
  cases hk : openStreamCheck s.enc.phase with
  | some k =>
    rw [exec_encFinish_notOpen hk] at ht
    rw [exec_encFinish_notOpen (h.enc ▸ hk)] at ht'
    cases ht
    cases ht'
    exact ⟨h.cfg, h.enc, h.sink⟩
  | none =>
    rw [exec_encFinish_runs hk] at ht
    rw [exec_encFinish_runs (h.enc ▸ hk), ← h.cfg, ← h.encPath] at ht'
    exact h.endEnc ht ht'

/-- Any other command leaves ENC and the Sink as they were, in both. -/
theorem SameEncoding.other (h : SameEncoding s s') {i : Instr} (hi : i.opcode / 16 ≠ 1)
    (ht : exec i s = .next t) (ht' : exec i s' = .next t') : SameEncoding t t' := by
  obtain ⟨hcfg, -, hkeep, -⟩ := commandsReachOnlyTheirUnit i s t ht
  obtain ⟨hcfg', -, hkeep', -⟩ := commandsReachOnlyTheirUnit i s' t' ht'
  obtain ⟨henc, hsink⟩ := hkeep hi
  obtain ⟨henc', hsink'⟩ := hkeep' hi
  exact ⟨hcfg.trans (h.cfg.trans hcfg'.symm), henc.trans (h.enc.trans henc'.symm),
    hsink.trans (h.sink.trans hsink'.symm)⟩

theorem SameEncoding.exec (h : SameEncoding s s') {i : Instr} (ht : exec i s = .next t)
    (ht' : exec i s' = .next t') : SameEncoding t t' := by
  cases i with
  | encStart => exact h.encStart ht ht'
  | encPut pl pu pt => exact h.encPut ht ht'
  | encFinish => exact h.encFinish ht ht'
  | _ => exact h.other (by simp [Instr.opcode]) ht ht'

theorem runCommands_cons_eq_next {i : Instr} {rest : List Instr}
    (h : runCommands (i :: rest) s = .next t) :
    ∃ s₁, exec i s = .next s₁ ∧ runCommands rest s₁ = .next t := by
  rw [runCommands] at h
  split at h
  · exact ⟨_, ‹_›, h⟩
  · cases h
  · cases h

theorem SameEncoding.runCommands (h : SameEncoding s s') {commands : List Instr}
    (ht : runCommands commands s = .next t) (ht' : runCommands commands s' = .next t') :
    SameEncoding t t' := by
  induction commands generalizing s s' with
  | nil =>
    cases ht
    cases ht'
    exact h
  | cons i rest ih =>
    obtain ⟨s₁, hi, hrest⟩ := runCommands_cons_eq_next ht
    obtain ⟨s₁', hi', hrest'⟩ := runCommands_cons_eq_next ht'
    exact ih (h.exec hi hi') hrest hrest'

/-- Settles O49: the commands keep the two blocks alike. -/
theorem encoderIsDeterministic : Obligations.EncoderIsDeterministic := by
  intro commands s s' t t' hcfg henc hsink ht ht'
  have hsame : SameEncoding t t' := SameEncoding.runCommands ⟨hcfg, henc, hsink⟩ ht ht'
  exact ⟨hsame.enc, hsame.sink⟩

end Sys2Proof.Machine
end

section
/-!
The input bits in DEC: NextBit case by case, the window as the value of the bits read, and DEC.START
(`42_decoder.md` rules R130 to R133).
-/
namespace Sys2Proof.Machine

variable {c : Config} {d : DecPath}

/-! ### NextBit -/

theorem nextBit_of_exhausted (hx : d.reg.exhausted = true) : nextBit c d = .done true d := if_pos hx

theorem nextBit_of_buffered (hx : d.reg.exhausted = false) (hl : d.reg.left ≠ 0) :
    nextBit c d = takeBufferedBit c d := by
  rw [nextBit_eq, hx, if_neg Bool.false_ne_true, if_neg hl]

/-- An empty buffer is filled from the next reply (rule R132). -/
theorem nextBit_of_reply {w n : Nat} {rest : List SourceReply} (hx : d.reg.exhausted = false)
    (hl : d.reg.left = 0) (hr : d.source.replies = .reply w n :: rest) :
    nextBit c d = takeUnit c { d with source := ⟨rest, d.source.fills + 1⟩ } ⟨w, n⟩ := by
  have hfill : sourceFill d.source = some (⟨w, n⟩, ⟨rest, d.source.fills + 1⟩) := by
    rw [sourceFill, hr]
  rw [nextBit_eq, hx, if_neg Bool.false_ne_true, if_pos hl, callSource, hfill]

/-- Settles O50, case by case; what is done with a fresh unit is `takeUnit`, branch by branch. -/
theorem nextBitFollowsItsRule : Obligations.NextBitFollowsItsRule :=
  fun _ _ => ⟨nextBit_of_exhausted, nextBit_of_buffered, fun _ _ _ => nextBit_of_reply⟩

/-! ### Numbers made of the bits of a stream -/

theorem bitsValue_cons (b : Bool) (xs : List Bool) :
    bitsValue (b :: xs) = b.toNat * 2 ^ xs.length + bitsValue xs := by
  induction xs using List.reverseRecOn with
  | nil => simp [bitsValue]
  | append_singleton xs x ih =>
    simp only [bitsValue, List.foldl_cons, List.foldl_append, List.foldl_nil, List.length_append,
      List.length_singleton, pow_succ] at ih ⊢
    rw [ih]
    ring

theorem bitsValue_append (xs ys : List Bool) :
    bitsValue (xs ++ ys) = bitsValue xs * 2 ^ ys.length + bitsValue ys := by
  induction xs with
  | nil => simp [bitsValue]
  | cons x xs ih =>
    rw [List.cons_append, bitsValue_cons, bitsValue_cons, ih, List.length_append, pow_add]
    ring

/-- The first `n` bits of an input stream that is followed by filler, as a number. -/
def streamValue (n : Nat) (bits : List Bool) : Nat := bitsValue (paddedTake n bits)

theorem paddedTake_length (n : Nat) (bits : List Bool) : (paddedTake n bits).length = n := by
  rw [paddedTake, List.length_append, List.length_take, List.length_replicate]
  omega

theorem paddedTake_succ (n : Nat) (bits : List Bool) :
    paddedTake (n + 1) bits = bits.headD true :: paddedTake n bits.tail := by
  cases bits with
  | nil => simp [paddedTake, List.replicate_succ]
  | cons b bits => simp [paddedTake]

theorem streamValue_zero (bits : List Bool) : streamValue 0 bits = 0 := by
  simp [streamValue, paddedTake, bitsValue]

/-- The first bit is the highest. -/
theorem streamValue_succ_head (n : Nat) (bits : List Bool) :
    streamValue (n + 1) bits = (bits.headD true).toNat * 2 ^ n + streamValue n bits.tail := by
  rw [streamValue, paddedTake_succ, bitsValue_cons, paddedTake_length, streamValue]

/-- The last bit is the lowest. -/
theorem streamValue_succ (n : Nat) (bits : List Bool) :
    streamValue (n + 1) bits = 2 * streamValue n bits + ((bits.drop n).headD true).toNat := by
  induction n generalizing bits with
  | zero => simp [streamValue_succ_head, streamValue_zero]
  | succ n ih =>
    rw [streamValue_succ_head, ih, streamValue_succ_head, List.drop_tail, pow_succ]
    ring

/-- Bits in front of a stream stand above its own. -/
theorem streamValue_append (xs ys : List Bool) (n : Nat) :
    streamValue (xs.length + n) (xs ++ ys) = bitsValue xs * 2 ^ n + streamValue n ys := by
  induction xs with
  | nil => simp [bitsValue]
  | cons x xs ih =>
    rw [List.length_cons, Nat.add_right_comm, streamValue_succ_head, List.cons_append,
      List.headD_cons, List.tail_cons, ih, bitsValue_cons, pow_add]
    ring

/-! ### DEC.START -/

/-- A shift takes the next bit of the stream into the window. -/
theorem DecPath.Reads.shiftWindow (h : d.Reads c) (off : Nat) :
    ∃ e, shiftWindow c off d = .done () e ∧ e.Reads c ∧ e.unread c = (d.unread c).tail ∧
      e.reg.window = 2 * (d.reg.window - off) + ((d.unread c).headD true).toNat ∧
      ShiftFrame d e := by
  obtain ⟨b, e, hd, hr, he⟩ := h.nextBit
  have hf := hr.frame
  have hw : e.reg.window = d.reg.window := by rw [hf]
  simp only [Machine.shiftWindow, hd, andThen_done]
  refine ⟨_, rfl, ⟨he.ready, he.keeps⟩, hr.unread, ?_, ?_⟩
  · rw [hw, hr.bit]
  · rw [ShiftFrame, hf]

/-- Filling reads as many bits, the first as the highest. -/
theorem DecPath.Reads.fillWindow (h : d.Reads c) (n : Nat) :
    ∃ e, fillWindow c n d = .done () e ∧ e.Reads c ∧ e.unread c = (d.unread c).drop n ∧
      e.reg.window = d.reg.window * 2 ^ n + streamValue n (d.unread c) ∧ ShiftFrame d e := by
  induction n generalizing d with
  | zero => exact ⟨d, rfl, h, rfl, by simp [streamValue_zero], rfl⟩
  | succ n ih =>
    obtain ⟨d₁, hd₁, h₁, hun₁, hw₁, hf₁⟩ := h.shiftWindow 0
    obtain ⟨e, he, hre, hun, hw, hf⟩ := ih h₁
    refine ⟨e, by rw [Machine.fillWindow, hd₁, andThen_done, he], hre, ?_, ?_, ?_⟩
    · rw [hun, hun₁, List.drop_tail]
    · rw [hw, hw₁, hun₁, streamValue_succ_head, Nat.sub_zero, pow_succ]
      ring
    · rw [ShiftFrame] at hf₁ hf ⊢
      rw [hf, hf₁]

/-- DEC.START's cleared registers read the input stream from its start. -/
theorem decCleared_reads (r : Dec) {q : Source} (hfits : ∀ x ∈ q.replies, x.fitsPort c = true)
    (hkeeps : q.KeepsContract c) : DecPath.Reads c ⟨Dec.cleared c r, q⟩ :=
  ⟨⟨Nat.zero_le _, bufferOk_zero _ _, fun _ => rfl, hfits⟩, hkeeps⟩

/-- What DEC.START leaves in DEC: the interval is the whole, and the window holds the first bits. -/
theorem decOpenStream_done (hfits : ∀ x ∈ d.source.replies, x.fitsPort c = true)
    (hkeeps : d.source.KeepsContract c) :
    ∃ e, decOpenStream c d = .done () e ∧ e.Reads c ∧
      e.unread c = (inputBits c d.source.replies).drop c.rangeBits ∧
      e.reg = { Dec.cleared c d.reg with
        phase := .active, window := streamValue c.rangeBits (inputBits c d.source.replies),
        exhausted := e.reg.exhausted, buf := e.reg.buf, left := e.reg.left } := by
  obtain ⟨e, he, hre, hun, hw, hf⟩ := (decCleared_reads d.reg hfits hkeeps).fillWindow c.rangeBits
  have hstart : (DecPath.mk (Dec.cleared c d.reg) d.source).unread c = inputBits c d.source.replies := by
    simp [DecPath.unread, Dec.cleared]
  rw [hstart] at hun hw
  have hw' : e.reg.window = streamValue c.rangeBits (inputBits c d.source.replies) := by
    simpa [Dec.cleared] using hw
  refine ⟨e.setPhase .active, by rw [decOpenStream, he, andThen_done], ⟨hre.ready, hre.keeps⟩, hun, ?_⟩
  rw [← hw']
  simp only [DecPath.setPhase]
  rw [hf]

/-- Settles O51: the cleared registers, then the window filled from the start of the stream. -/
theorem decStartFillsTheWindow : Obligations.DecStartFillsTheWindow := by
  intro s hfits hkeeps
  obtain ⟨e, he, -, hun, hreg⟩ := decOpenStream_done (d := s.decPath) hfits hkeeps
  exact ⟨e.reg, e.source, by rw [exec_decStart, he]; rfl, hreg, hun⟩

end Sys2Proof.Machine
end

section
/-!
DEC.SCALE: the latched value, and the symbol that a table has for it (`42_decoder.md` rules R134 and
R138).
-/
namespace Sys2Proof.Machine

variable {c : Config} {total start v x : Nat} {table : List Prob} {p : Prob}

/-! ### Fixed tables -/

theorem tableFrom_cons : tableFrom c total start (p :: table) = true ↔
    (p.pl = start ∧ p.pt = total ∧ ProbOk c p.pl p.pu p.pt) ∧ tableFrom c total p.pu table = true := by
  rw [tableFrom, Bool.and_eq_true, decide_eq_true_eq]

/-- Every symbol's interval is legal, has the table's total, and begins at or after the table's start. -/
theorem tableFrom_getElem (h : tableFrom c total start table = true) (hx : table[x]? = some p) :
    start ≤ p.pl ∧ p.pt = total ∧ ProbOk c p.pl p.pu p.pt := by
  induction table generalizing start x with
  | nil => simp at hx
  | cons q table ih =>
    obtain ⟨⟨hl, ht, hq⟩, hrest⟩ := tableFrom_cons.1 h
    cases x with
    | zero =>
      cases hx
      exact ⟨hl.ge, ht, hq⟩
    | succ x =>
      obtain ⟨hle, hp⟩ := ih hrest hx
      obtain ⟨hlt, -⟩ := hq
      exact ⟨by omega, hp⟩

theorem symbolFor_cons : symbolFor (p :: table) v =
    if p.pl ≤ v ∧ v < p.pu then some 0 else (symbolFor table v).map (· + 1) := by
  simp only [symbolFor, List.findIdx?_cons, decide_eq_true_eq]

/-- The intervals leave no gap. -/
theorem exists_symbolFor (h : tableFrom c total start table = true) (hl : start ≤ v)
    (hu : v < total) : ∃ x, symbolFor table v = some x := by
  induction table generalizing start with
  | nil =>
    have : start = total := of_decide_eq_true h
    omega
  | cons q table ih =>
    obtain ⟨⟨hq, -, -⟩, hrest⟩ := tableFrom_cons.1 h
    rw [symbolFor_cons]
    split
    · exact ⟨0, rfl⟩
    · obtain ⟨x, hx⟩ := ih hrest (by omega)
      exact ⟨x + 1, by rw [hx, Option.map_some]⟩

/-- The intervals do not overlap: a value is found at the symbol whose interval holds it. -/
theorem symbolFor_of_mem (h : tableFrom c total start table = true) (hx : table[x]? = some p)
    (hl : p.pl ≤ v) (hu : v < p.pu) : symbolFor table v = some x := by
  induction table generalizing start x with
  | nil => simp at hx
  | cons q table ih =>
    obtain ⟨-, hrest⟩ := tableFrom_cons.1 h
    rw [symbolFor_cons]
    cases x with
    | zero =>
      cases hx
      exact if_pos ⟨hl, hu⟩
    | succ x =>
      obtain ⟨hle, -⟩ := tableFrom_getElem hrest hx
      rw [if_neg (by omega), ih hrest hx, Option.map_some]

/-! ### The latched value -/

/-- The value of an open decoder's window is below the total, which fits `FREQ_BITS` bits. -/
theorem scaledValue_lt {d : Dec} (h : d.Inv c) (ho : d.Open) (ht : TotalOk c total) :
    scaledValue d total < total ∧ scaledValue d total < 2 ^ c.freqBits := by
  obtain ⟨-, -, -, hopen, -⟩ := h
  obtain ⟨⟨-, -, -, hr, -⟩, hlw, hwu⟩ := hopen ho
  obtain ⟨hpos, hmax⟩ := ht
  have hlt : scaledValue d total < total := freqScale_lt_total hpos (by omega)
  have hf := c.succ_freqMax
  exact ⟨hlt, by omega⟩

/-- Settles O52: the command's own path, the bound of FSC, and a table without gaps. -/
theorem decScaleLatchesTheScaledValue : Obligations.DecScaleLatchesTheScaledValue := by
  intro s total h ho hpos hmax v
  obtain ⟨hlt, hbits⟩ := scaledValue_lt h.dec ho ⟨hpos, hmax⟩
  exact ⟨hlt, hbits, exec_decScale_runs (openStreamCheck_eq_none.2 ho) ⟨hpos, hmax⟩,
    fun table ht => exists_symbolFor ht (Nat.zero_le _) hlt⟩

end Sys2Proof.Machine
end

section
/-!
DEC.NARROW beside the decoder on lists of bits: the two loops go through the same iterations
(`42_decoder.md` rules R135 and R136).
-/
namespace Sys2Proof.Machine

variable {c : Config} {d d₀ : DecPath} {t : DecTrace} {k : RenormCase} {fuel : Nat}

/-! ### One iteration on a list of bits -/

/-- One iteration of `refDecode`, in the case that `classify` chose. -/
def DecTrace.next (c : Config) (k : RenormCase) (t : DecTrace) : DecTrace :=
  ⟨transformBound c k t.lower, transformBound c k t.upper,
    2 * (t.window - caseOffset c k) + (t.unread.headD true).toNat, t.unread.tail⟩

theorem refDecode_stop (h : classify c t.lower t.upper = none) :
    refDecode c (fuel + 1) t = some t := by
  obtain ⟨hu, hl, hor⟩ := classify_eq_none_iff.1 h
  rw [refDecode, if_neg (by omega), if_neg (by omega), if_neg (by omega)]

theorem refDecode_iterate (h : classify c t.lower t.upper = some k) :
    refDecode c (fuel + 1) t = refDecode c fuel (t.next c k) := by
  cases k with
  | e1 =>
    rw [refDecode, if_pos (classify_eq_e1_iff.1 h)]
    rfl
  | e2 =>
    obtain ⟨hu, hl⟩ := classify_eq_e2_iff.1 h
    rw [refDecode, if_neg (by omega), if_pos hl]
    rfl
  | e3 =>
    obtain ⟨hu, hl, hin⟩ := classify_eq_e3_iff.1 h
    rw [refDecode, if_neg (by omega), if_neg (by omega), if_pos hin]
    rfl

/-! ### The simulation -/

/-- `t` is what became of DEC between `d₀` and `d`: its interval, its window and the bits to come, with
no other register changed but the input's. -/
structure Follows (c : Config) (d₀ d : DecPath) (t : DecTrace) : Prop where
  reads : d.Reads c
  unread : d.unread c = t.unread
  reg : d.reg = { d₀.reg with
    lower := t.lower, upper := t.upper, window := t.window, exhausted := d.reg.exhausted,
    buf := d.reg.buf, left := d.reg.left }

/-- One iteration of DEC's loop is one iteration of the reference. -/
theorem Follows.decStep (h : Follows c d₀ d t) (k : RenormCase) :
    ∃ d', decStep c k d = .done () d' ∧ Follows c d₀ d' (t.next c k) := by
  obtain ⟨hreads, hun, hreg⟩ := h
  have hmoved : (d.transform c k).Reads c := ⟨hreads.ready, hreads.keeps⟩
  obtain ⟨d', hd', hreads', hun', hw', hf⟩ := hmoved.shiftWindow (caseOffset c k)
  have hsame : (d.transform c k).unread c = t.unread := hun
  rw [hsame] at hun' hw'
  have hwin : d.reg.window = t.window := by rw [hreg]
  have hl : d.reg.lower = t.lower := by rw [hreg]
  have hu : d.reg.upper = t.upper := by rw [hreg]
  rw [decPath_transform_window, hwin] at hw'
  refine ⟨d', hd', hreads', hun', ?_⟩
  rw [ShiftFrame, hw', DecPath.transform, hl, hu, hreg] at hf
  exact hf

/-- The loops come to the same end where the interval lets both come to their end. -/
theorem Follows.decRenorm (h : Follows c d₀ d t) (hc : Converges c fuel t.lower t.upper) :
    ∃ d' t', decRenorm c fuel d = .done () d' ∧ refDecode c fuel t = some t' ∧
      Follows c d₀ d' t' := by
  induction fuel generalizing d t with
  | zero => exact absurd hc not_converges_zero
  | succ fuel ih =>
    have hbounds : classify c d.reg.lower d.reg.upper = classify c t.lower t.upper := by rw [h.reg]
    cases hk : classify c t.lower t.upper with
    | none => exact ⟨d, t, decRenorm_stop (hbounds.trans hk), refDecode_stop hk, h⟩
    | some k =>
      obtain ⟨d₁, hd₁, h₁⟩ := h.decStep k
      obtain ⟨d', t', hd', ht', h'⟩ := ih h₁ (hc.transform hk)
      exact ⟨d', t', by rw [decRenorm_iterate (hbounds.trans hk), hd₁, andThen_done, hd'],
        by rw [refDecode_iterate hk, ht'], h'⟩

/-- What DEC.NARROW leaves in DEC is what the reference gives. -/
theorem decNarrowSymbol_done {pl pu pt : Nat} (h : d.Reads c)
    (hi : IntervalOk c d.reg.lower d.reg.upper d.reg.range) (hp : ProbOk c pl pu pt) :
    ∃ d' r, refNarrow c d pl pu pt = some r ∧ decNarrowSymbol c pl pu pt d = .done () d' ∧
      d'.Reads c ∧ d'.unread c = r.unread ∧
      d'.reg = { d.reg with
        phase := .active, lower := r.lower, upper := r.upper, range := r.upper - r.lower,
        window := r.window, exhausted := d'.reg.exhausted, buf := d'.reg.buf, left := d'.reg.left } := by
  have hstart : Follows c d (d.narrow pl pu pt) ⟨d.reg.lower + d.reg.range * pl / pt,
      d.reg.lower + d.reg.range * pu / pt, d.reg.window, d.unread c⟩ :=
    ⟨⟨h.ready, h.keeps⟩, rfl, rfl⟩
  obtain ⟨e, r, he, hr, hreads, hun, hreg⟩ := hstart.decRenorm (converges_narrow hi hp)
  refine ⟨e.updateRange.setPhase .active, r, hr, by rw [decNarrowSymbol, he, andThen_done],
    ⟨hreads.ready, hreads.keeps⟩, hun, ?_⟩
  simp only [DecPath.updateRange, DecPath.setPhase]
  rw [hreg]

/-- Settles O53: the loop ends as the reference does, and the range is the width of the interval it
leaves. -/
theorem decNarrowRefinesTheBitListDecoder : Obligations.DecNarrowRefinesTheBitListDecoder := by
  intro s pl pu pt h hs hkeeps hn
  obtain ⟨⟨-, -, -, -, hleft, hbuf, hex, -⟩, -, -, hopen, -⟩ := h.dec
  obtain ⟨hi, -⟩ := hopen (.inr hs)
  have hreads : s.decPath.Reads s.cfg := ⟨⟨hleft, hbuf, hex, h.source⟩, hkeeps⟩
  obtain ⟨d, r, hr, hd, -, hun, hreg⟩ := decNarrowSymbol_done hreads hi hn.1
  exact ⟨r, d.reg, d.source, hr,
    by rw [exec_decNarrow_runs (scaledStepCheck_eq_none.2 hs) hn, hd]; rfl, hreg, hun⟩

end Sys2Proof.Machine
end

section
/-!
ENC and DEC side by side: equal intervals, moved by the same Prob, stay equal, whatever else the two
units hold (`42_decoder.md` rule R139).
-/
namespace Sys2Proof.Machine

variable {c : Config} {e e' : EncPath} {d d' : DecPath} {s t : State}

/-! ### Commands that were answered OK -/

/-- The last response is OK. -/
def State.AnsweredOk (s : State) : Prop := (s.responses.getLast?).map Response.code = some .ok

theorem answeredOk_of_responses {v : Word} (h : t.responses = s.responses ++ [⟨.ok, v⟩]) :
    t.AnsweredOk := by
  simp [State.AnsweredOk, h]

@[simp] theorem answeredOk_respond {k : Code} {v : Nat} : (s.respond k v).AnsweredOk ↔ k = .ok := by
  simp [State.AnsweredOk]

theorem not_answeredOk_raiseEnc (f : StreamFault) : ¬ (s.raiseEnc f).AnsweredOk := fun h =>
  toCode_ne_ok f (answeredOk_respond.1 h)

theorem not_answeredOk_raiseDec (f : StreamFault) : ¬ (s.raiseDec f).AnsweredOk := fun h =>
  toCode_ne_ok f (answeredOk_respond.1 h)

theorem endEnc_answersOk {r : Run EncPath Unit} (ht : s.endEnc r = .next t) (hok : t.AnsweredOk) :
    ∃ e, r = .done () e ∧ t = (s.withEncPath e).respond .ok 0 := by
  rcases endEnc_eq_next ht with hdone | ⟨f, e, -, rfl⟩
  · exact hdone
  · exact absurd hok (not_answeredOk_raiseEnc f)

theorem endDec_answersOk {r : Run DecPath Unit} (ht : s.endDec r = .next t) (hok : t.AnsweredOk) :
    ∃ d, r = .done () d ∧ t = (s.withDecPath d).respond .ok 0 := by
  rcases endDec_eq_next ht with hdone | ⟨f, d, -, rfl⟩
  · exact hdone
  · exact absurd hok (not_answeredOk_raiseDec f)

/-- No phase check answers OK. -/
theorem openStreamCheck_ne_ok (p : Phase) : openStreamCheck p ≠ some .ok := by cases p <;> decide

/-- ENC.PUT answers OK only where its checks passed and its primitives ran to their end. -/
theorem exec_encPut_answersOk {pl pu pt : Nat} (ht : exec (.encPut pl pu pt) s = .next t)
    (hok : t.AnsweredOk) :
    ProbOk s.cfg pl pu pt ∧ ∃ e, encPutSymbol s.cfg pl pu pt s.encPath = .done () e ∧
      t = (s.withEncPath e).respond .ok 0 := by
  cases hk : openStreamCheck s.enc.phase with
  | some k =>
    rw [exec_encPut_notOpen hk] at ht
    cases ht
    cases answeredOk_respond.1 hok
    exact absurd hk (openStreamCheck_ne_ok _)
  | none =>
    by_cases hp : ProbOk s.cfg pl pu pt
    · exact ⟨hp, endEnc_answersOk (exec_encPut_runs hk hp ▸ ht) hok⟩
    · rw [exec_encPut_emodel hk hp] at ht
      cases ht
      exact absurd hok (not_answeredOk_raiseEnc _)

/-- ENC.FINISH answers OK only where its primitives ran to their end. -/
theorem exec_encFinish_answersOk (ht : exec .encFinish s = .next t) (hok : t.AnsweredOk) :
    ∃ e, encFinishStream s.cfg s.encPath = .done () e ∧ t = (s.withEncPath e).respond .ok 0 := by
  cases hk : openStreamCheck s.enc.phase with
  | some k =>
    rw [exec_encFinish_notOpen hk] at ht
    cases ht
    cases answeredOk_respond.1 hok
    exact absurd hk (openStreamCheck_ne_ok _)
  | none => exact endEnc_answersOk (exec_encFinish_runs hk ▸ ht) hok

/-! ### The bounds of the interval -/

/-- Where one iteration of ENC's loop goes on, it has moved both bounds through its case. -/
theorem encStep_bounds (k : RenormCase) :
    (encStep c k e).Meets (fun e' => e'.reg.lower = transformBound c k e.reg.lower ∧
      e'.reg.upper = transformBound c k e.reg.upper) fun _ _ => True := by
  have hkeeps {r : Run EncPath Unit} (hr : r.Holds e.held) :
      r.Meets (EncPath.HoldsInterval e.held) fun _ _ => True :=
    meets_imp hr (fun _ => holdsInterval_of_held) fun _ _ _ => trivial
  cases k with
  | e1 =>
    exact meets_andThen (hkeeps (emitWithPending_holds false rfl)) fun _ _ ⟨hl, hu, _⟩ =>
      ⟨congrArg (transformBound c .e1) hl, congrArg (transformBound c .e1) hu⟩
  | e2 =>
    exact meets_andThen (hkeeps (emitWithPending_holds true rfl)) fun _ _ ⟨hl, hu, _⟩ =>
      ⟨congrArg (transformBound c .e2) hl, congrArg (transformBound c .e2) hu⟩
  | e3 =>
    exact meets_andThen (hkeeps (deferBit_holds rfl)) fun _ _ ⟨hl, hu, _⟩ =>
      ⟨congrArg (transformBound c .e3) hl, congrArg (transformBound c .e3) hu⟩

/-- Reading a bit writes the registers of the input only, from every state. -/
theorem nextBit_shiftFrame : (nextBit c d).Leaves (ShiftFrame d) := by
  rw [nextBit_eq]
  split
  · rfl
  split
  · unfold callSource
    split
    · trivial
    unfold takeUnit
    split
    · rfl
    split
    · rfl
    · rfl
  · rfl

/-- A shift writes the window and the registers of the input only. -/
theorem shiftWindow_shiftFrame (off : Nat) : (shiftWindow c off d).Leaves (ShiftFrame d) := by
  refine meets_andThen nextBit_shiftFrame fun b d' h => ?_
  rw [meets_done, ShiftFrame, h]

theorem fillWindow_shiftFrame (n : Nat) : (fillWindow c n d).Leaves (ShiftFrame d) := by
  induction n generalizing d with
  | zero => exact rfl
  | succ n ih =>
    refine meets_andThen (shiftWindow_shiftFrame 0) fun _ d₁ h₁ => ?_
    have htrans (d' : DecPath) (h : ShiftFrame d₁ d') : ShiftFrame d d' := by
      rw [ShiftFrame] at h₁ h ⊢
      rw [h, h₁]
    exact meets_imp ih htrans fun _ => htrans

/-- Where one iteration of DEC's loop goes on, it has moved both bounds through its case. -/
theorem decStep_bounds (k : RenormCase) :
    (decStep c k d).Meets (fun d' => d'.reg.lower = transformBound c k d.reg.lower ∧
      d'.reg.upper = transformBound c k d.reg.upper) fun _ _ => True := by
  refine meets_imp (shiftWindow_shiftFrame _) (fun d' h => ?_) fun _ _ _ => trivial
  rw [h]
  exact ⟨rfl, rfl⟩

/-- From equal bounds the two loops choose the same cases and end with equal bounds. -/
theorem renorm_lockstep {fuel : Nat} (hl : e.reg.lower = d.reg.lower) (hu : e.reg.upper = d.reg.upper)
    (he : encRenorm c fuel e = .done () e') (hd : decRenorm c fuel d = .done () d') :
    e'.reg.lower = d'.reg.lower ∧ e'.reg.upper = d'.reg.upper := by
  induction fuel generalizing e d with
  | zero => cases he
  | succ fuel ih =>
    have hsame : classify c e.reg.lower e.reg.upper = classify c d.reg.lower d.reg.upper := by rw [hl, hu]
    cases hk : classify c d.reg.lower d.reg.upper with
    | none =>
      rw [encRenorm_stop (hsame.trans hk)] at he
      rw [decRenorm_stop hk] at hd
      cases he
      cases hd
      exact ⟨hl, hu⟩
    | some k =>
      rw [encRenorm_iterate (hsame.trans hk), andThen_eq_done] at he
      rw [decRenorm_iterate hk, andThen_eq_done] at hd
      obtain ⟨_, e₁, hs, he⟩ := he
      obtain ⟨_, d₁, hs', hd⟩ := hd
      have hb := encStep_bounds (c := c) (e := e) k
      have hb' := decStep_bounds (c := c) (d := d) k
      rw [hs, meets_done, hl, hu] at hb
      rw [hs', meets_done] at hb'
      exact ih (hb.1.trans hb'.1.symm) (hb.2.trans hb'.2.symm) he hd

/-- Where DEC.START goes on, it has opened the whole interval, from every state. -/
theorem decOpenStream_bounds :
    (decOpenStream c d).Meets (fun d' => d'.reg.lower = 0 ∧ d'.reg.upper = c.rangeMax ∧
      d'.reg.range = c.rangeMax) fun _ _ => True := by
  have hfill := meets_imp (fillWindow_shiftFrame (c := c) (d := ⟨Dec.cleared c d.reg, d.source⟩)
    c.rangeBits) (fun _ h => h) (Q' := fun _ _ => True) fun _ _ _ => trivial
  refine meets_andThen hfill fun _ d' h => ?_
  rw [meets_done, decPath_setPhase_lower, decPath_setPhase_upper, decPath_setPhase_range, h]
  exact ⟨rfl, rfl, rfl⟩

/-- Settles O56: both STARTs open the whole interval, and both loops move equal bounds alike. -/
theorem encoderAndDecoderStayInLockstep : Obligations.EncoderAndDecoderStayInLockstep := by
  refine ⟨fun s u t v hcfg ht hv hok => ?_,
    fun s u t v pl pu pt hcfg hl hu hr ht hokt hv hokv => ?_⟩
  · rw [exec_encStart] at ht
    cases ht
    obtain ⟨d, hd, rfl⟩ := endDec_answersOk hv (answeredOk_of_responses hok)
    have hbounds := decOpenStream_bounds (c := u.cfg) (d := u.decPath)
    rw [hd, meets_done, ← hcfg] at hbounds
    obtain ⟨hl, hu, hr⟩ := hbounds
    exact ⟨hl.symm, hu.symm, hr.symm⟩
  · obtain ⟨-, e, he, rfl⟩ := exec_encPut_answersOk ht (answeredOk_of_responses hokt)
    obtain ⟨d, hd, rfl⟩ := exec_decNarrow_answersOk hv hokv
    obtain ⟨_, e₁, hloop, he⟩ := andThen_eq_done.1 he
    obtain ⟨_, d₁, hloop', hd⟩ := andThen_eq_done.1 hd
    cases he
    cases hd
    rw [hcfg] at hloop
    obtain ⟨hl', hu'⟩ := renorm_lockstep (by simp [hl, hr]) (by simp [hl, hr]) hloop hloop'
    exact ⟨hl', hu', by simp [hl', hu']⟩

end Sys2Proof.Machine
end

section
/-!
ENC answered OK beside any Sink: the bits of a symbol and of ENC.FINISH are those of the encoder on lists
of bits, because a Sink that stalls changes no answer (`20_memory.md` rule R57, `41_encoder.md` rules R113
to R121).
-/
namespace Sys2Proof.Machine

variable {c : Config} {e e' : EncPath}

/-- The same encoder beside a Sink that accepts every unit. -/
def EncPath.accepting (e : EncPath) : EncPath := { e with sink := { e.sink with room := none } }

/-- A run that goes on beside the port that stalls goes on beside the one that completes. -/
theorem Stall.Limits.done_of_done {σ α : Type} {p : Stall σ} {I : σ → Prop} {m : Nat} {r : Run σ α}
    {a : α} {v : σ} (h : p.Limits I m r (.done a v)) (hm : m ≤ p.bound) :
    ∃ u, r = .done a u ∧ v = p.stall u := by
  have hout := h.outcome hm
  cases r with
  | done b u =>
    rw [Stall.outcome] at hout
    split at hout
    · cases hout
      exact ⟨u, rfl, rfl⟩
    · cases hout
  | raised f u =>
    rw [Stall.outcome] at hout
    split at hout <;> cases hout
  | stuck f => cases hout

/-- What ENC does beside its Sink and goes on from, it does beside one that accepts every unit. -/
theorem accepting_done {f : EncPath → Run EncPath Unit} {I : EncPath → Prop}
    (hf : ∀ n, (sinkStall n).Limits I e.sink.units.length (f e.accepting)
      (f ((sinkStall n).stall e.accepting)))
    (h : f e = .done () e') :
    ∃ v, f e.accepting = .done () v ∧ v.reg = e'.reg ∧ v.sink.units = e'.sink.units := by
  obtain ⟨reg, units, room⟩ := e
  cases room with
  | none => exact ⟨e', h, rfl, rfl⟩
  | some n =>
    have hlimits := hf (units.length + n)
    have hstall : (sinkStall (units.length + n)).stall (EncPath.accepting ⟨reg, units, some n⟩) =
        ⟨reg, units, some n⟩ := by
      simp [sinkStall, Sink.limited, EncPath.accepting]
    rw [hstall, h] at hlimits
    obtain ⟨v, hv, rfl⟩ := hlimits.done_of_done (Nat.le_add_right _ _)
    exact ⟨v, hv, rfl, rfl⟩

theorem written_congr (hreg : e'.reg = e.reg) (hunits : e'.sink.units = e.sink.units) :
    e'.written c = e.written c := by
  rw [EncPath.written, EncPath.written, hreg, hunits]

/-- A symbol that ENC has encoded wrote the bits of the reference, and left its interval and counter. -/
theorem encPutSymbol_done {pl pu pt : Nat} (hready : e.Ready c)
    (hi : IntervalOk c e.reg.lower e.reg.upper e.reg.range) (hp : ProbOk c pl pu pt)
    (h : encPutSymbol c pl pu pt e = .done () e') :
    ∃ r, refPut c e.reg pl pu pt = some r ∧ e'.written c = e.written c ++ r.bits ∧
      e'.reg.lower = r.lower ∧ e'.reg.upper = r.upper ∧ e'.reg.pending = r.pending := by
  obtain ⟨v, hv, hreg, hunits⟩ :=
    accepting_done (e := e) (fun n => encPutSymbol_limits (n := n) (e := e.accepting) rfl hi hp) h
  obtain ⟨_, e₁, hloop, hend⟩ := andThen_eq_done.1 hv
  cases hend
  have hends := encRenorm_narrow_endsAs (e := e.accepting) hready rfl hi hp
  rw [hloop] at hends
  cases hr : refPut c e.accepting.reg pl pu pt with
  | none =>
    rw [hr] at hends
    exact absurd hends id
  | some r =>
    rw [hr] at hends
    obtain ⟨w, htr⟩ := hends
    refine ⟨r, hr, (written_congr hreg hunits).symm.trans w.written, ?_⟩
    rw [← hreg, encPath_updateRange_lower, encPath_updateRange_upper, encPath_updateRange_pending, htr]
    exact ⟨rfl, rfl, rfl⟩

theorem encFinalBits_of_overflow (h : FinishOverflows c e.reg) :
    encFinalBits c e = .raised .epending e := by
  obtain ⟨hl, hu, hp⟩ := h
  simp [encFinalBits, hl, hu, deferBit, hp]

/-- An ENC.FINISH that went on has sent everything written, and then the final bits. -/
theorem encFinishStream_done (hready : e.Ready c) (h : encFinishStream c e = .done () e') :
    outputBits c e'.sink.units = e.written c ++ refFinalBits c e.reg := by
  obtain ⟨v, hv, -, hunits⟩ :=
    accepting_done (e := e) (fun n => encFinishStream_limits (n := n) (e := e.accepting) rfl) h
  obtain ⟨_, e₁, hfinal, hv⟩ := andThen_eq_done.1 hv
  obtain ⟨_, e₂, hflush, hv⟩ := andThen_eq_done.1 hv
  cases hv
  have hroom : ¬ FinishOverflows c e.accepting.reg := fun ho => by
    rw [encFinalBits_of_overflow ho] at hfinal
    cases hfinal
  obtain ⟨e₁', hfinal', w, -⟩ := encFinalBits_emits (e := e.accepting) hready rfl hroom
  rw [hfinal'] at hfinal
  cases hfinal
  obtain ⟨k, hflush', hout⟩ := encFlush_of_accepts w.ready (w.room rfl)
  rw [hflush'] at hflush
  cases hflush
  rw [← hunits]
  exact hout.trans w.written

end Sys2Proof.Machine
end

section
/-!
What a decoder sees of the bits that ENC has still to write. While `p` bits are deferred, the window of a
decoder in step with ENC is the value of the next `RANGE_BITS + p` bits less what the `p` cases E3 took
off, `HALF * (2 ^ p - 1)`. Where ENC's later bits put that window inside its later interval, they put the
window before them inside the interval before them, so the claim of rule R140 is proved from the end of
the stream backwards (`40_interval.md` rules R102 and R103, `42_decoder.md` rules R136, R137 and R140).
-/
namespace Sys2Proof.Machine

variable {c : Config} {l u p p' w w' : Nat} {y y' : List Bool} {k : RenormCase} {t t' : EncTrace}

/-! ### The values of the bits that ENC writes -/

theorem two_pow_rangeBits (c : Config) : 2 ^ c.rangeBits = 2 * c.half := by
  rw [c.half_eq_two_quarters, ← Config.rangeMax, c.rangeMax_eq_four_quarters]
  omega

theorem two_pow_rangeBits_pred (c : Config) : 2 ^ (c.rangeBits - 1) = c.half := by
  have hR : c.rangeBits - 1 + 1 = c.rangeBits := by
    have := c.freq_le_range
    omega
  have h2 := two_pow_rangeBits c
  rw [← hR, pow_succ] at h2
  omega

theorem bitsValue_replicate_false (n : Nat) : bitsValue (List.replicate n false) = 0 := by
  induction n with
  | zero => rfl
  | succ n ih => simp [List.replicate_succ, bitsValue_cons, ih]

theorem succ_bitsValue_replicate_true (n : Nat) : bitsValue (List.replicate n true) + 1 = 2 ^ n := by
  induction n with
  | zero => rfl
  | succ n ih =>
    rw [List.replicate_succ, bitsValue_cons, List.length_replicate, Nat.add_assoc, ih, pow_succ]
    simp [Nat.mul_two]

theorem succ_bitsValue_resolvedBits (b : Bool) (p : Nat) :
    bitsValue (resolvedBits b p) + 1 = 2 ^ p + b.toNat := by
  rw [resolvedBits, bitsValue_cons, List.length_replicate]
  cases b with
  | false => simpa using succ_bitsValue_replicate_true p
  | true => simp [bitsValue_replicate_false]

/-- A stream of ones, which filler continues. -/
theorem succ_streamValue_ones (n k : Nat) : streamValue n (List.replicate k true) + 1 = 2 ^ n := by
  have hones : paddedTake n (List.replicate k true) = List.replicate n true := by
    rw [paddedTake, List.take_replicate, List.length_replicate, List.replicate_append_replicate]
    congr 1
    omega
  rw [streamValue, hones, succ_bitsValue_replicate_true]

/-- A bit with its `p` complements in front of a stream. -/
theorem streamValue_resolvedBits (c : Config) (b : Bool) (p : Nat) (y : List Bool) :
    streamValue (c.rangeBits + p + 1) (resolvedBits b p ++ y) + 2 * c.half =
      2 * (c.half * 2 ^ p) + 2 * (b.toNat * c.half) + streamValue c.rangeBits y := by
  have hlen : c.rangeBits + p + 1 = (resolvedBits b p).length + c.rangeBits := by
    rw [resolvedBits_length]
    omega
  have hval := succ_bitsValue_resolvedBits b p
  rw [hlen, streamValue_append, two_pow_rangeBits]
  calc bitsValue (resolvedBits b p) * (2 * c.half) + streamValue c.rangeBits y + 2 * c.half
      = (bitsValue (resolvedBits b p) + 1) * (2 * c.half) + streamValue c.rangeBits y := by ring
    _ = _ := by rw [hval]; ring

/-! ### One iteration, backwards -/

/-- `w` is the window that a decoder in step with ENC has on the bits `y` to come, while ENC has `p` bits
deferred, and it lies in the interval from `l` to `u`. -/
structure Sees (c : Config) (l u p : Nat) (y : List Bool) (w : Nat) : Prop where
  lower_le : l ≤ w
  lt_upper : w < u
  value : w + c.half * 2 ^ p = streamValue (c.rangeBits + p) y + c.half

/-- That decoder, on a list of bits. -/
def seenTrace (c : Config) (l u p : Nat) (y : List Bool) (w : Nat) : DecTrace :=
  ⟨l, u, w, y.drop (c.rangeBits + p)⟩

/-- The bits of one iteration, in front of those after it: the value that DEC reads, and where it reads
on. -/
theorem refStep_stream (ht : refStep c k t = some t')
    (hv : w' + c.half * 2 ^ t'.pending = streamValue (c.rangeBits + t'.pending) y' + c.half) :
    ∃ new, t'.bits = t.bits ++ new ∧
      2 * caseOffset c k + w' + 2 * (c.half * 2 ^ t.pending) =
        streamValue (c.rangeBits + t.pending + 1) (new ++ y') + 2 * c.half ∧
      (new ++ y').drop (c.rangeBits + t.pending + 1) = y'.drop (c.rangeBits + t'.pending) := by
  have hdrop (b : Bool) : (resolvedBits b t.pending ++ y').drop (c.rangeBits + t.pending + 1) =
      y'.drop c.rangeBits := by
    rw [List.drop_append, List.drop_of_length_le (by rw [resolvedBits_length]; omega),
      resolvedBits_length, List.nil_append]
    congr 1
    omega
  cases k with
  | e1 =>
    cases ht
    have hres := streamValue_resolvedBits c false t.pending y'
    simp only [EncTrace.resolve, pow_zero, mul_one, Nat.add_zero] at hv
    refine ⟨_, rfl, ?_, hdrop false⟩
    simp only [caseOffset_e1, Bool.toNat_false, zero_mul] at hres ⊢
    omega
  | e2 =>
    cases ht
    have hres := streamValue_resolvedBits c true t.pending y'
    simp only [EncTrace.resolve, pow_zero, mul_one, Nat.add_zero] at hv
    refine ⟨_, rfl, ?_, hdrop true⟩
    simp only [caseOffset_e2, Bool.toNat_true, one_mul] at hres ⊢
    omega
  | e3 =>
    rw [refStep] at ht
    split at ht
    · cases ht
    · cases ht
      have h2 := c.half_eq_two_quarters
      have hpow : c.half * 2 ^ (t.pending + 1) = 2 * (c.half * 2 ^ t.pending) := by
        rw [pow_succ]
        ring
      refine ⟨[], (List.append_nil _).symm, ?_, rfl⟩
      simp only [hpow, caseOffset_e3, List.nil_append, ← Nat.add_assoc] at hv ⊢
      omega

/-- The window before an iteration is half the window after it, on the case's offset; the bit read is the
other half. -/
theorem Sees.before (h : Sees c (transformBound c k l) (transformBound c k u) p' y' w')
    (hl : caseOffset c k ≤ l)
    (hv : 2 * caseOffset c k + w' + 2 * (c.half * 2 ^ p) =
      streamValue (c.rangeBits + p + 1) y + 2 * c.half) :
    Sees c l u p y (caseOffset c k + w' / 2) ∧
      ((y.drop (c.rangeBits + p)).headD true).toNat = w' % 2 := by
  obtain ⟨hlw, hwu, -⟩ := h
  rw [streamValue_succ] at hv
  have hbit := ((y.drop (c.rangeBits + p)).headD true).toNat_le
  rw [transformBound_eq] at hlw hwu
  exact ⟨⟨by omega, by omega, by omega⟩, by omega⟩

/-- One iteration of ENC's loop, seen from the bits after it: its own bits in front of them put the window
in the interval before it, and DEC's iteration leads to the window after it. -/
theorem refStep_sees (hlu : t.lower < t.upper) (hu : t.upper ≤ c.rangeMax)
    (hk : classify c t.lower t.upper = some k) (ht : refStep c k t = some t')
    (h : Sees c t'.lower t'.upper t'.pending y' w') :
    ∃ new w, t'.bits = t.bits ++ new ∧ Sees c t.lower t.upper t.pending (new ++ y') w ∧
      (seenTrace c t.lower t.upper t.pending (new ++ y') w).next c k =
        seenTrace c t'.lower t'.upper t'.pending y' w' := by
  obtain ⟨hoff, -⟩ := window_of_classify hlu hu hk
  obtain ⟨hl', hu'⟩ := refStep_bounds ht
  obtain ⟨new, hbits, hv, hdrop⟩ := refStep_stream ht h.value
  rw [hl', hu'] at h ⊢
  obtain ⟨hsees, hbit⟩ := h.before hoff hv
  refine ⟨new, _, hbits, hsees, ?_⟩
  simp only [DecTrace.next, seenTrace, List.tail_drop, hbit, hdrop, Nat.add_sub_cancel_left,
    Nat.div_add_mod]

/-- The whole loop, seen from the bits after it. -/
theorem refRenorm_sees {fuel : Nat} (hc : Converges c fuel t.lower t.upper)
    (ht : refRenorm c fuel t = some t') (h : Sees c t'.lower t'.upper t'.pending y' w') :
    ∃ new w, t'.bits = t.bits ++ new ∧ Sees c t.lower t.upper t.pending (new ++ y') w ∧
      refDecode c fuel (seenTrace c t.lower t.upper t.pending (new ++ y') w) =
        some (seenTrace c t'.lower t'.upper t'.pending y' w') := by
  induction fuel generalizing t with
  | zero => exact absurd hc not_converges_zero
  | succ fuel ih =>
    cases hk : classify c t.lower t.upper with
    | none =>
      rw [refRenorm_stop hk] at ht
      cases ht
      exact ⟨[], w', (List.append_nil _).symm, h, refDecode_stop hk⟩
    | some k =>
      rw [refRenorm_iterate hk, Option.bind_eq_some_iff] at ht
      obtain ⟨t₁, ht₁, ht⟩ := ht
      obtain ⟨new', w₁, hbits', h₁, hdec⟩ := ih (hc.refStep hk ht₁) ht
      obtain ⟨new, w, hbits, hsees, hnext⟩ := refStep_sees hc.nonempty hc.le_max hk ht₁ h₁
      refine ⟨new ++ new', w, by rw [hbits', hbits, List.append_assoc], ?_, ?_⟩
      · rwa [List.append_assoc]
      · rw [refDecode_iterate hk, List.append_assoc, hnext, hdec]

/-! ### The end of the stream -/

/-- Ones alone put the window at the top of the whole. -/
theorem sees_ones (k : Nat) (hl : l < c.half) :
    Sees c l c.rangeMax 0 (List.replicate k true) (c.rangeMax - 1) := by
  have hmax := c.rangeMax_eq_four_quarters
  have hhalf := c.half_eq_two_quarters
  have hones := succ_streamValue_ones c.rangeBits k
  rw [two_pow_rangeBits] at hones
  exact ⟨by omega, by omega, by rw [pow_zero, Nat.add_zero]; omega⟩

/-- A 0 and its complements, which the ones after them continue, put the window just below HALF. -/
theorem sees_zero (q k : Nat) (hl : l < c.half) (hu : c.half < u) :
    Sees c l u p (resolvedBits false q ++ List.replicate k true) (c.half - 1) := by
  have hbits : resolvedBits false q ++ List.replicate k true =
      false :: List.replicate (q + k) true := by
    simp [resolvedBits, List.replicate_append_replicate]
  have hlen : c.rangeBits + p = c.rangeBits - 1 + p + 1 := by
    have := c.freq_le_range
    omega
  have hones := succ_streamValue_ones (c.rangeBits - 1 + p) (q + k)
  rw [pow_add, two_pow_rangeBits_pred] at hones
  refine ⟨by omega, by omega, ?_⟩
  rw [hbits, hlen, streamValue_succ_head]
  simp only [List.headD_cons, List.tail_cons, Bool.toNat_false, zero_mul]
  omega

/-- A 1 and `q` zeros, with `m` more bits in the window, all ones. -/
theorem succ_streamValue_one {q m : Nat} (k : Nat) (hm : c.rangeBits + p = q + 1 + m) :
    streamValue (c.rangeBits + p) (resolvedBits true q ++ List.replicate k true) + 1 =
      c.half * 2 ^ p + 2 ^ m := by
  have hval : bitsValue (resolvedBits true q) = 2 ^ q := by
    simpa using succ_bitsValue_resolvedBits true q
  have hpow : 2 * (2 ^ q * 2 ^ m) = 2 * (c.half * 2 ^ p) := by
    rw [← mul_assoc 2 c.half, ← two_pow_rangeBits, ← pow_add, ← pow_add, hm]
    ring
  have hones := succ_streamValue_ones m k
  have happ := streamValue_append (resolvedBits true q) (List.replicate k true) m
  rw [resolvedBits_length, ← hm, hval] at happ
  omega

/-- A 1 and the complements of the deferred bits put the window at the top of the whole. -/
theorem sees_top (k : Nat) (hl : l < c.half) :
    Sees c l c.rangeMax p (resolvedBits true p ++ List.replicate k true) (c.rangeMax - 1) := by
  have hmax := c.rangeMax_eq_four_quarters
  have hhalf := c.half_eq_two_quarters
  have hval := succ_streamValue_one (c := c) (p := p) (q := p) (m := c.rangeBits - 1) k
    (by have := c.freq_le_range; omega)
  rw [two_pow_rangeBits_pred] at hval
  exact ⟨by omega, by omega, by omega⟩

/-- One complement more puts the window just below THREE_QUARTERS. -/
theorem sees_threeQuarters (k : Nat) (hl : l < c.half) (hu : c.threeQuarters < u) :
    Sees c l u p (resolvedBits true (p + 1) ++ List.replicate k true) (c.threeQuarters - 1) := by
  have hhalf := c.half_eq_two_quarters
  have h3 := c.threeQuarters_eq
  have hq := c.two_le_quarter
  have hval := succ_streamValue_one (c := c) (p := p) (q := p + 1) (m := c.rangeBits - 2) k
    (by have := c.freq_le_range; have := c.freq_pos; omega)
  rw [← c.quarter_eq_pow] at hval
  exact ⟨by omega, by omega, by omega⟩

/-- The final bits and any ones after them put the window in ENC's last interval, row by row of rule
R121's table. -/
theorem refFinalBits_sees {e : Enc} (k : Nat) (h : IntervalOk c e.lower e.upper e.range) :
    ∃ w, Sees c e.lower e.upper e.pending (refFinalBits c e ++ List.replicate k true) w := by
  obtain ⟨hl, hu, -, -, -, hor⟩ := h
  have hhigh (hq : c.quarter ≤ e.lower) : c.threeQuarters < e.upper := by omega
  unfold refFinalBits
  split
  case isTrue hl0 =>
    split
    case isTrue hp =>
      split
      case isTrue hmax =>
        rw [hp, hmax]
        exact ⟨_, sees_ones k hl⟩
      case isFalse => exact ⟨_, sees_zero 0 k hl hu⟩
    case isFalse => exact ⟨_, sees_zero _ k hl hu⟩
  case isFalse =>
    split
    case isTrue hmax =>
      rw [hmax]
      split
      case isTrue hp =>
        rw [hp]
        exact ⟨_, sees_top k hl⟩
      case isFalse =>
        by_cases hq : c.quarter ≤ e.lower
        · rw [decide_eq_true hq]
          exact ⟨_, sees_top k hl⟩
        · rw [decide_eq_false hq]
          exact ⟨_, sees_zero _ k hl (hmax ▸ hu)⟩
    case isFalse =>
      by_cases hq : c.quarter ≤ e.lower
      · rw [decide_eq_true hq]
        exact ⟨_, sees_threeQuarters k hl (hhigh hq)⟩
      · rw [decide_eq_false hq]
        exact ⟨_, sees_zero _ k hl hu⟩

end Sys2Proof.Machine
end

section
/-!
The round trip of rule R140: ENC and DEC in step with each other, symbol by symbol.
-/
namespace Sys2Proof.Machine

variable {c : Config} {s t u : State} {table : List Prob} {total x : Nat} {p : Prob}

/-! ### Commands that were answered OK -/

theorem runOk_eq_some {i : Instr} : runOk i s = some t ↔ exec i s = .next t ∧ t.AnsweredOk := by
  rw [runOk]
  cases exec i s with
  | next t' =>
    by_cases hok : t'.AnsweredOk
    · simp only [if_pos (show (t'.responses.getLast?).map Response.code = some .ok from hok),
        Option.some.injEq, Host.Outcome.next.injEq]
      exact ⟨fun h => ⟨h, h ▸ hok⟩, And.left⟩
    · simp only [if_neg (show ¬ (t'.responses.getLast?).map Response.code = some .ok from hok),
        Host.Outcome.next.injEq, reduceCtorEq, false_iff]
      rintro ⟨rfl, h⟩
      exact hok h
  | fault f => simp
  | refused r => simp

theorem runOk_of_respond {i : Instr} {v : Nat} (h : exec i s = .next (t.respond .ok v)) :
    runOk i s = some (t.respond .ok v) := runOk_eq_some.2 ⟨h, answeredOk_respond.2 rfl⟩

/-! ### ENC -/

/-- ENC has an open stream and meets its invariant. -/
structure State.EncOpen (s : State) : Prop where
  rests : s.encPath.Rests s.cfg
  active : s.enc.phase = .active

theorem State.EncOpen.interval (h : s.EncOpen) :
    IntervalOk s.cfg s.enc.lower s.enc.upper s.enc.range := by
  obtain ⟨-, -, -, -, hopen, -⟩ := h.rests.inv
  exact hopen h.active

theorem State.EncOpen.ready (h : s.EncOpen) : s.encPath.Ready s.cfg := by
  obtain ⟨⟨-, -, -, -, hready⟩, -⟩ := h.rests.inv
  exact hready

/-- ENC.START opens a stream with nothing written. -/
theorem encStart_opens (hunits : s.sink.units = []) (h : runOk .encStart s = some t) :
    t.EncOpen ∧ t.cfg = s.cfg ∧ t.encPath = ⟨Enc.opened s.cfg, s.sink⟩ ∧
      t.encPath.written s.cfg = [] := by
  obtain ⟨ht, -⟩ := runOk_eq_some.1 h
  rw [exec_encStart] at ht
  cases ht
  refine ⟨⟨⟨encOpened_inv s.cfg, rfl, ?_⟩, rfl⟩, rfl, rfl, ?_⟩
  · show ∀ u ∈ s.sink.units, u.Sent s.cfg
    simp [hunits]
  · show outputBits s.cfg s.sink.units ++ topBitList s.cfg 0 0 = []
    simp [hunits, outputBits]

/-- A symbol answered OK leaves the stream open, with the reference's bits written. -/
theorem encPut_step (h : s.EncOpen) (ht : runOk (.encPut p.pl p.pu p.pt) s = some t) :
    t.EncOpen ∧ t.cfg = s.cfg ∧ ProbOk s.cfg p.pl p.pu p.pt ∧
      ∃ r, refPut s.cfg s.enc p.pl p.pu p.pt = some r ∧
        t.encPath.written s.cfg = s.encPath.written s.cfg ++ r.bits ∧
        t.enc.lower = r.lower ∧ t.enc.upper = r.upper ∧ t.enc.pending = r.pending := by
  obtain ⟨hexec, hok⟩ := runOk_eq_some.1 ht
  obtain ⟨hp, e, he, rfl⟩ := exec_encPut_answersOk hexec hok
  have hrests := encPutSymbol_meets h.rests h.active hp
  have hstatus := encPutSymbol_holdsStatus (c := s.cfg) (e := s.encPath) (v := s.enc)
    p.pl p.pu p.pt ⟨rfl, rfl⟩
  rw [he] at hrests hstatus
  obtain ⟨hphase, -⟩ := hstatus
  exact ⟨⟨hrests, hphase.trans h.active⟩, rfl, hp, encPutSymbol_done h.ready h.interval hp he⟩

/-- ENC.FINISH answered OK has sent everything, with the final bits last. -/
theorem encFinish_sends (h : s.EncOpen) (ht : runOk .encFinish s = some t) :
    outputBits s.cfg t.sink.units = s.encPath.written s.cfg ++ refFinalBits s.cfg s.enc := by
  obtain ⟨hexec, hok⟩ := runOk_eq_some.1 ht
  obtain ⟨e, he, rfl⟩ := exec_encFinish_answersOk hexec hok
  exact encFinishStream_done h.ready he

/-! ### DEC in step with ENC -/

/-- DEC stands where ENC, with the registers `e`, has written every bit before `y`: with ENC's interval,
the window `w`, and the bits to come after those in the window and those deferred. -/
structure InStep (c : Config) (e : Enc) (y : List Bool) (w : Nat) (d : DecPath) : Prop where
  reads : d.Reads c
  rests : d.Rests c
  active : d.reg.phase = .active
  lower : d.reg.lower = e.lower
  upper : d.reg.upper = e.upper
  range : d.reg.range = e.range
  window : d.reg.window = w
  unread : d.unread c = y.drop (c.rangeBits + e.pending)

/-- Narrow on ENC's registers (rule R100). -/
def Enc.narrow (p : Prob) (e : Enc) : Enc :=
  { e with lower := e.lower + e.range * p.pl / p.pt, upper := e.lower + e.range * p.pu / p.pt }

/-- `w` is the window that DEC has where ENC, with the registers `e`, has the bits `y` to write, and it
lies in ENC's interval. -/
abbrev Enc.SeenAs (c : Config) (e : Enc) (y : List Bool) (w : Nat) : Prop :=
  Sees c e.lower e.upper e.pending y w

/-- The symbol with the interval `p` takes ENC from `e` to `e'`, and a decoder on lists of bits from the
window `w` on the bits `y` to the window `w'` on the bits `y'`. -/
structure SymbolSeen (c : Config) (p : Prob) (e : Enc) (y : List Bool) (w : Nat) (e' : Enc)
    (y' : List Bool) (w' : Nat) : Prop where
  inside : (e.narrow p).SeenAs c y w
  decodes : refDecode c (c.rangeBits + 1)
      (seenTrace c (e.narrow p).lower (e.narrow p).upper e.pending y w) =
    some (seenTrace c e'.lower e'.upper e'.pending y' w')
  range : e'.range = e'.upper - e'.lower

/-- The bits of a symbol, in front of those after it, put the window in ENC's interval before it. -/
theorem encPut_seen (h : s.EncOpen) (ht : runOk (.encPut p.pl p.pu p.pt) s = some t) :
    ∃ bits, t.encPath.written s.cfg = s.encPath.written s.cfg ++ bits ∧
      ∀ y' w', t.enc.SeenAs s.cfg y' w' → ∃ w, s.enc.SeenAs s.cfg (bits ++ y') w ∧
        SymbolSeen s.cfg p s.enc (bits ++ y') w t.enc y' w' := by
  obtain ⟨hopen, -, hp, r, href, hwritten, hl, hu, hpend⟩ := encPut_step h ht
  refine ⟨r.bits, hwritten, fun y' w' hsees => ?_⟩
  obtain ⟨-, hle⟩ := narrow_bounds h.interval hp
  obtain ⟨-, -, -, hrange, -⟩ := hopen.interval
  rw [Enc.SeenAs, hl, hu, hpend] at hsees
  obtain ⟨new, w, hnew, hin, hdec⟩ := refRenorm_sees (converges_narrow h.interval hp) href hsees
  rw [List.nil_append] at hnew
  subst hnew
  rw [← hl, ← hu, ← hpend] at hdec
  exact ⟨w, ⟨(Nat.le_add_right _ _).trans hin.lower_le, hin.lt_upper.trans_le hle, hin.value⟩,
    hin, hdec, hrange⟩

/-- The value of a window that a narrowed interval holds lies in that interval's Prob (rule R137). -/
theorem freqScale_mem {v r pl pu t : Nat} (hr : 0 < r) (ht : 0 < t) (hl : r * pl / t ≤ v)
    (hu : v < r * pu / t) : pl ≤ freqScale v r t ∧ freqScale v r t < pu := by
  rw [← Nat.lt_add_one_iff, Nat.div_lt_iff_lt_mul ht, mul_comm r] at hl
  rw [← Nat.add_one_le_iff, Nat.le_div_iff_mul_le ht, mul_comm r] at hu
  rw [le_freqScale_iff_mul_le hr, ← not_le, le_freqScale_iff_mul_le hr]
  omega

/-- DEC.START puts DEC in step with ENC after its START. -/
theorem decOpenStream_inStep {d : DecPath} {y : List Bool} {w : Nat}
    (hfits : ∀ r ∈ d.source.replies, r.fitsPort c = true) (hkeeps : d.source.KeepsContract c)
    (hy : inputBits c d.source.replies = y) (hw : Sees c 0 c.rangeMax 0 y w) :
    ∃ d', decOpenStream c d = .done () d' ∧ InStep c (Enc.opened c) y w d' := by
  obtain ⟨d', hd, hreads, hun, hreg⟩ := decOpenStream_done hfits hkeeps
  have hrests := decOpenStream_meets hfits
  rw [hd, meets_done] at hrests
  have hval : w = streamValue c.rangeBits y := by simpa using hw.value
  rw [hy] at hun hreg
  refine ⟨d', hd, hreads, hrests, ?_, ?_, ?_, ?_, ?_, hun⟩ <;> rw [hreg]
  exacts [rfl, rfl, rfl, hval.symm]

/-- The scaled value of a decoder in step lies in the Prob that ENC encodes next. -/
theorem InStep.scaledValue_mem {d : DecPath} {e : Enc} {y : List Bool} {w : Nat}
    (h : InStep c e y w d) (hp : ProbOk c p.pl p.pu p.pt) (hin : (e.narrow p).SeenAs c y w) :
    p.pl ≤ scaledValue d.reg p.pt ∧ scaledValue d.reg p.pt < p.pu := by
  obtain ⟨-, -, -, hopen, -⟩ := h.rests.inv
  obtain ⟨hi, -, -⟩ := hopen (.inl h.active)
  have hrange := total_lt_range hi hp
  obtain ⟨hlu, hut, -⟩ := hp
  have hl := hin.lower_le
  have hu := hin.lt_upper
  simp only [Enc.narrow, ← h.lower, ← h.range, ← h.window] at hl hu
  have hlw := (Nat.le_add_right _ _).trans hl
  exact freqScale_mem (by omega) (by omega) (by omega) (by omega)

/-- DEC after a DEC.SCALE that ran. -/
def DecPath.latched (total : Nat) (d : DecPath) : DecPath := { d with reg := d.reg.latch total }

/-- DEC.SCALE and DEC.NARROW with the symbol that ENC encoded keep DEC in step with ENC. -/
theorem InStep.narrow {d : DecPath} {e e' : Enc} {y y' : List Bool} {w w' : Nat}
    (h : InStep c e y w d) (hp : ProbOk c p.pl p.pu p.pt) (hs : SymbolSeen c p e y w e' y' w') :
    NarrowOk c (d.latched p.pt).reg p.pl p.pu p.pt ∧
      ∃ d', decNarrowSymbol c p.pl p.pu p.pt (d.latched p.pt) = .done () d' ∧
        InStep c e' y' w' d' := by
  obtain ⟨-, -, -, hopen, -⟩ := h.rests.inv
  obtain ⟨hi, -, -⟩ := hopen (.inl h.active)
  obtain ⟨hl, hu⟩ := h.scaledValue_mem hp hs.inside
  have hn : NarrowOk c (d.latched p.pt).reg p.pl p.pu p.pt := ⟨hp, rfl, hl, hu⟩
  have hrests : (d.latched p.pt).Rests c := by
    obtain ⟨hlu, hut, hmax⟩ := hp
    exact ⟨decLatch_inv h.rests.inv (.inl h.active) ⟨by omega, hmax⟩, h.rests.noFault, h.rests.fits⟩
  obtain ⟨d', r, hr, hd', hreads, hun, hreg⟩ :=
    decNarrowSymbol_done (d := d.latched p.pt) ⟨h.reads.ready, h.reads.keeps⟩ hi hp
  have hrests' := decNarrowSymbol_meets hrests rfl hn
  rw [hd', meets_done] at hrests'
  have href : refNarrow c (d.latched p.pt) p.pl p.pu p.pt =
      some (seenTrace c e'.lower e'.upper e'.pending y' w') := by
    rw [← hs.decodes, seenTrace, Enc.narrow, ← h.lower, ← h.range, ← h.window, ← h.unread]
    rfl
  rw [href] at hr
  cases hr
  refine ⟨hn, d', hd', hreads, hrests', ?_, ?_, ?_, ?_, ?_, hun⟩ <;> rw [hreg]
  exacts [rfl, rfl, hs.range.symm, rfl]

/-- The block after a DEC.SCALE that ran. -/
def State.latched (s : State) (total : Nat) : State :=
  State.respond { s with dec := s.dec.latch total } .ok (scaledValue s.dec total)

/-- DEC.SCALE on an open stream answers the scaled value, which the response's VALUE does not cut. -/
theorem decScale_answersScaledValue (hi : u.dec.Inv u.cfg) (ho : u.dec.Open)
    (ht : TotalOk u.cfg total) :
    runOk (.decScale total) u = some (u.latched total) ∧
      ∃ r, (u.latched total).responses.getLast? = some r ∧
        r.value.toNat = scaledValue u.dec total := by
  refine ⟨runOk_of_respond (exec_decScale_runs (openStreamCheck_eq_none.2 ho) ht),
    _, List.getLast?_concat, ?_⟩
  obtain ⟨-, hlt⟩ := scaledValue_lt hi ho ht
  have hbits : u.cfg.freqBits ≤ 64 := by
    have := u.cfg.freq_le_range
    have := u.cfg.range_le
    omega
  exact Nat.mod_eq_of_lt (hlt.trans_le (two_pow_le_two_pow_64 hbits))

/-- One decode step finds the symbol that ENC encoded. -/
theorem getSymbols_step {e e' : Enc} {y y' : List Bool} {w w' : Nat}
    (htable : tableFrom u.cfg total 0 table = true) (hx : table[x]? = some p)
    (h : InStep u.cfg e y w u.decPath) (hs : SymbolSeen u.cfg p e y w e' y' w') :
    ∃ v, v.cfg = u.cfg ∧ InStep u.cfg e' y' w' v.decPath ∧
      ∀ n, getSymbols table total (n + 1) u = (getSymbols table total n v).map (x :: ·) := by
  obtain ⟨-, rfl, hp⟩ := tableFrom_getElem htable hx
  obtain ⟨hl, hu⟩ := h.scaledValue_mem hp hs.inside
  obtain ⟨hn, d', hd', hstep⟩ := h.narrow hp hs
  have htotal : TotalOk u.cfg p.pt := by
    obtain ⟨hlu, hut, hmax⟩ := hp
    exact ⟨by omega, hmax⟩
  obtain ⟨hscale, r, hlast, hvalue⟩ := decScale_answersScaledValue h.rests.inv (.inl h.active) htotal
  have hfound : symbolFor table r.value.toNat = some x := by
    rw [hvalue]
    exact symbolFor_of_mem htable hx hl hu
  have hnarrow : runOk (.decNarrow p.pl p.pu p.pt) (u.latched p.pt) =
      some (((u.latched p.pt).withDecPath d').respond .ok 0) := by
    refine runOk_of_respond ?_
    rw [exec_decNarrow_runs (s := u.latched p.pt) (scaledStepCheck_eq_none.2 rfl) hn]
    exact congrArg (State.endDec _) hd'
  refine ⟨((u.latched p.pt).withDecPath d').respond .ok 0, rfl, hstep, fun n => ?_⟩
  simp only [getSymbols, hscale, hlast, hfound, hx, hnarrow, Option.bind_some]

/-! ### Both units -/

/-- What ENC encodes, DEC decodes, where the bits after these put the window in ENC's later interval. -/
theorem getSymbols_of_putSymbols {symbols : List Nat}
    (htable : tableFrom c total 0 table = true) (hs : s.EncOpen) (hcfg : s.cfg = c)
    (ht : putSymbols table symbols s = some t) :
    t.EncOpen ∧ t.cfg = c ∧ ∃ bits, t.encPath.written c = s.encPath.written c ++ bits ∧
      ∀ y' w', t.enc.SeenAs c y' w' → ∃ w, s.enc.SeenAs c (bits ++ y') w ∧
        ∀ u : State, u.cfg = c → InStep c s.enc (bits ++ y') w u.decPath →
          getSymbols table total symbols.length u = some symbols := by
  induction symbols generalizing s with
  | nil =>
    cases ht
    exact ⟨hs, hcfg, [], (List.append_nil _).symm, fun y' w' h => ⟨w', h, fun _ _ _ => rfl⟩⟩
  | cons x symbols ih =>
    subst hcfg
    rw [putSymbols] at ht
    cases hx : table[x]? with
    | none => simp [hx] at ht
    | some p =>
      simp only [hx] at ht
      obtain ⟨s₁, hput, ht⟩ := Option.bind_eq_some_iff.1 ht
      obtain ⟨hs₁, hcfg₁, -⟩ := encPut_step hs hput
      obtain ⟨first, hfirst, hbefore⟩ := encPut_seen hs hput
      obtain ⟨htopen, htcfg, bits, hbits, hafter⟩ := ih hs₁ hcfg₁ ht
      refine ⟨htopen, htcfg, first ++ bits, by rw [hbits, hfirst, List.append_assoc],
        fun y' w' h' => ?_⟩
      obtain ⟨w₁, h₁, hdecodes⟩ := hafter y' w' h'
      obtain ⟨w, h, hsymbol⟩ := hbefore _ w₁ h₁
      rw [List.append_assoc]
      refine ⟨w, h, fun u hu hstep => ?_⟩
      rw [← hu] at htable hstep hsymbol
      obtain ⟨v, hv, hstep', hget⟩ := getSymbols_step htable hx hstep hsymbol
      rw [hu] at hv hstep'
      rw [List.length_cons, hget, hdecodes v hv hstep', Option.map_some]

/-- Settles O57: the final bits and the ones after them put the window in ENC's last interval, so the
bits before them put it in every earlier one, and DEC finds each symbol there. -/
theorem decodingRecoversWhatWasEncoded : Obligations.DecodingRecoversWhatWasEncoded := by
  rintro s t u table total symbols htable hunits henc hcfg hfits ⟨hkeeps, k, hbits⟩
  obtain ⟨s₂, hputs, hfinish⟩ := Option.bind_eq_some_iff.1 henc
  obtain ⟨s₁, hstart, hputs⟩ := Option.bind_eq_some_iff.1 hputs
  obtain ⟨hopen₁, hcfg₁, hpath₁, hnone⟩ := encStart_opens hunits hstart
  obtain ⟨hopen₂, hcfg₂, bits, hwritten, hdecodes⟩ :=
    getSymbols_of_putSymbols htable hopen₁ hcfg₁ hputs
  have hsent := encFinish_sends hopen₂ hfinish
  rw [hcfg₂, hwritten, hnone, List.nil_append] at hsent
  obtain ⟨w₂, hw₂⟩ := refFinalBits_sees k hopen₂.interval
  rw [hcfg₂] at hw₂
  obtain ⟨w, hw, hget⟩ := hdecodes _ w₂ hw₂
  have henc₁ : s₁.enc = Enc.opened s.cfg := congrArg EncPath.reg hpath₁
  rw [henc₁] at hw hget
  rw [← hcfg] at hsent hw hget
  rw [hsent, List.append_assoc] at hbits
  obtain ⟨d, hd, hstep⟩ := decOpenStream_inStep (d := u.decPath) hfits hkeeps hbits hw
  have hrun : runOk .decStart u = some ((u.withDecPath d).respond .ok 0) :=
    runOk_of_respond (by rw [exec_decStart, hd, endDec_done])
  rw [decodeSymbols, hrun, Option.bind_some]
  exact hget _ rfl hstep

end Sys2Proof.Machine
end

section
/-!
The frequency-scale mapper: FScale is the exact inverse of narrowing, and FSCALE answers it on its domain
(`43_fscale.md` rules R150 to R156).
-/
namespace Sys2Proof.Machine

variable {v v' range total x : Nat}

/-! ### The function -/

/-- FScale and the narrowing map are a Galois connection (rule R153). -/
theorem le_freqScale_iff (hr : 0 < range) (ht : 0 < total) :
    x ≤ freqScale v range total ↔ range * x / total ≤ v := by
  constructor
  · intro h
    exact (narrow_contains_window hr ht h (Nat.lt_succ_self _)).1
  · intro h
    by_contra hx
    exact (narrow_contains_window hr ht (Nat.zero_le _) (not_le.1 hx)).2.not_ge h

theorem freqScale_lt_iff (hr : 0 < range) (ht : 0 < total) :
    freqScale v range total < x ↔ v < range * x / total := by
  rw [← not_le, le_freqScale_iff hr ht, not_le]

theorem freqScale_isGreatest (hr : 0 < range) (ht : 0 < total) :
    IsGreatest { x | range * x / total ≤ v } (freqScale v range total) :=
  ⟨(le_freqScale_iff hr ht).1 le_rfl, fun _ hx => (le_freqScale_iff hr ht).2 hx⟩

/-- The decoder's containment check is the window lying in the narrowed interval (rule R137). -/
theorem freqScale_mem_iff_window_mem_narrow {lower window pl pu : Nat} (hr : 0 < range) (ht : 0 < total)
    (hl : lower ≤ window) :
    (pl ≤ freqScale (window - lower) range total ∧ freqScale (window - lower) range total < pu) ↔
      ((narrow lower range pl pu total).1 ≤ window ∧ window < (narrow lower range pl pu total).2) := by
  rw [le_freqScale_iff hr ht, freqScale_lt_iff hr ht, narrow_fst, narrow_snd]
  omega

/-- Where the total is at most the range, neighbouring values of `x` go to different places. -/
theorem narrowed_lt_narrowed_succ (ht : 0 < total) (htr : total ≤ range) :
    range * x / total < range * (x + 1) / total := by
  calc range * x / total < (range * x + total) / total := by
        rw [Nat.add_div_right _ ht]
        exact Nat.lt_succ_self _
    _ ≤ range * (x + 1) / total := Nat.div_le_div_right (Nat.add_le_add_left htr _)

/-- The inverse law (rule R154), which does not need `x ≤ total`. -/
theorem freqScale_narrowed (ht : 0 < total) (htr : total ≤ range) :
    freqScale (range * x / total) range total = x := by
  have hr : 0 < range := ht.trans_le htr
  apply le_antisymm
  · rw [← Nat.lt_succ_iff, freqScale_lt_iff hr ht]
    exact narrowed_lt_narrowed_succ ht htr
  · rw [le_freqScale_iff hr ht]

theorem freqScale_mono (h : v ≤ v') : freqScale v range total ≤ freqScale v' range total :=
  Nat.div_le_div_right (Nat.sub_le_sub_right (Nat.mul_le_mul_right total (Nat.succ_le_succ h)) 1)

/-- At maximum precision every window value is its own scaled value (rule R155). -/
theorem freqScale_self (hr : 0 < range) : freqScale v range range = v := by
  have h := freqScale_narrowed (x := v) hr le_rfl
  rwa [Nat.mul_div_cancel_left v hr] at h

theorem freqScale_one (hv : v < range) : freqScale v range 1 = 0 :=
  Nat.lt_one_iff.1 (freqScale_lt_total Nat.one_pos hv)

/-- Settles O28: each part is the Galois connection read one way. -/
theorem fscaleInvertsNarrowing : Obligations.FscaleInvertsNarrowing := by
  intro v range total ht htr
  have hr : 0 < range := ht.trans htr
  refine ⟨fun x _ => le_freqScale_iff hr ht, fun _ => freqScale_isGreatest hr ht, ?_⟩
  rintro lower window pl pu hl rfl - -
  exact freqScale_mem_iff_window_mem_narrow hr ht hl

/-- Settles O29. -/
theorem fscaleInverseLaw : Obligations.FscaleInverseLaw :=
  fun _ _ _ ht htr _ => freqScale_narrowed ht htr

/-- Settles O31: both values are the inverse law at `x = 1`, where the forward variant rounds down to 0. -/
theorem forwardVariantIsNotFscale : Obligations.ForwardVariantIsNotFscale :=
  ⟨rfl, freqScale_narrowed (range := 65536) (total := 7) (x := 1) (by decide) (by decide), rfl,
    freqScale_narrowed (range := 65536) (total := 3) (x := 1) (by decide) (by decide), rfl⟩

/-! ### The command -/

theorem freqMax_lt_rangeMax (c : Config) : c.freqMax < c.rangeMax :=
  freqMax_lt_range (intervalOk_full c)

/-- An answer of FSCALE fits the response's 64 bits (rules R79 and R151). -/
theorem freqScale_lt_two_pow_64 {c : Config} (h : FscaleDomain c v range total) :
    freqScale v range total < 2 ^ 64 := by
  obtain ⟨-, ⟨hpos, hmax⟩, -, hv⟩ := h
  have hlt := freqScale_lt_total hpos hv
  have hfreq := freqMax_lt_rangeMax c
  have hrange := c.two_mul_rangeMax_le
  omega

/-- The greatest legal total is a legal range too, so `total = range` is in the domain (rule R155). -/
theorem fscaleDomain_self {c : Config} (hv : v < range) (hmax : range ≤ c.freqMax) :
    FscaleDomain c v range range := by
  have hfreq := freqMax_lt_rangeMax c
  exact ⟨⟨by omega, by omega⟩, ⟨by omega, hmax⟩, le_rfl, hv⟩

/-- Settles O27: the statement's domain is the model's `FscaleDomain`, and each side has its own path. -/
theorem fscaleAnswersTheExactInverse : Obligations.FscaleAnswersTheExactInverse := by
  intro s v range total inDomain value
  have hdomain : inDomain ↔ FscaleDomain s.cfg v range total := by
    simp only [inDomain, FscaleDomain, and_assoc, Config.rangeMax, Config.freqMax]
  rw [hdomain]
  exact ⟨fun h => ⟨freqScale_lt_two_pow_64 h, exec_fscale_inDomain h⟩, exec_fscale_outOfDomain⟩

/-- Settles O30: the bounds of FScale, FSCALE's path at `total = range`, and the width of an open
stream's interval. -/
theorem fscaleValueRange : Obligations.FscaleValueRange := by
  refine ⟨fun v range total ht _ hv => ?_, fun s v range hv hmax => ?_, fun s total h ho ⟨_, hmax⟩ => ?_⟩
  · have hr : 0 < range := Nat.zero_lt_of_lt hv
    exact ⟨Nat.le_sub_one_of_lt (freqScale_lt_total ht hv), fun _ => freqScale_mono,
      freqScale_self hr, freqScale_one hv⟩
  · have hanswer := exec_fscale_inDomain (fscaleDomain_self hv hmax)
    rwa [freqScale_self (Nat.zero_lt_of_lt hv)] at hanswer
  · obtain ⟨-, -, -, hopen, -⟩ := h.dec
    obtain ⟨hinterval, -⟩ := hopen ho
    exact hmax.trans_lt (freqMax_lt_range hinterval)

end Sys2Proof.Machine
end

section
/-!
NOP (`44_system.md` rule R160).
-/
namespace Sys2Proof.Machine

theorem exec_nop (s : State) : exec .nop s = .next (s.respond .ok 0) := rfl

/-- Settles O25: NOP is `respond(OK, 0)` and nothing else, and that appends one response to the state. -/
theorem nopOnlyAnswersOk : Obligations.NopOnlyAnswersOk := exec_nop

end Sys2Proof.Machine
end

section
/-!
Every way in which a command ends: its phase check rejects it, it answers, or its unit's primitives go on
or raise a stream fault (`60_exceptions.md` rules R172 to R174 and R182).
-/
namespace Sys2Proof.Machine

variable {s t : State} {i : Instr} {k : Code}

/-! ### The phase check -/

/-- The error that the phase of its unit makes a command answer, if any (rule R173). -/
def phaseError (s : State) : Instr → Option Code
  | .encPut _ _ _ | .encFinish => openStreamCheck s.enc.phase
  | .decScale _ => openStreamCheck s.dec.phase
  | .decNarrow _ _ _ => scaledStepCheck s.dec.phase
  | .nop | .rdreg _ | .encStart | .decStart | .fscale _ _ _ => none

theorem exec_of_phaseError (h : phaseError s i = some k) : exec i s = .next (s.respond k 0) := by
  cases i with
  | encPut pl pu pt => exact exec_encPut_notOpen h
  | encFinish => exact exec_encFinish_notOpen h
  | decScale total => exact exec_decScale_notOpen h
  | decNarrow pl pu pt => exact exec_decNarrow_notScaled h
  | nop | rdreg | encStart | decStart | fscale => cases h

/-- The cells of rule R173's table that name an error. -/
theorem phaseError_cells (h : phaseError s i = some k) :
    (k = .eseq ∨ k = .efaulted) ∧
    ((i.opcode = 0x11 ∨ i.opcode = 0x12) ∧ (s.enc.phase = .idle ∨ s.enc.phase = .fault) ∨
      i.opcode = 0x21 ∧ (s.dec.phase = .idle ∨ s.dec.phase = .fault) ∨
      i.opcode = 0x22 ∧ s.dec.phase ≠ .scaled) := by
  cases i with
  | encPut | encFinish =>
    rcases openStreamCheck_eq_some.1 h with ⟨hp, rfl⟩ | ⟨hp, rfl⟩ <;> simp [Instr.opcode, hp]
  | decScale =>
    rcases openStreamCheck_eq_some.1 h with ⟨hp, rfl⟩ | ⟨hp, rfl⟩ <;> simp [Instr.opcode, hp]
  | decNarrow =>
    rcases scaledStepCheck_eq_some.1 h with ⟨hp, rfl⟩ | ⟨hp | hp, rfl⟩ <;> simp [Instr.opcode, hp]
  | nop | rdreg | encStart | decStart | fscale => cases h

theorem phaseError_of_enc_fault (h : s.enc.phase = .fault) (hi : i.opcode / 16 = 1)
    (hstart : i ≠ .encStart) : phaseError s i = some .efaulted := by
  cases i with
  | encPut | encFinish => exact openStreamCheck_eq_some.2 (.inl ⟨h, rfl⟩)
  | encStart => exact absurd rfl hstart
  | nop | rdreg | decStart | decScale | decNarrow | fscale => simp [Instr.opcode] at hi

theorem phaseError_of_dec_fault (h : s.dec.phase = .fault) (hi : i.opcode / 16 = 2)
    (hstart : i ≠ .decStart) : phaseError s i = some .efaulted := by
  cases i with
  | decScale => exact openStreamCheck_eq_some.2 (.inl ⟨h, rfl⟩)
  | decNarrow => exact scaledStepCheck_eq_some.2 (.inl ⟨h, rfl⟩)
  | decStart => exact absurd rfl hstart
  | nop | rdreg | encStart | encPut | encFinish | fscale => simp [Instr.opcode] at hi

/-! ### The ends of a command -/

/-- The next states of a command, by how it ended. -/
inductive EndsIn (i : Instr) (s : State) : State → Prop
  | rejected {k : Code} (hk : phaseError s i = some k) : EndsIn i s (s.respond k 0)
  | answered {k : Code} {v : Nat} (hk : k ∈ [.ok, .edomain, .ebadreg]) : EndsIn i s (s.respond k v)
  | encDone (e : EncPath) (hi : i.opcode / 16 = 1) : EndsIn i s ((s.withEncPath e).respond .ok 0)
  | encRaised (f : StreamFault) (e : EncPath) (hi : i.opcode / 16 = 1) :
    EndsIn i s ((s.withEncPath e).raiseEnc f)
  | decDone (d : DecPath) (v : Nat) (hi : i.opcode / 16 = 2) :
    EndsIn i s ((s.withDecPath d).respond .ok v)
  | decRaised (f : StreamFault) (d : DecPath) (hi : i.opcode / 16 = 2) :
    EndsIn i s ((s.withDecPath d).raiseDec f)

theorem EndsIn.of_endEnc {r : Run EncPath Unit} (h : s.endEnc r = .next t)
    (hi : i.opcode / 16 = 1) : EndsIn i s t := by
  rcases endEnc_eq_next h with ⟨e, -, rfl⟩ | ⟨f, e, -, rfl⟩
  · exact .encDone e hi
  · exact .encRaised f e hi

theorem EndsIn.of_endDec {r : Run DecPath Unit} (h : s.endDec r = .next t)
    (hi : i.opcode / 16 = 2) : EndsIn i s t := by
  rcases endDec_eq_next h with ⟨d, -, rfl⟩ | ⟨f, d, -, rfl⟩
  · exact .decDone d 0 hi
  · exact .decRaised f d hi

/-- EMODEL is raised on the unit as it stands. -/
theorem EndsIn.encEmodel (hi : i.opcode / 16 = 1) : EndsIn i s (s.raiseEnc .emodel) :=
  .encRaised .emodel s.encPath hi

theorem EndsIn.decEmodel (hi : i.opcode / 16 = 2) : EndsIn i s (s.raiseDec .emodel) :=
  .decRaised .emodel s.decPath hi

theorem exec_endsIn (h : exec i s = .next t) : EndsIn i s t := by
  cases hk : phaseError s i with
  | some k =>
    rw [exec_of_phaseError hk] at h
    cases h
    exact .rejected hk
  | none =>
    cases i with
    | nop =>
      cases h
      exact .answered (by simp)
    | rdreg n =>
      cases hn : csr s n with
      | none =>
        rw [exec_rdreg_unassigned hn] at h
        cases h
        exact .answered (by simp)
      | some v =>
        rw [exec_rdreg_assigned hn] at h
        cases h
        exact .answered (by simp)
    | encStart =>
      cases h
      exact .encDone ⟨Enc.opened s.cfg, s.sink⟩ rfl
    | encPut pl pu pt =>
      have hi : (Instr.encPut pl pu pt).opcode / 16 = 1 := by simp [Instr.opcode]
      by_cases hp : ProbOk s.cfg pl pu pt
      · exact .of_endEnc (exec_encPut_runs hk hp ▸ h) hi
      · rw [exec_encPut_emodel hk hp] at h
        cases h
        exact .encEmodel hi
    | encFinish => exact .of_endEnc (exec_encFinish_runs hk ▸ h) rfl
    | decStart => exact .of_endDec h rfl
    | decScale total =>
      have hi : (Instr.decScale total).opcode / 16 = 2 := by simp [Instr.opcode]
      by_cases ht : TotalOk s.cfg total
      · rw [exec_decScale_runs hk ht] at h
        cases h
        exact .decDone ⟨s.dec.latch total, s.source⟩ _ hi
      · rw [exec_decScale_emodel hk ht] at h
        cases h
        exact .decEmodel hi
    | decNarrow pl pu pt =>
      have hi : (Instr.decNarrow pl pu pt).opcode / 16 = 2 := by simp [Instr.opcode]
      by_cases hp : NarrowOk s.cfg s.dec pl pu pt
      · exact .of_endDec (exec_decNarrow_runs hk hp ▸ h) hi
      · rw [exec_decNarrow_emodel hk hp] at h
        cases h
        exact .decEmodel hi
    | fscale v range total =>
      by_cases hd : FscaleDomain s.cfg v range total
      · rw [exec_fscale_inDomain hd] at h
        cases h
        exact .answered (by simp)
      · rw [exec_fscale_outOfDomain hd] at h
        cases h
        exact .answered (by simp)

/-- A command's response is the only one appended. -/
theorem response_eq {k : Code} {v : Word} {r : Response}
    (h : s.responses ++ [⟨k, v⟩] = s.responses ++ [r]) : ⟨k, v⟩ = r := by
  cases List.append_cancel_left h
  rfl

/-! ### The phase table -/

/-- Settles O19: the phase check answers the error cells of the table, and no other way of a command's end
has such a code. -/
theorem phaseDecidesWhichCommandsRun : Obligations.PhaseDecidesWhichCommandsRun := by
  intro s answers
  have cell {i : Instr} {k : Code} (h : phaseError s i = some k) : answers i k := exec_of_phaseError h
  have idle {p : Phase} (h : p = .idle) : openStreamCheck p = some .eseq :=
    openStreamCheck_eq_some.2 (.inr ⟨h, rfl⟩)
  have fault {p : Phase} (h : p = .fault) : openStreamCheck p = some .efaulted :=
    openStreamCheck_eq_some.2 (.inl ⟨h, rfl⟩)
  refine ⟨fun _ _ _ h => cell (idle h), fun _ _ _ h => cell (fault h), fun h => cell (idle h),
    fun h => cell (fault h), fun _ h => cell (idle h), fun _ h => cell (fault h),
    fun _ _ _ h => cell (scaledStepCheck_eq_some.2 (.inr ⟨.inl h, rfl⟩)),
    fun _ _ _ h => cell (scaledStepCheck_eq_some.2 (.inr ⟨.inr h, rfl⟩)),
    fun _ _ _ h => cell (scaledStepCheck_eq_some.2 (.inl ⟨h, rfl⟩)), fun i t r ht hr hcode => ?_⟩
  cases exec_endsIn ht with
  | rejected hk => exact (phaseError_cells hk).2
  | answered hk =>
    cases response_eq hr
    rcases hcode with rfl | rfl <;> simp at hk
  | encDone | decDone =>
    cases response_eq hr
    simp at hcode
  | encRaised f | decRaised f =>
    cases response_eq hr
    cases f <;> simp [StreamFault.toCode] at hcode

end Sys2Proof.Machine
end

section
/-!
What the exceptions of `60_exceptions.md` leave behind: nothing for a non-sticky error (rule R172), a
frozen unit and a record for a stream fault (rules R174, R175 and R182).
-/
namespace Sys2Proof.Machine

variable {s t u : State} {i : Instr}

/-! ### Responses sent before -/

/-- The state where `rs` had been answered before. -/
def State.sentBefore (rs : List Response) (s : State) : State := { s with responses := rs ++ s.responses }

/-- The outcome with `f` applied to the next state. -/
def mapNext (f : State → State) :
    Host.Outcome State Fault Refusal → Host.Outcome State Fault Refusal
  | .next s => .next (f s)
  | .fault r => .fault r
  | .refused r => .refused r

theorem respond_sentBefore (rs : List Response) (s : State) (k : Code) (v : Nat) :
    (s.sentBefore rs).respond k v = (s.respond k v).sentBefore rs := by
  simp [State.sentBefore, State.respond]

theorem raiseEnc_sentBefore (rs : List Response) (s : State) (f : StreamFault) :
    (s.sentBefore rs).raiseEnc f = (s.raiseEnc f).sentBefore rs := by
  simp [State.sentBefore, State.raiseEnc, State.respond]

theorem raiseDec_sentBefore (rs : List Response) (s : State) (f : StreamFault) :
    (s.sentBefore rs).raiseDec f = (s.raiseDec f).sentBefore rs := by
  simp [State.sentBefore, State.raiseDec, State.respond]

theorem endEnc_sentBefore (rs : List Response) (s : State) (r : Run EncPath Unit) :
    (s.sentBefore rs).endEnc r = mapNext (State.sentBefore rs) (s.endEnc r) := by
  cases r with
  | done a e => exact congrArg Host.Outcome.next (respond_sentBefore rs (s.withEncPath e) .ok 0)
  | raised f e => exact congrArg Host.Outcome.next (raiseEnc_sentBefore rs (s.withEncPath e) f)
  | stuck f => rfl

theorem endDec_sentBefore (rs : List Response) (s : State) (r : Run DecPath Unit) :
    (s.sentBefore rs).endDec r = mapNext (State.sentBefore rs) (s.endDec r) := by
  cases r with
  | done a d => exact congrArg Host.Outcome.next (respond_sentBefore rs (s.withDecPath d) .ok 0)
  | raised f d => exact congrArg Host.Outcome.next (raiseDec_sentBefore rs (s.withDecPath d) f)
  | stuck f => rfl

/-- No command reads the responses. -/
theorem exec_sentBefore (rs : List Response) (s : State) (i : Instr) :
    exec i (s.sentBefore rs) = mapNext (State.sentBefore rs) (exec i s) := by
  cases hk : phaseError s i with
  | some k =>
    have hk' : phaseError (s.sentBefore rs) i = some k := hk
    rw [exec_of_phaseError hk, exec_of_phaseError hk', respond_sentBefore]
    rfl
  | none =>
    cases i with
    | nop => exact congrArg Host.Outcome.next (respond_sentBefore rs s .ok 0)
    | rdreg n =>
      have hsame : csr (s.sentBefore rs) n = csr s n := rfl
      cases hn : csr s n with
      | none =>
        rw [exec_rdreg_unassigned hn, exec_rdreg_unassigned (hsame.trans hn), respond_sentBefore]
        rfl
      | some v =>
        rw [exec_rdreg_assigned hn, exec_rdreg_assigned (hsame.trans hn), respond_sentBefore]
        rfl
    | encStart => exact endEnc_sentBefore rs s (.done () ⟨Enc.opened s.cfg, s.sink⟩)
    | encPut pl pu pt =>
      by_cases hp : ProbOk s.cfg pl pu pt
      · rw [exec_encPut_runs hk hp, exec_encPut_runs (s := s.sentBefore rs) hk hp]
        exact endEnc_sentBefore rs s _
      · rw [exec_encPut_emodel hk hp, exec_encPut_emodel (s := s.sentBefore rs) hk hp]
        exact congrArg Host.Outcome.next (raiseEnc_sentBefore rs s _)
    | encFinish =>
      rw [exec_encFinish_runs hk, exec_encFinish_runs (s := s.sentBefore rs) hk]
      exact endEnc_sentBefore rs s _
    | decStart => exact endDec_sentBefore rs s _
    | decScale total =>
      by_cases ht : TotalOk s.cfg total
      · rw [exec_decScale_runs hk ht, exec_decScale_runs (s := s.sentBefore rs) hk ht]
        exact congrArg Host.Outcome.next
          (respond_sentBefore rs { s with dec := s.dec.latch total } .ok _)
      · rw [exec_decScale_emodel hk ht, exec_decScale_emodel (s := s.sentBefore rs) hk ht]
        exact congrArg Host.Outcome.next (raiseDec_sentBefore rs s _)
    | decNarrow pl pu pt =>
      by_cases hp : NarrowOk s.cfg s.dec pl pu pt
      · rw [exec_decNarrow_runs hk hp, exec_decNarrow_runs (s := s.sentBefore rs) hk hp]
        exact endDec_sentBefore rs s _
      · rw [exec_decNarrow_emodel hk hp, exec_decNarrow_emodel (s := s.sentBefore rs) hk hp]
        exact congrArg Host.Outcome.next (raiseDec_sentBefore rs s _)
    | fscale v range total =>
      by_cases hd : FscaleDomain s.cfg v range total
      · rw [exec_fscale_inDomain hd, exec_fscale_inDomain (s := s.sentBefore rs) hd,
          respond_sentBefore]
        rfl
      · rw [exec_fscale_outOfDomain hd, exec_fscale_outOfDomain (s := s.sentBefore rs) hd,
          respond_sentBefore]
        rfl

/-! ### Non-sticky errors -/

/-- A response that names a non-sticky error is all that its command has changed. -/
theorem eq_respond_of_nonSticky {r : Response} (ht : exec i s = .next t)
    (hr : t.responses = s.responses ++ [r])
    (hcode : r.code ∈ [Code.eillegal, .eseq, .efaulted, .edomain, .ebadreg]) :
    t = { s with responses := s.responses ++ [r] } := by
  cases exec_endsIn ht with
  | rejected | answered =>
    cases response_eq hr
    rfl
  | encDone | decDone =>
    cases response_eq hr
    simp at hcode
  | encRaised f | decRaised f =>
    cases response_eq hr
    cases f <;> simp [StreamFault.toCode] at hcode

/-- What a command does is the same whatever responses were sent before it. -/
theorem exec_of_responses {r : Response} (rs : List Response) (hu : exec i s = .next u)
    (hr : u.responses = s.responses ++ [r]) :
    exec i { s with responses := rs } = .next { u with responses := rs ++ [r] } := by
  have hstart (rs : List Response) :
      { s with responses := rs } = State.sentBefore rs { s with responses := [] } := by
    simp [State.sentBefore]
  have hs := hstart s.responses
  rw [hstart rs, exec_sentBefore]
  rw [show s = _ from hs, exec_sentBefore] at hu
  cases h₀ : exec i { s with responses := [] } with
  | next u₀ =>
    rw [h₀] at hu
    cases hu
    have hlast : u₀.responses = [r] := List.append_cancel_left hr
    simp [mapNext, State.sentBefore, hlast]
  | fault | refused =>
    rw [h₀] at hu
    cases hu

/-- Settles O18: such an error leaves its response only, and no command reads the responses. -/
theorem nonStickyErrorsChangeNothing : Obligations.NonStickyErrorsChangeNothing := by
  refine ⟨fun i s t r ht hr hcode => ?_, fun s p rest e h hp => step_illegalPacket h hp⟩
  obtain rfl := eq_respond_of_nonSticky ht hr hcode
  refine ⟨rfl, fun j u r' hu hr' => ?_⟩
  rw [exec_of_responses _ hu hr', List.append_assoc]
  rfl

/-! ### A unit in FAULT -/

/-- DEC.START leaves its unit ACTIVE without a cause where it goes on. -/
theorem decOpenStream_status {c : Config} {d : DecPath} :
    (decOpenStream c d).Meets (fun d' => d'.reg.phase = .active ∧ d'.reg.cause = none)
      fun _ _ => True := by
  have hfill := meets_imp (fillWindow_shiftFrame (c := c) (d := ⟨Dec.cleared c d.reg, d.source⟩)
    c.rangeBits) (fun _ h => h) (Q' := fun _ _ => True) fun _ _ _ => trivial
  refine meets_andThen hfill fun _ d' h => ?_
  rw [meets_done, decPath_setPhase_cause, h]
  exact ⟨rfl, rfl⟩

/-- Settles O20: the commands of a faulted unit are rejected, but for its START, and the others do not
reach it. -/
theorem faultIsLeftOnlyByStart : Obligations.FaultIsLeftOnlyByStart := by
  intro i s t h
  obtain ⟨-, -, henc, hdec, -⟩ := commandsReachOnlyTheirUnit i s t h
  refine ⟨fun hf hi => ?_, fun hf hi => ?_, ?_, ?_⟩
  · by_cases hu : i.opcode / 16 = 1
    · rw [exec_of_phaseError (phaseError_of_enc_fault hf hu hi)] at h
      cases h
      exact ⟨rfl, rfl⟩
    · exact henc hu
  · by_cases hu : i.opcode / 16 = 2
    · rw [exec_of_phaseError (phaseError_of_dec_fault hf hu hi)] at h
      cases h
      exact ⟨rfl, rfl⟩
    · exact hdec hu
  · rintro rfl
    rw [exec_encStart] at h
    cases h
    exact ⟨rfl, rfl⟩
  · rintro rfl hok
    obtain ⟨d, hd, rfl⟩ := endDec_answersOk h (answeredOk_of_responses hok)
    have hstatus := decOpenStream_status (c := s.cfg) (d := s.decPath)
    rw [hd] at hstatus
    exact hstatus

/-! ### The record of stream faults -/

/-- A command records the stream fault that it answers, and none where it answers none. -/
theorem exec_records {r : Response} (ht : exec i s = .next t) (hr : t.responses = s.responses ++ [r]) :
    (r.code ∉ [Code.emodel, .esource, .epending] ∧ t.faults = s.faults) ∨
    ∃ f : StreamFault, r.code = f.toCode ∧
      ((i.opcode / 16 = 1 ∧ t.faults = s.faults ++ [⟨.enc, f⟩] ∧
          t.enc.phase = .fault ∧ t.enc.cause = some f) ∨
        (i.opcode / 16 = 2 ∧ t.faults = s.faults ++ [⟨.dec, f⟩] ∧
          t.dec.phase = .fault ∧ t.dec.cause = some f)) := by
  cases exec_endsIn ht with
  | rejected hk =>
    cases response_eq hr
    obtain ⟨hcode, -⟩ := phaseError_cells hk
    exact .inl ⟨by rcases hcode with rfl | rfl <;> simp, rfl⟩
  | answered hk =>
    cases response_eq hr
    refine .inl ⟨fun hmem => ?_, rfl⟩
    simp only [List.mem_cons, List.not_mem_nil, or_false] at hk hmem
    rcases hk with rfl | rfl | rfl <;> simp at hmem
  | encDone | decDone =>
    cases response_eq hr
    exact .inl ⟨by simp, rfl⟩
  | encRaised f e hi =>
    cases response_eq hr
    exact .inr ⟨f, rfl, .inl ⟨hi, rfl, rfl, rfl⟩⟩
  | decRaised f d hi =>
    cases response_eq hr
    exact .inr ⟨f, rfl, .inr ⟨hi, rfl, rfl, rfl⟩⟩

theorem exec_keeps_faults (h : exec i s = .next t) : s.faults <+: t.faults := by
  cases exec_endsIn h with
  | rejected | answered | encDone | decDone => exact List.prefix_rfl
  | encRaised | decRaised => exact List.prefix_append _ _

theorem toCode_cases {f : StreamFault} {k : Code} (h : k = f.toCode) :
    f = .emodel ∧ k = .emodel ∨ f = .esource ∧ k = .esource ∨ f = .epending ∧ k = .epending := by
  subst h
  cases f <;> simp [StreamFault.toCode]

/-- Settles O21, by the ends of a command; the other steps write no record. -/
theorem streamFaultsAreRecordedForever : Obligations.StreamFaultsAreRecordedForever := by
  refine ⟨fun i s t r ht hr => ?_, fun s t h => ?_⟩
  · rcases exec_records ht hr with hnone | ⟨f, hcode, hrec⟩
    · exact .inl hnone
    · exact .inr ⟨f, toCode_cases hcode, hrec⟩
  · rcases step_eq_next h with rfl | ⟨rest, rfl⟩ | ⟨rest, i, h⟩ | ⟨rest, rfl⟩
    · exact List.prefix_rfl
    · exact List.prefix_rfl
    · exact exec_keeps_faults (s := { s with inbox := rest }) h
    · exact List.prefix_rfl

/-! ### Waiting, and EMODEL -/

/-- Settles O8: with nothing in the host's list the step answers its own state. -/
theorem waitingBlockHoldsItsState : Obligations.WaitingBlockHoldsItsState := by
  intro s h
  rw [step, h]

/-- Settles O45: where a check of the operands fails, the command raises EMODEL on the state as it is. -/
theorem modelViolationsArePrecise : Obligations.ModelViolationsArePrecise := by
  refine fun s => ⟨fun pl pu pt ha hp => ?_, fun total ho ht => ?_, fun pl pu pt hs hp => ?_⟩
  · exact exec_encPut_emodel (openStreamCheck_eq_none.2 (.inl ha)) hp
  · exact exec_decScale_emodel (openStreamCheck_eq_none.2 ho) fun ⟨h1, hmax⟩ => by omega
  · refine exec_decNarrow_emodel (scaledStepCheck_eq_none.2 hs) fun ⟨hprob, htotal, hscaled⟩ => ?_
    rcases hp with hp | hp | hp
    · exact hp hprob
    · exact hp htotal
    · exact hp hscaled

end Sys2Proof.Machine
end

section
/-!
The state that EPENDING leaves (`60_exceptions.md` rule R177).
-/
namespace Sys2Proof.Machine

variable {c : Config} {e e₀ : EncPath} {s t : State} {pl pu pt : Nat}

theorem deferBit_of_full (h : e.reg.pending = c.pendingMax) : deferBit c e = .raised .epending e :=
  if_pos h

/-- The first iteration raises EPENDING, with nothing changed since the Narrow, where it is E3 and the
counter is full. -/
theorem encPutSymbol_of_full (hk : classify c (e.narrow pl pu pt).reg.lower
    (e.narrow pl pu pt).reg.upper = some .e3) (h : e.reg.pending = c.pendingMax) :
    encPutSymbol c pl pu pt e = .raised .epending (e.narrow pl pu pt) := by
  have hfull : (e.narrow pl pu pt).reg.pending = c.pendingMax := h
  rw [encPutSymbol, encRenorm_iterate hk, encStep, encE3, deferBit_of_full hfull]
  rfl

/-! ### What the iterations before the fault keep -/

/-- Since `e₀` the range has been kept, and units have only been appended to the Sink's. -/
structure EncPath.Since (e₀ e : EncPath) : Prop where
  range : e.reg.range = e₀.reg.range
  units : e₀.sink.units <+: e.sink.units

/-- Where EPENDING stops the loop: in case E3, with the counter full. -/
structure EncPath.Overflows (c : Config) (e₀ : EncPath) (f : StreamFault) (e : EncPath) : Prop where
  epending : f = .epending
  full : e.reg.pending = c.pendingMax
  inE3 : classify c e.reg.lower e.reg.upper = some .e3
  since : e₀.Since e

section
variable {Q : StreamFault → EncPath → Prop}

theorem handOver_since (n : Nat) (h : e₀.Since e) : (handOver n e).Meets e₀.Since Q := by
  rcases handOver_cases n e with ⟨k, hk, hd⟩ | ⟨-, hs⟩
  · obtain ⟨hunits, -, -⟩ := sinkAccept_eq_some hk
    rw [hd]
    exact ⟨h.range, h.units.trans ⟨_, hunits.symm⟩⟩
  · rw [hs]
    trivial

theorem putBit_since (b : Bool) (h : e₀.Since e) : (putBit c b e).Meets e₀.Since Q := by
  have hplace : e₀.Since (e.place c b) := ⟨h.range, h.units⟩
  rw [putBit_eq]
  split
  · exact handOver_since _ hplace
  · exact hplace

theorem putCopies_since (b : Bool) (n : Nat) (h : e₀.Since e) :
    (putCopies c b n e).Meets e₀.Since Q := by
  induction n generalizing e with
  | zero => exact h
  | succ n ih => exact meets_andThen (putBit_since b h) fun _ _ h' => ih h'

/-- Writing bits raises no stream fault. -/
theorem emitWithPending_since (b : Bool) (h : e₀.Since e) :
    (emitWithPending c b e).Meets e₀.Since Q :=
  meets_andThen (putBit_since b h) fun _ _ h₁ =>
    meets_andThen (putCopies_since _ _ h₁) fun _ _ h₂ => ⟨h₂.range, h₂.units⟩

end

theorem encStep_overflows {k : RenormCase} (h : e₀.Since e)
    (hk : classify c e.reg.lower e.reg.upper = some k) :
    (encStep c k e).Meets e₀.Since (e₀.Overflows c) := by
  cases k with
  | e1 | e2 => exact meets_andThen (emitWithPending_since _ h) fun _ _ h' => ⟨h'.range, h'.units⟩
  | e3 =>
    rcases deferBit_cases c e with ⟨hfull, hd⟩ | ⟨-, hd⟩
    · rw [encStep, encE3, hd]
      exact ⟨rfl, hfull, hk, h⟩
    · rw [encStep, encE3, hd]
      exact ⟨h.range, h.units⟩

theorem encRenorm_overflows (fuel : Nat) (h : e₀.Since e) :
    (encRenorm c fuel e).Meets e₀.Since (e₀.Overflows c) := by
  induction fuel generalizing e with
  | zero => trivial
  | succ fuel ih =>
    cases hk : classify c e.reg.lower e.reg.upper with
    | none =>
      rw [encRenorm_stop hk]
      exact h
    | some k =>
      rw [encRenorm_iterate hk]
      exact meets_andThen (encStep_overflows h hk) fun _ _ h' => ih h'

theorem encPutSymbol_overflows :
    (encPutSymbol c pl pu pt e).Meets (fun _ => True) (e.Overflows c) :=
  meets_andThen (encRenorm_overflows (e := e.narrow pl pu pt) _ ⟨rfl, List.prefix_rfl⟩)
    fun _ _ _ => trivial

/-! ### The commands -/

/-- ENC.PUT answers EPENDING only where its primitives raised a stream fault. -/
theorem exec_encPut_answersEpending (ht : exec (.encPut pl pu pt) s = .next t)
    (hr : t.responses = s.responses ++ [⟨.epending, 0⟩]) :
    ∃ f e, encPutSymbol s.cfg pl pu pt s.encPath = .raised f e ∧ t = (s.withEncPath e).raiseEnc f := by
  cases hk : openStreamCheck s.enc.phase with
  | some k =>
    rw [exec_encPut_notOpen hk] at ht
    cases ht
    cases response_eq hr
    simp [openStreamCheck_eq_some] at hk
  | none =>
    by_cases hp : ProbOk s.cfg pl pu pt
    · rw [exec_encPut_runs hk hp] at ht
      rcases endEnc_eq_next ht with ⟨e, -, rfl⟩ | hraised
      · cases response_eq hr
      · exact hraised
    · rw [exec_encPut_emodel hk hp] at ht
      cases ht
      cases response_eq hr

/-- Settles O46: the fault leaves the iteration that cannot defer its bit as it found it. -/
theorem pendingOverflowLeavesTheFaultingIteration :
    Obligations.PendingOverflowLeavesTheFaultingIteration := by
  refine ⟨fun s t pl pu pt ht hr => ?_, fun s pl pu pt ha hp hfull => ?_,
    fun s ha hl hu hfull => ?_⟩
  · obtain ⟨f, e, hrun, rfl⟩ := exec_encPut_answersEpending ht hr
    have hover := encPutSymbol_overflows (c := s.cfg) (e := s.encPath) (pl := pl) (pu := pu) (pt := pt)
    rw [hrun] at hover
    obtain ⟨rfl, hfull, hk, hrange, hunits⟩ := hover
    exact ⟨rfl, rfl, hfull, hrange, hk, hunits⟩
  · intro nl nu hk
    rw [exec_encPut_runs (openStreamCheck_eq_none.2 (.inl ha)) hp,
      encPutSymbol_of_full (e := s.encPath) hk hfull]
    rfl
  · rw [exec_encFinish_runs (openStreamCheck_eq_none.2 (.inl ha)), encFinishStream,
      encFinalBits_of_overflow (e := s.encPath) ⟨hl, hu, hfull⟩]
    rfl

end Sys2Proof.Machine
end

section
/-!
The state that ESOURCE leaves (`60_exceptions.md` rule R176).
-/
namespace Sys2Proof.Machine

variable {c : Config} {d : DecPath} {s t : State} {w n pl pu pt : Nat} {rest : List SourceReply}

theorem eq_zero_of_bufferOk_zero {buf : Nat} (h : BufferOk c buf 0) : buf = 0 := by
  obtain ⟨hlt, hmod⟩ := h
  rwa [Nat.sub_zero, Nat.mod_eq_of_lt hlt] at hmod

/-! ### A Source that breaks its contract -/

/-- A call that is answered with a count above `BUF_BITS` uses up the reply, and nothing else changes. -/
theorem nextBit_of_violation (hx : d.reg.exhausted = false) (hl : d.reg.left = 0)
    (hr : d.source.replies = .reply w n :: rest) (hn : c.bufBits < n) :
    nextBit c d = .raised .esource { d with source := ⟨rest, d.source.fills + 1⟩ } := by
  rw [nextBit_of_reply hx hl hr]
  exact if_pos hn

/-- A unit of 1 to `BUF_BITS` bits, in a word that fits the port (rules R53 and R58). -/
def SourceReply.CarriesBits (c : Config) (g : SourceReply) : Prop :=
  ∃ w m, g = .reply w m ∧ w < 2 ^ c.bufBits ∧ 1 ≤ m ∧ m ≤ c.bufBits

/-- DEC can read the bits of its buffer and of the units in `good`, and the call after them breaks the
Source's contract. -/
structure DecPath.Breaks (c : Config) (w n : Nat) (good rest : List SourceReply) (d : DecPath) : Prop where
  live : d.reg.exhausted = false
  left_le : d.reg.left ≤ c.bufBits
  buffer : BufferOk c d.reg.buf d.reg.left
  units : ∀ g ∈ good, g.CarriesBits c
  replies : d.source.replies = good ++ .reply w n :: rest
  violates : c.bufBits < n

/-- DEC when the bits that it could read and the call after them are used up; the window is as before. -/
def DecPath.drained (good rest : List SourceReply) (d : DecPath) : DecPath :=
  { reg := { d.reg with buf := 0, left := 0 }, source := ⟨rest, d.source.fills + good.length + 1⟩ }

theorem inputBits_before_violation {good : List SourceReply} (hn : c.bufBits < n)
    (hg : ∀ g ∈ good, g.CarriesBits c) :
    inputBits c (good ++ .reply w n :: rest) = inputBits c good := by
  induction good with
  | nil => exact inputBits_end w rest (.inr hn)
  | cons g good ih =>
    obtain ⟨⟨v, m, rfl, -, h1, hm⟩, hgood⟩ := List.forall_mem_cons.1 hg
    rw [List.cons_append, inputBits_unit v _ h1 hm, inputBits_unit v _ h1 hm, ih hgood]

/-- `b` is the next bit, and reading it leaves DEC as it stands in `d'`, short of the same call. -/
structure ReadsUpTo (c : Config) (w n : Nat) (good rest : List SourceReply) (d : DecPath) (b : Bool)
    (good' : List SourceReply) (d' : DecPath) : Prop where
  breaks : d'.Breaks c w n good' rest
  unread : d.unread c = b :: d'.unread c
  drained : d'.drained good' rest = d.drained good rest

theorem takeBufferedBit_breaks {good : List SourceReply} (h : d.Breaks c w n good rest)
    (hl : d.reg.left ≠ 0) :
    ∃ b d', takeBufferedBit c d = .done b d' ∧ ReadsUpTo c w n good rest d b good d' := by
  obtain ⟨hx, hle, hbuf, hunits, hrep, hn⟩ := h
  obtain ⟨m, hm⟩ : ∃ m, d.reg.left = m + 1 := Nat.exists_eq_succ_of_ne_zero hl
  rw [hm] at hle hbuf
  refine ⟨_, _, rfl, ⟨hx, ?_, ?_, hunits, hrep, hn⟩, ?_, rfl⟩
  · simp only [hm]
    omega
  · simpa [hm] using bufferOk_shift hle hbuf
  · simp [DecPath.unread, hx, hm, topBitList_shift hle]

/-- NextBit raises ESOURCE where no bit is left to read, and reads one otherwise. -/
theorem nextBit_breaks {good : List SourceReply} (h : d.Breaks c w n good rest) :
    (d.unread c = [] ∧ nextBit c d = .raised .esource (d.drained good rest)) ∨
    ∃ b good' d', nextBit c d = .done b d' ∧ ReadsUpTo c w n good rest d b good' d' := by
  by_cases hl : d.reg.left = 0
  · cases good with
    | nil =>
      have hbuf : d.reg.buf = 0 := eq_zero_of_bufferOk_zero (hl ▸ h.buffer)
      have hreg : { d.reg with buf := d.reg.buf, left := d.reg.left } = d.reg := rfl
      rw [hbuf, hl] at hreg
      refine .inl ⟨?_, ?_⟩
      · simp [DecPath.unread, h.live, hl, h.replies, inputBits_end w rest (.inr h.violates)]
      · rw [nextBit_of_violation h.live hl h.replies h.violates, DecPath.drained, hreg]
        rfl
    | cons g good =>
      obtain ⟨⟨v, m, rfl, hv, h1, hm⟩, hgood⟩ := List.forall_mem_cons.1 h.units
      have hfilled : DecPath.Breaks c w n good rest
          { reg := { d.reg with buf := topBits c v m, left := m }
            source := ⟨good ++ .reply w n :: rest, d.source.fills + 1⟩ } :=
        ⟨h.live, hm, bufferOk_topBits hv, hgood, rfl, h.violates⟩
      obtain ⟨b, d', hd', hreads⟩ := takeBufferedBit_breaks hfilled (Nat.ne_of_gt h1)
      refine .inr ⟨b, good, d', ?_, hreads.breaks, ?_, ?_⟩
      · rw [nextBit_of_reply h.live hl h.replies, takeUnit, if_neg (Nat.not_lt.2 hm),
          if_neg (Nat.ne_of_gt h1)]
        exact hd'
      · rw [← hreads.unread]
        simp [DecPath.unread, h.live, hl, h.replies, topBitList_topBits hm, inputBits_unit v _ h1 hm]
      · rw [hreads.drained]
        simp [DecPath.drained, Nat.add_assoc, Nat.add_comm 1]
  · obtain ⟨b, d', hd', hreads⟩ := takeBufferedBit_breaks h hl
    refine .inr ⟨b, good, d', ?_, hreads⟩
    rw [nextBit_of_buffered h.live hl, hd']

/-- DEC with another window. -/
def DecPath.withWindow (v : Nat) (d : DecPath) : DecPath := { d with reg := { d.reg with window := v } }

/-- Filling a window with more bits than can be read takes those into it, and raises ESOURCE. -/
theorem fillWindow_breaks {good : List SourceReply} {m : Nat} (h : d.Breaks c w n good rest)
    (hm : (d.unread c).length < m) :
    fillWindow c m d = .raised .esource ((d.drained good rest).withWindow
      (d.reg.window * 2 ^ (d.unread c).length + bitsValue (d.unread c))) := by
  induction m generalizing d good with
  | zero => omega
  | succ m ih =>
    rw [fillWindow]
    rcases nextBit_breaks h with ⟨hnil, hd⟩ | ⟨b, good', d', hd, hreads⟩
    · rw [shiftWindow, hd, hnil]
      simp [bitsValue, DecPath.withWindow, DecPath.drained]
    · have hwin : d'.reg.window = d.reg.window := by
        show (d'.drained good' rest).reg.window = (d.drained good rest).reg.window
        rw [hreads.drained]
      have hlen : (d.unread c).length = (d'.unread c).length + 1 := by rw [hreads.unread]; rfl
      have hshift : shiftWindow c 0 d = .done () (d'.withWindow (2 * d.reg.window + b.toNat)) := by
        rw [shiftWindow, hd, andThen_done, hwin]
        rfl
      have hbreaks : (d'.withWindow (2 * d.reg.window + b.toNat)).Breaks c w n good' rest :=
        { hreads.breaks with }
      have hun : (d'.withWindow (2 * d.reg.window + b.toNat)).unread c = d'.unread c := rfl
      have hvalue : (2 * d.reg.window + b.toNat) * 2 ^ (d'.unread c).length + bitsValue (d'.unread c) =
          d.reg.window * 2 ^ (d.unread c).length + bitsValue (d.unread c) := by
        rw [hlen, hreads.unread, bitsValue_cons, pow_succ]
        ring
      rw [hshift, andThen_done, ih hbreaks (by rw [hun]; omega), hun, ← hvalue, ← hreads.drained]
      rfl

/-- DEC.START's cleared registers read the units in `good` from their start. -/
theorem decOpenStream_breaks {good : List SourceReply}
    (hr : d.source.replies = good ++ .reply w n :: rest) (hn : c.bufBits < n)
    (hg : ∀ g ∈ good, g.CarriesBits c) (hfew : (inputBits c good).length < c.rangeBits) :
    decOpenStream c d = .raised .esource
      { reg := { Dec.cleared c d.reg with window := bitsValue (inputBits c good) }
        source := ⟨rest, d.source.fills + good.length + 1⟩ } := by
  have hbreaks : DecPath.Breaks c w n good rest ⟨Dec.cleared c d.reg, d.source⟩ :=
    ⟨rfl, Nat.zero_le _, bufferOk_zero c 0, hg, hr, hn⟩
  have hun : DecPath.unread c ⟨Dec.cleared c d.reg, d.source⟩ = inputBits c good := by
    rw [← inputBits_before_violation (w := w) (rest := rest) hn hg, ← hr]
    rfl
  rw [decOpenStream, fillWindow_breaks hbreaks (by rwa [hun]), hun]
  simp [DecPath.withWindow, DecPath.drained, Dec.cleared]

/-! ### DEC.NARROW -/

/-- DEC's buffer is empty, and the Source not yet exhausted. -/
def DecPath.NeedsUnit (d : DecPath) : Prop := d.reg.left = 0 ∧ d.reg.exhausted = false

/-- NextBit raises a fault only where it has called the Source. -/
theorem nextBit_needsUnit :
    (nextBit c d).Meets (fun _ => True) fun _ d' => d'.NeedsUnit := by
  rw [nextBit_eq]
  split
  · trivial
  case isFalse hx =>
    split
    case isTrue hl =>
      unfold callSource
      split
      · trivial
      · unfold takeUnit
        split
        · exact ⟨hl, by simpa using hx⟩
        split
        · trivial
        · trivial
    · trivial

theorem decStep_needsUnit (k : RenormCase) :
    (decStep c k d).Meets (fun _ => True) fun _ d' => d'.NeedsUnit :=
  meets_andThen nextBit_needsUnit fun _ _ _ => trivial

theorem decRenorm_needsUnit (fuel : Nat) :
    (decRenorm c fuel d).Meets (fun _ => True) fun _ d' => d'.NeedsUnit := by
  induction fuel generalizing d with
  | zero => trivial
  | succ fuel ih =>
    cases hk : classify c d.reg.lower d.reg.upper with
    | none =>
      rw [decRenorm_stop hk]
      trivial
    | some k =>
      rw [decRenorm_iterate hk]
      exact meets_andThen (decStep_needsUnit k) fun _ _ _ => ih

/-- DEC.NARROW answers ESOURCE only where its primitives raised a stream fault. -/
theorem exec_decNarrow_answersEsource (ht : exec (.decNarrow pl pu pt) s = .next t)
    (hr : t.responses = s.responses ++ [⟨.esource, 0⟩]) :
    s.dec.phase = .scaled ∧ NarrowOk s.cfg s.dec pl pu pt ∧
      ∃ d, decNarrowSymbol s.cfg pl pu pt s.decPath = .raised .esource d ∧
        t = (s.withDecPath d).raiseDec .esource := by
  cases hk : scaledStepCheck s.dec.phase with
  | some k =>
    rw [exec_decNarrow_notScaled hk] at ht
    cases ht
    cases response_eq hr
    simp [scaledStepCheck_eq_some] at hk
  | none =>
    by_cases hp : NarrowOk s.cfg s.dec pl pu pt
    · refine ⟨scaledStepCheck_eq_none.1 hk, hp, ?_⟩
      rw [exec_decNarrow_runs hk hp] at ht
      rcases endDec_eq_next ht with ⟨d, -, rfl⟩ | ⟨f, d, hd, rfl⟩
      · cases response_eq hr
      · cases f with
        | esource => exact ⟨d, hd, rfl⟩
        | emodel | epending => cases response_eq hr
    · rw [exec_decNarrow_emodel hk hp] at ht
      cases ht
      cases response_eq hr

/-- What DEC.NARROW leaves where its loop raised a fault: the range, and an input buffer that is empty. -/
theorem decNarrowSymbol_raised {f : StreamFault} {d' : DecPath} (h : d.Rests c)
    (hs : d.reg.phase = .scaled) (hn : NarrowOk c d.reg pl pu pt)
    (hd : decNarrowSymbol c pl pu pt d = .raised f d') :
    d'.reg.range = d.reg.range ∧ d'.reg.buf = 0 ∧ d'.reg.left = 0 ∧ d'.reg.exhausted = false := by
  rcases andThen_eq_raised.1 hd with hloop | ⟨_, _, -, hdone⟩
  · have hheld := decRenorm_holds (c := c) (d := d.narrow pl pu pt) (c.rangeBits + 1) rfl
    have hlegal := decRenorm_meets (c.rangeBits + 1) (decNarrow_inside h hs hn)
    have hneeds := decRenorm_needsUnit (c := c) (d := d.narrow pl pu pt) (c.rangeBits + 1)
    rw [hloop] at hheld hlegal hneeds
    obtain ⟨hleft, hx⟩ := hneeds
    obtain ⟨-, -, -, -, -, hbuf, -⟩ := hlegal.legal.widths
    rw [hleft] at hbuf
    have hrange : d'.held.range = (d.narrow pl pu pt).held.range := congrArg Dec.range hheld
    exact ⟨hrange, eq_zero_of_bufferOk_zero hbuf, hleft, hx⟩
  · cases hdone

/-- The first DecStep moves the bounds, and raises ESOURCE where its call is answered with a count above
`BUF_BITS`. -/
theorem decNarrowSymbol_of_violation {k : RenormCase}
    (hk : classify c (d.narrow pl pu pt).reg.lower (d.narrow pl pu pt).reg.upper = some k)
    (hx : d.reg.exhausted = false) (hl : d.reg.left = 0)
    (hr : d.source.replies = .reply w n :: rest) (hn : c.bufBits < n) :
    decNarrowSymbol c pl pu pt d = .raised .esource
      { (d.narrow pl pu pt).transform c k with source := ⟨rest, d.source.fills + 1⟩ } := by
  have hbit : nextBit c ((d.narrow pl pu pt).transform c k) = _ := nextBit_of_violation hx hl hr hn
  rw [decNarrowSymbol, decRenorm_iterate hk, decStep, shiftWindow, hbit]
  rfl

/-- Settles O54: a call that breaks the contract ends the run of primitives where it was made. -/
theorem sourceViolationLeavesTheFaultingStep : Obligations.SourceViolationLeavesTheFaultingStep := by
  refine ⟨fun s good rest w n hr hn hg hfew => ?_, fun s t pl pu pt h ht hr => ?_,
    fun s pl pu pt w n rest k hs hp hx hl hr hn => ?_⟩
  · rw [exec_decStart, decOpenStream_breaks (d := s.decPath) hr hn hg hfew]
    rfl
  · obtain ⟨hs, hn, d, hd, rfl⟩ := exec_decNarrow_answersEsource ht hr
    exact ⟨rfl, rfl, decNarrowSymbol_raised (h.decScaled hs) hs hn hd⟩
  · intro nl nu hk
    rw [exec_decNarrow_runs (scaledStepCheck_eq_none.2 hs) hp,
      decNarrowSymbol_of_violation (d := s.decPath) hk hx hl hr hn]
    rfl

end Sys2Proof.Machine
end

section
/-!
How many units a command of ENC hands to the Sink (`70_reset_and_hazards.md` rule R203): each iteration
of the loop writes or defers one bit more, and a unit takes `BUF_BITS` of them.
-/
namespace Sys2Proof.Machine

/-- From `k₀` to `k` the Sink accepted `n` units or fewer, and it goes on to accept every unit. -/
structure Sink.Grows (n : Nat) (k₀ k : Sink) : Prop where
  accepts : k₀.Accepts → k.Accepts
  units : k.units.length ≤ k₀.units.length + n

theorem Sink.Grows.refl (n : Nat) (k : Sink) : k.Grows n k := ⟨id, Nat.le_add_right _ _⟩

theorem Sink.Grows.mono {n m : Nat} {k₀ k : Sink} (h : k₀.Grows n k) (hn : n ≤ m) : k₀.Grows m k :=
  ⟨h.accepts, h.units.trans (Nat.add_le_add_left hn _)⟩

/-! ### The bits written and deferred -/

section
variable {c : Config} {e₀ e : EncPath} {n m : Nat}

/-- From `e₀` to `e` the bits written and those deferred grew by `n` or fewer. -/
def Moved (c : Config) (n : Nat) (e₀ e : EncPath) : Prop :=
  ∃ bits, Wrote c e₀ e bits ∧ bits.length + e.reg.pending ≤ e₀.reg.pending + n

theorem Moved.refl (h : e.Ready c) : Moved c 0 e e := ⟨[], Wrote.refl h, by simp⟩

theorem Moved.mono (h : Moved c n e₀ e) (hn : n ≤ m) : Moved c m e₀ e := by
  obtain ⟨bits, w, hlen⟩ := h
  exact ⟨bits, w, by omega⟩

/-- Only the interval differs: nothing was written or deferred. -/
theorem Moved.congr {e' : EncPath} (h : Moved c n e₀ e) (hb : e'.reg.buf = e.reg.buf)
    (hf : e'.reg.fill = e.reg.fill) (hp : e'.reg.pending = e.reg.pending) (hs : e'.sink = e.sink) :
    Moved c n e₀ e' := by
  obtain ⟨bits, w, hlen⟩ := h
  exact ⟨bits, w.congr hb hf hs, by rwa [hp]⟩

/-- A unit takes `BUF_BITS` of the bits that were in the buffer, deferred or new. -/
theorem Moved.grows (h : Moved c n e₀ e) :
    e₀.sink.Grows ((e₀.reg.fill + n + e₀.reg.pending) / c.bufBits) e.sink := by
  obtain ⟨bits, w, hlen⟩ := h
  obtain ⟨new, hunits, -, hfill⟩ := w.units
  have hnew : new.length ≤ (e₀.reg.fill + n + e₀.reg.pending) / c.bufBits := by
    rw [Nat.le_div_iff_mul_le c.buf_pos, mul_comm]
    omega
  exact ⟨w.room, by rw [hunits, List.length_append]; omega⟩

/-- The bit comes on top of the deferred bits, which are written and no longer deferred. -/
theorem emitWithPending_moves (b : Bool) (h : Moved c n e₀ e) {Q : StreamFault → EncPath → Prop} :
    (emitWithPending c b e).Meets (Moved c (n + 1) e₀) Q := by
  obtain ⟨bits, w, hlen⟩ := h
  rcases emitWithPending_cases b w.ready with ⟨e', hd, w', hreg⟩ | ⟨-, hd⟩
  · have hp : e'.reg.pending = 0 := by rw [hreg]
    rw [hd]
    refine ⟨_, w.trans w', ?_⟩
    rw [List.length_append, resolvedBits_length, hp]
    omega
  · rw [hd]
    trivial

theorem deferBit_moves (h : Moved c n e₀ e) :
    (deferBit c e).Meets (Moved c (n + 1) e₀) fun _ => Moved c n e₀ := by
  rcases deferBit_cases c e with ⟨-, hd⟩ | ⟨-, hd⟩
  · rw [hd]
    exact h
  · obtain ⟨bits, w, hlen⟩ := h
    rw [hd]
    exact ⟨bits, w.congr rfl rfl rfl, Nat.succ_le_succ hlen⟩

/-! ### ENC.PUT and ENC.FINISH -/

/-- One iteration moves one bit, or raises a fault before it does. -/
theorem encStep_moves (k : RenormCase) (h : Moved c n e₀ e) :
    (encStep c k e).Meets (Moved c (n + 1) e₀) fun _ => Moved c n e₀ := by
  cases k with
  | e1 => exact meets_andThen (emitWithPending_moves _ h) fun _ _ h' => h'.congr rfl rfl rfl rfl
  | e2 => exact meets_andThen (emitWithPending_moves _ h) fun _ _ h' => h'.congr rfl rfl rfl rfl
  | e3 => exact meets_andThen (deferBit_moves h) fun _ _ h' => h'.congr rfl rfl rfl rfl

/-- The last call of Classify is one that stops the loop, or it is not reached. -/
theorem encRenorm_moves {fuel : Nat} (h : Moved c n e₀ e) (hfuel : n + fuel = m + 1) :
    (encRenorm c fuel e).Leaves (Moved c m e₀) := by
  induction fuel generalizing e n with
  | zero => trivial
  | succ fuel ih =>
    have hm := h.mono (show n ≤ m by omega)
    cases hk : classify c e.reg.lower e.reg.upper with
    | none =>
      rw [encRenorm_stop hk]
      exact hm
    | some k =>
      have hstep := meets_imp (encStep_moves k h) (fun _ => id) fun _ _ h' =>
        h'.mono (show n ≤ m by omega)
      rw [encRenorm_iterate hk]
      exact meets_andThen hstep fun _ _ h' => ih h' (by omega)

theorem encPutSymbol_moves (pl pu pt : Nat) (h : e.Ready c) :
    (encPutSymbol c pl pu pt e).Leaves (Moved c c.rangeBits e) := by
  have hnarrow : Moved c 0 e (e.narrow pl pu pt) := (Moved.refl h).congr rfl rfl rfl rfl
  exact meets_andThen (encRenorm_moves hnarrow (Nat.zero_add _)) fun _ _ h' =>
    h'.congr rfl rfl rfl rfl

/-- Rule R118 defers one bit at most before the bit that pins the interval. -/
theorem encFinalBits_moves (h : e.Ready c) : (encFinalBits c e).Leaves (Moved c 2 e) := by
  have hstart := Moved.refl h
  have hnone : (Run.done () e : Run EncPath Unit).Leaves (Moved c 2 e) := hstart.mono (Nat.zero_le _)
  have hemit (b : Bool) : (emitWithPending c b e).Leaves (Moved c 2 e) :=
    meets_mono (emitWithPending_moves b hstart) fun _ h' => h'.mono (by decide)
  have hdefer := meets_imp (deferBit_moves hstart) (fun _ => id) fun _ _ h' =>
    h'.mono (Nat.zero_le 2)
  unfold encFinalBits
  split
  · split
    · exact hemit _
    · exact hnone
  split
  · split
    · exact hemit _
    · exact hnone
  split
  · exact meets_andThen hdefer fun _ _ h' => emitWithPending_moves _ h'
  · exact hemit _

theorem handOver_grows (m : Nat) (h : e₀.sink.Grows n e.sink) {Q : StreamFault → EncPath → Prop} :
    (handOver m e).Meets (fun e' => e₀.sink.Grows (n + 1) e'.sink) Q := by
  obtain ⟨haccepts, hunits⟩ := h
  rcases handOver_cases m e with ⟨k, hk, hd⟩ | ⟨-, hd⟩
  · obtain ⟨hk, hroom, -⟩ := sinkAccept_eq_some hk
    rw [hd]
    refine ⟨fun ha => ?_, ?_⟩
    · rw [Sink.Accepts, hroom, haccepts ha, Option.map_none]
    · rw [hk, List.length_append, List.length_singleton]
      omega
  · rw [hd]
    trivial

/-- Flush hands over one unit at most. -/
theorem encFlush_grows (h : e₀.sink.Grows n e.sink) {Q : StreamFault → EncPath → Prop} :
    (encFlush e).Meets (fun e' => e₀.sink.Grows (n + 1) e'.sink) Q := by
  unfold encFlush
  split
  · exact handOver_grows _ h
  · exact h.mono (Nat.le_succ n)

theorem encFinishStream_grows (h : e.Ready c) :
    (encFinishStream c e).Leaves fun e' =>
      e.sink.Grows ((e.reg.fill + 2 + e.reg.pending) / c.bufBits + 1) e'.sink := by
  have hfinal := meets_imp (encFinalBits_moves h) (fun _ => Moved.grows) fun _ _ h' =>
    h'.grows.mono (Nat.le_succ _)
  exact meets_andThen hfinal fun _ _ h1 => meets_andThen (encFlush_grows h1) fun _ _ h2 => h2

end

/-! ### The commands -/

section
variable {s t : State} {i : Instr}

theorem endEnc_leaves_sink {r : Run EncPath Unit} {P : Sink → Prop} (hr : r.Leaves fun e => P e.sink)
    (ht : s.endEnc r = .next t) : P t.sink := by
  rcases endEnc_eq_next ht with ⟨e, rfl, rfl⟩ | ⟨f, e, rfl, rfl⟩
  · exact hr
  · exact hr

theorem exec_encPut_grows {pl pu pt : Nat} (h : s.encPath.Ready s.cfg)
    (ht : exec (.encPut pl pu pt) s = .next t) :
    s.sink.Grows ((s.enc.fill + s.cfg.rangeBits + s.enc.pending) / s.cfg.bufBits) t.sink := by
  rcases exec_encPut_eq_next ht with ⟨k, rfl⟩ | rfl | ⟨-, -, ht⟩
  · exact .refl _ _
  · exact .refl _ _
  · exact endEnc_leaves_sink (meets_imp (encPutSymbol_moves pl pu pt h) (fun _ => Moved.grows)
      fun _ _ => Moved.grows) ht

theorem exec_encFinish_grows (h : s.encPath.Ready s.cfg) (ht : exec .encFinish s = .next t) :
    s.sink.Grows ((s.enc.fill + 2 + s.enc.pending) / s.cfg.bufBits + 1) t.sink := by
  rcases exec_encFinish_eq_next ht with ⟨k, rfl⟩ | ⟨-, ht⟩
  · exact .refl _ _
  · exact endEnc_leaves_sink (encFinishStream_grows h) ht

theorem State.Inv.encReady (h : s.Inv) : s.encPath.Ready s.cfg := by
  obtain ⟨⟨-, -, -, -, hready⟩, -⟩ := h.enc
  exact hready

/-- No command makes a Sink that accepts every unit stop doing so. -/
theorem exec_keeps_accepts (h : s.Inv) (ha : s.sink.Accepts) (ht : exec i s = .next t) :
    t.sink.Accepts := by
  cases i with
  | encPut => exact (exec_encPut_grows h.encReady ht).accepts ha
  | encFinish => exact (exec_encFinish_grows h.encReady ht).accepts ha
  | _ =>
    rw [exec_sink_eq (by simp [Instr.opcode]) (by simp [Instr.opcode]) ht]
    exact ha

end

end Sys2Proof.Machine
end

section
/-!
How many SourceFills a command of DEC makes (`70_reset_and_hazards.md` rule R203): each bit takes one at
most, and the first bit of DEC.START takes one.
-/
namespace Sys2Proof.Machine

/-- From `q₀` to `q` the Source was called `lo` to `hi` times, and its replies were used up in order. -/
structure Source.Advances (lo hi : Nat) (q₀ q : Source) : Prop where
  least : q₀.fills + lo ≤ q.fills
  most : q.fills ≤ q₀.fills + hi
  replies : q.replies <:+ q₀.replies

section
variable {q₀ q : Source} {lo lo' hi hi' : Nat}

theorem Source.Advances.refl (q : Source) (hi : Nat) : q.Advances 0 hi q :=
  ⟨le_rfl, Nat.le_add_right _ _, List.suffix_rfl⟩

theorem Source.Advances.mono (h : q₀.Advances lo hi q) (hlo : lo' ≤ lo) (hhi : hi ≤ hi') :
    q₀.Advances lo' hi' q := by
  obtain ⟨hleast, hmost, hreplies⟩ := h
  exact ⟨by omega, by omega, hreplies⟩

theorem Source.Advances.call {rest : List SourceReply} (h : q₀.Advances lo hi q)
    (hrest : rest <:+ q.replies) : q₀.Advances (lo + 1) (hi + 1) ⟨rest, q.fills + 1⟩ :=
  ⟨Nat.succ_le_succ h.least, Nat.succ_le_succ h.most, hrest.trans h.replies⟩

/-- A Source that completes every transaction still does so after some of its replies. -/
theorem Source.Advances.answers (h : q₀.Advances lo hi q) (hq : q₀.Answers) : q.Answers :=
  fun hm => hq (h.replies.subset hm)

end

/-! ### The primitives -/

section
variable {c : Config} {q₀ : Source} {lo lo' hi hi' l u : Nat} {d : DecPath}

/-- DEC within a command that began with the Source at `q₀`: it has been called `lo` to `hi` times, and
the interval is from `l` to `u`. -/
structure DecPath.Called (q₀ : Source) (lo hi l u : Nat) (d : DecPath) : Prop where
  source : q₀.Advances lo hi d.source
  lower : d.reg.lower = l
  upper : d.reg.upper = u

theorem DecPath.Called.mono (h : d.Called q₀ lo hi l u) (hlo : lo' ≤ lo) (hhi : hi ≤ hi') :
    d.Called q₀ lo' hi' l u := ⟨h.source.mono hlo hhi, h.lower, h.upper⟩

theorem takeUnit_called (v : BitUnit) (h : d.Called q₀ lo hi l u) :
    (takeUnit c d v).Leaves (DecPath.Called q₀ lo hi l u) := by
  obtain ⟨hsource, hl, hu⟩ := h
  unfold takeUnit
  split
  · exact ⟨hsource, hl, hu⟩
  split
  · exact ⟨hsource, hl, hu⟩
  · exact ⟨hsource, hl, hu⟩

theorem callSource_called (h : d.Called q₀ lo hi l u) :
    (callSource c d).Leaves (DecPath.Called q₀ (lo + 1) (hi + 1) l u) := by
  obtain ⟨hsource, hl, hu⟩ := h
  unfold callSource
  rcases sourceFill_cases d.source with ⟨-, hf⟩ | ⟨w, n, rest, hr, hf⟩ | ⟨rest, -, hf⟩
  · rw [hf]
    exact takeUnit_called _ ⟨hsource.call List.nil_suffix, hl, hu⟩
  · rw [hf]
    exact takeUnit_called _ ⟨hsource.call (hr ▸ List.suffix_cons _ _), hl, hu⟩
  · rw [hf]
    trivial

/-- A bit takes one call at most. -/
theorem nextBit_called (h : d.Called q₀ lo hi l u) :
    (nextBit c d).Leaves (DecPath.Called q₀ lo (hi + 1) l u) := by
  have hnone := h.mono le_rfl (Nat.le_succ hi)
  rw [nextBit_eq]
  split
  · exact hnone
  split
  · exact meets_imp (callSource_called h) (fun _ h' => h'.mono (Nat.le_succ lo) le_rfl)
      fun _ _ h' => h'.mono (Nat.le_succ lo) le_rfl
  · exact ⟨hnone.source, hnone.lower, hnone.upper⟩

/-- A bit takes one call where nothing is buffered and the Source is not exhausted. -/
theorem nextBit_called_of_needsUnit (h : d.Called q₀ lo hi l u) (hd : d.NeedsUnit) :
    (nextBit c d).Leaves (DecPath.Called q₀ (lo + 1) (hi + 1) l u) := by
  obtain ⟨hleft, hx⟩ := hd
  rw [nextBit_eq, if_neg (by simp [hx]), if_pos hleft]
  exact callSource_called h

/-- A shift calls the Source for its bit alone. -/
theorem shiftWindow_called (off : Nat) (h : (nextBit c d).Leaves (DecPath.Called q₀ lo hi l u)) :
    (shiftWindow c off d).Leaves (DecPath.Called q₀ lo hi l u) :=
  meets_andThen h fun _ _ h' => ⟨h'.source, h'.lower, h'.upper⟩

theorem fillWindow_called (n : Nat) (h : d.Called q₀ lo hi l u) :
    (fillWindow c n d).Leaves (DecPath.Called q₀ lo (hi + n) l u) := by
  induction n generalizing d hi with
  | zero => exact h
  | succ n ih =>
    have hshift := meets_imp (shiftWindow_called 0 (nextBit_called (c := c) h)) (fun _ => id)
      fun _ _ h' => h'.mono le_rfl (show hi + 1 ≤ hi + (n + 1) by omega)
    exact meets_andThen hshift fun _ _ h' => Nat.succ_add_eq_add_succ hi n ▸ ih h'

/-- DEC.START fills `RANGE_BITS` bits, and its first call finds the buffer cleared. -/
theorem decOpenStream_advances :
    (decOpenStream c d).Leaves fun d' => d.source.Advances 1 c.rangeBits d'.source := by
  obtain ⟨n, hn⟩ : ∃ n, c.rangeBits = n + 1 :=
    Nat.exists_eq_succ_of_ne_zero (by have := c.freq_le_range; omega)
  have hstart : DecPath.Called d.source 0 0 0 c.rangeMax ⟨Dec.cleared c d.reg, d.source⟩ :=
    ⟨.refl _ _, rfl, rfl⟩
  have hfirst := shiftWindow_called 0 (nextBit_called_of_needsUnit (c := c) hstart ⟨rfl, rfl⟩)
  have hfill : (fillWindow c (n + 1) ⟨Dec.cleared c d.reg, d.source⟩).Leaves
      (DecPath.Called d.source 1 (1 + n) 0 c.rangeMax) :=
    meets_andThen (meets_imp hfirst (fun _ => id) fun _ _ h' => h'.mono le_rfl (Nat.le_add_right 1 n))
      fun _ _ h' => fillWindow_called n h'
  rw [decOpenStream, hn, Nat.add_comm n 1]
  rw [Nat.add_comm n 1] at hfill
  exact meets_andThen (meets_imp hfill (fun _ => id) fun _ _ h' => h'.source) fun _ _ h' => h'.source

/-- One DecStep takes one bit, whose call may be the one that raises a fault. -/
theorem decStep_called (k : RenormCase) (h : d.Called q₀ lo hi l u) :
    (decStep c k d).Leaves
      (DecPath.Called q₀ lo (hi + 1) (transformBound c k l) (transformBound c k u)) := by
  obtain ⟨hsource, rfl, rfl⟩ := h
  exact shiftWindow_called _ (nextBit_called ⟨hsource, rfl, rfl⟩)

/-- The interval runs out of room for a further case before the loop runs out of fuel (rule R105). -/
theorem decRenorm_advances {fuel n : Nat} (h : d.Called q₀ lo hi l u) (hc : Converges c fuel l u)
    (hfuel : hi + fuel = n + 1) :
    (decRenorm c fuel d).Leaves fun d' => q₀.Advances lo n d'.source := by
  induction fuel generalizing d hi l u with
  | zero => exact absurd hc not_converges_zero
  | succ fuel ih =>
    obtain ⟨hsource, rfl, rfl⟩ := h
    cases hk : classify c d.reg.lower d.reg.upper with
    | none =>
      rw [decRenorm_stop hk]
      exact hsource.mono le_rfl (by omega)
    | some k =>
      have hc' := hc.transform hk
      have hpos : fuel ≠ 0 := fun h0 => not_converges_zero (h0 ▸ hc')
      have hstep := meets_imp (decStep_called (c := c) k ⟨hsource, rfl, rfl⟩) (fun _ => id)
        fun _ _ h' => h'.source.mono le_rfl (show hi + 1 ≤ n by omega)
      rw [decRenorm_iterate hk]
      exact meets_andThen hstep fun _ _ h' => ih h' hc' (by omega)

theorem decNarrowSymbol_advances {pl pu pt : Nat}
    (hint : IntervalOk c d.reg.lower d.reg.upper d.reg.range) (hp : ProbOk c pl pu pt) :
    (decNarrowSymbol c pl pu pt d).Leaves fun d' => d.source.Advances 0 c.rangeBits d'.source :=
  meets_andThen (decRenorm_advances (d := d.narrow pl pu pt) ⟨.refl _ 0, rfl, rfl⟩
    (converges_narrow hint hp) (Nat.zero_add _)) fun _ _ h' => h'

end

/-! ### The commands -/

section
variable {s t : State} {i : Instr}

theorem endDec_leaves_source {r : Run DecPath Unit} {P : Source → Prop}
    (hr : r.Leaves fun d => P d.source) (ht : s.endDec r = .next t) : P t.source := by
  rcases endDec_eq_next ht with ⟨d, rfl, rfl⟩ | ⟨f, d, rfl, rfl⟩
  · exact hr
  · exact hr

theorem exec_decStart_advances (ht : exec .decStart s = .next t) :
    s.source.Advances 1 s.cfg.rangeBits t.source :=
  endDec_leaves_source decOpenStream_advances ht

theorem exec_decNarrow_advances {pl pu pt : Nat} (h : s.dec.Inv s.cfg)
    (ht : exec (.decNarrow pl pu pt) s = .next t) :
    s.source.Advances 0 s.cfg.rangeBits t.source := by
  rcases exec_decNarrow_eq_next ht with ⟨k, rfl⟩ | rfl | ⟨hs, hn, ht⟩
  · exact .refl _ _
  · exact .refl _ _
  · obtain ⟨-, -, -, hopen, -⟩ := h
    obtain ⟨hi, -⟩ := hopen (.inr hs)
    exact endDec_leaves_source (decNarrowSymbol_advances hi hn.1) ht

/-- Only DEC.START and DEC.NARROW reach the Source. -/
theorem exec_source_eq (hstart : i.opcode ≠ 0x20) (hnarrow : i.opcode ≠ 0x22)
    (ht : exec i s = .next t) : t.source = s.source := by
  by_cases hi : i.opcode / 16 = 2
  · cases i with
    | decStart => exact absurd rfl hstart
    | decScale total => exact (exec_decScale_keeps ht).1
    | decNarrow pl pu pt => exact absurd rfl hnarrow
    | _ => simp [Instr.opcode] at hi
  · obtain ⟨-, -, -, hsource, -⟩ := commandsReachOnlyTheirUnit i s t ht
    exact (hsource hi).2

/-- No command makes a Source that completes every transaction stop doing so. -/
theorem exec_keeps_answers (h : s.dec.Inv s.cfg) (hq : s.source.Answers) (ht : exec i s = .next t) :
    t.source.Answers := by
  cases i with
  | decStart => exact (exec_decStart_advances ht).answers hq
  | decNarrow => exact (exec_decNarrow_advances h ht).answers hq
  | _ =>
    rw [exec_source_eq (by simp [Instr.opcode]) (by simp [Instr.opcode]) ht]
    exact hq

/-- Settles O24: what each of the four commands that reach a port does to it, and that no other does. -/
theorem portTransactionsAreBounded : Obligations.PortTransactionsAreBounded := by
  intro s t h
  refine ⟨fun pl pu pt ht => (exec_encPut_grows h.encReady ht).units, fun ht => ?_, fun ht => ?_,
    fun pl pu pt ht => ?_, fun i hi ht => ?_⟩
  · rw [Nat.add_right_comm]
    exact (exec_encFinish_grows h.encReady ht).units
  · obtain ⟨hleast, hmost, -⟩ := exec_decStart_advances ht
    exact ⟨hleast, hmost⟩
  · obtain ⟨hleast, hmost, -⟩ := exec_decNarrow_advances h.dec ht
    exact ⟨hleast, hmost⟩
  · simp only [List.mem_cons, List.not_mem_nil, or_false, not_or] at hi
    obtain ⟨hput, hfinish, hstart, hnarrow⟩ := hi
    exact ⟨exec_sink_eq hput hfinish ht, exec_source_eq hstart hnarrow ht⟩

end

end Sys2Proof.Machine
end

section
/-!
Where the ports complete every transaction every step ends (`70_reset_and_hazards.md` rule R202), and
what the block does from its reset values (rule R191).
-/
namespace Sys2Proof.Machine

variable {s : State}

/-! ### Progress -/

/-- Beside ports that complete every transaction, every command answers. -/
theorem exec_answersNext (i : Instr) (h : s.Inv) (ha : s.sink.Accepts) (hq : s.source.Answers) :
    ∃ t, exec i s = .next t := by
  by_cases henc : i.opcode / 16 = 1
  · obtain ⟨t, ht, -⟩ := exec_sinkLimits henc h.enc ha le_rfl
    exact ⟨t, ht⟩
  by_cases hdec : i.opcode / 16 = 2
  · obtain ⟨t, ht, -⟩ := exec_sourceLimits (rest := []) hdec h.dec ⟨hq, fun _ => rfl⟩
      (Nat.le_add_right _ _)
    exact ⟨t, ht⟩
  cases i with
  | nop => exact ⟨_, exec_nop s⟩
  | rdreg n =>
    cases hn : csr s n with
    | none => exact ⟨_, exec_rdreg_unassigned hn⟩
    | some v => exact ⟨_, exec_rdreg_assigned hn⟩
  | fscale v range total =>
    by_cases hd : FscaleDomain s.cfg v range total
    · exact ⟨_, exec_fscale_inDomain hd⟩
    · exact ⟨_, exec_fscale_outOfDomain hd⟩
  | _ => simp [Instr.opcode] at henc hdec

/-- Beside ports that complete every transaction, every step answers and leaves them so. -/
theorem step_answersNext (h : s.Inv) (ha : s.sink.Accepts) (hq : s.source.Answers) :
    ∃ t, step s = .next t ∧ t.sink.Accepts ∧ t.source.Answers := by
  cases hin : s.inbox with
  | nil => exact ⟨s, waitingBlockHoldsItsState s hin, ha, hq⟩
  | cons event rest =>
    cases event with
    | reset => exact ⟨_, step_reset hin, ha, hq⟩
    | command p =>
      cases hp : decode p with
      | error e => exact ⟨_, step_illegalPacket hin hp, ha, hq⟩
      | ok i =>
        have h' := h.withInbox rest
        obtain ⟨t, ht⟩ := exec_answersNext i h' ha hq
        exact ⟨t, (step_command hin hp).trans ht, exec_keeps_accepts h' ha ht,
          exec_keeps_answers h'.dec hq ht⟩

/-- Settles O14: every event of the host is answered, the invariant is kept, and no command leaves a port
that stalls. -/
theorem everyStepEndsWhenThePortsComplete : Obligations.EveryStepEndsWhenThePortsComplete := by
  intro s h ha hq
  obtain ⟨t, ht, ha', hq'⟩ := step_answersNext h ha hq
  exact ⟨t, ht, stepKeepsTheInvariant s t h ht, ha', hq'⟩

/-! ### DEC.START on a Source that keeps its contract -/

section
variable {c : Config} {d : DecPath}

/-- A unit whose count the contract allows gives a bit or the end of the stream, never a fault. -/
theorem takeUnit_of_count_le {v : BitUnit} (hv : v.count ≤ c.bufBits) :
    ∃ b d', takeUnit c d v = .done b d' ∧ d'.source = d.source := by
  rw [takeUnit, if_neg (not_lt.2 hv)]
  split
  · exact ⟨_, _, rfl, rfl⟩
  · exact ⟨_, _, rfl, rfl⟩

theorem callSource_of_keepsContract (h : d.source.KeepsContract c) :
    ∃ b d', callSource c d = .done b d' ∧ d'.source.KeepsContract c := by
  unfold callSource
  rcases sourceFill_cases d.source with ⟨-, hf⟩ | ⟨w, n, rest, hr, hf⟩ | ⟨rest, hr, -⟩
  · obtain ⟨b, d', hd, hsource⟩ := takeUnit_of_count_le (c := c) (v := ⟨0, 0⟩)
      (d := { d with source := ⟨[], d.source.fills + 1⟩ }) (Nat.zero_le _)
    exact ⟨b, d', by rw [hf]; exact hd, by rw [hsource]; exact List.forall_mem_nil _⟩
  · rw [Source.KeepsContract, hr] at h
    obtain ⟨hn, hrest⟩ := List.forall_mem_cons.1 h
    obtain ⟨b, d', hd, hsource⟩ := takeUnit_of_count_le (v := ⟨w, n⟩)
      (d := { d with source := ⟨rest, d.source.fills + 1⟩ }) (of_decide_eq_true hn)
    exact ⟨b, d', by rw [hf]; exact hd, by rw [hsource]; exact hrest⟩
  · exact absurd (h .never (hr ▸ List.mem_cons_self)) (by simp [SourceReply.keepsContract])

/-- What the words of the replies are makes no difference to this. -/
theorem nextBit_of_keepsContract (h : d.source.KeepsContract c) :
    ∃ b d', nextBit c d = .done b d' ∧ d'.source.KeepsContract c := by
  rw [nextBit_eq]
  split
  · exact ⟨_, _, rfl, h⟩
  split
  · exact callSource_of_keepsContract h
  · exact ⟨_, _, rfl, h⟩

theorem fillWindow_of_keepsContract (n : Nat) (h : d.source.KeepsContract c) :
    ∃ d', fillWindow c n d = .done () d' := by
  induction n generalizing d with
  | zero => exact ⟨d, rfl⟩
  | succ n ih =>
    obtain ⟨b, d₁, hd₁, h₁⟩ := nextBit_of_keepsContract h
    rw [fillWindow, shiftWindow, hd₁]
    exact ih h₁

end

/-- DEC.START on a Source that keeps its contract opens a stream. -/
theorem exec_decStart_active (h : s.source.KeepsContract s.cfg) :
    ∃ t, exec .decStart s = .next t ∧ t.dec.phase = .active := by
  obtain ⟨d, hd⟩ := fillWindow_of_keepsContract (d := ⟨Dec.cleared s.cfg s.dec, s.source⟩)
    s.cfg.rangeBits h
  exact ⟨_, by rw [exec_decStart, decOpenStream, decPath_reg, decPath_source, hd]; rfl, rfl⟩

/-! ### After reset -/

/-- The registers of both units read 0 while they hold their reset values. -/
theorem csr_of_reset (he : s.enc = Enc.reset) (hd : s.dec = Dec.reset) :
    ∀ x ∈ (registerMap s).drop 4, csr s x.1 = some 0 := by
  intro x hx
  have hzero : ∀ x ∈ (registerMap s).drop 4, x.2 = 0 := by
    rw [registerMap, he, hd]
    simp [encStatus, decStatus, Enc.reset, Dec.reset, Phase.toNat, causeToNat]
  rw [csr_of_mem_registerMap s x (List.mem_of_mem_drop hx), hzero x hx]

/-- The four commands of a stream are out of sequence while both units are IDLE (rule R173). -/
theorem phaseError_of_reset (he : s.enc = Enc.reset) (hd : s.dec = Dec.reset) (pl pu pt total : Nat) :
    ∀ i ∈ [Instr.encPut pl pu pt, .encFinish, .decScale total, .decNarrow pl pu pt],
      phaseError s i = some .eseq := by
  simp [phaseError, he, hd, Enc.reset, Dec.reset, openStreamCheck, scaledStepCheck]

/-- Settles O10: the phase check, the register map, and the two STARTs. -/
theorem afterResetOnlyStartsOpenAStream : Obligations.AfterResetOnlyStartsOpenAStream := by
  intro s he hd
  refine ⟨fun pl pu pt total i hi => exec_of_phaseError (phaseError_of_reset he hd pl pu pt total i hi),
    fun n hn => ?_, ⟨_, exec_encStart, rfl⟩, exec_decStart_active⟩
  obtain ⟨x, hx, rfl⟩ := List.mem_map.1
    (show n ∈ ((registerMap s).drop 4).map Prod.fst from hn)
  exact exec_rdreg_assigned (csr_of_reset he hd x hx)

end Sys2Proof.Machine
end
